-- ==== Sys2Proof/Word.lean ====
section
/-! DEFINITION. The words, octets, bit sequences and exact samples of TR1-LCC (spec rules R9, R10, R11). -/

namespace Sys2Proof

/-- A register word: bit 0 is its least significant bit, bit 31 its most significant one (R11, R22). -/
abbrev Word := BitVec 32

/-- An octet of a bit buffer as the host port carries it; bit 7 is the most significant one (R53). -/
abbrev Octet := BitVec 8

/-- A bit of a bit sequence: `true` is 1 and `false` is 0 (R9). -/
abbrev Bit := Bool

/-- One summand `coef · cos (2π · turn) · r₁ · … · rₖ` of an exact sample: a rational multiple of the
cosine of a rational part of a full turn, times the named reals whose names `reals` lists. -/
structure Term where
  coef : ℚ
  turn : ℚ
  reals : List ℕ
  deriving DecidableEq, Repr, Inhabited

/-- A sample: the real number that is the sum of its terms (R10: a sample is a real number, and all
arithmetic on samples is exact).  The sums without a named real hold every rational number, `√2` and
every value of the sines and cosines the carriers use (`sin x = cos (x - π/2)`).  Any other real number
that a host writes (R58) is a named real `⟨[⟨1, 0, [n]⟩]⟩`: nothing is known of which number the name
`n` stands for, so what is proved holds whichever it is.  All these sums are a ring, so no rule of the
spec leaves it; see assumption 3. -/
structure Sample where
  terms : List Term
  deriving DecidableEq, Repr, Inhabited

/-- The real number a summand is, where the name `n` stands for the real number `v n`. -/
noncomputable def Term.valueWith (v : ℕ → ℝ) (t : Term) : ℝ :=
  (t.coef : ℝ) * Real.cos (2 * Real.pi * (t.turn : ℝ)) * (t.reals.map v).prod

/-- The real number a sample is, where the name `n` stands for the real number `v n` (R10). -/
noncomputable def Sample.valueWith (v : ℕ → ℝ) (x : Sample) : ℝ :=
  (x.terms.map (Term.valueWith v)).sum

end Sys2Proof
end

