-- ==== Sys2Proof/Config.lean ====
section
/-! DEFINITION. What an implementation of TR1-LCC fixes and what the spec leaves open (R7, and the
treatments `parameter` and `any value` of 93_implementation_defined.md).  Every constant here is
opaque: no proof can learn its value, so what is proved holds for every value. -/

namespace Sys2Proof.Config

/-- One less than the capacity of the bit buffers. -/
opaque bitsBeyondFirst : Nat

/-- One less than the capacity of the sample buffers. -/
opaque samplesBeyondFirst : Nat

/-- `MAX_BITS`, the capacity of IN_BITS and of OUT_BITS (R7: an integer ≥ 1, no value given). -/
def maxBits : Nat := bitsBeyondFirst + 1

/-- `MAX_SAMPLES`, the capacity of IN_SAMP and of OUT_SAMP (R7: an integer ≥ 1, no value given). -/
def maxSamples : Nat := samplesBeyondFirst + 1

/-- `LATENCY`: how many turns the command word `w`, written when the lengths were `inBlen` and
`inSlen`, keeps BUSY = 1 before it completes (R7, R25, R270: finite, with no bound).  The counter
makes every command's latency a fresh value. -/
opaque latency (w inBlen inSlen : Word) (tick : Nat) : Nat

/-- `SAMPLE_FMT`: the sample that a 32-bit host word stands for in VPEAK or FS (R7, R33, R34, R79). -/
opaque sampleOfWord : Word → Sample

/-- `SAMPLE_FMT`: the 32-bit word a host sends for a real number (R79). -/
opaque wordOfSample : Sample → Word

/-- The real numbers that the names of named reals stand for (R10, R58), as far as a machine that runs
can hold them: the sign that every sample has under them.  The spec compares samples as exact reals, so
the signs are all that a comparison needs.  Where `sign?` answers nothing, every name stands for 0.
`Sys2Proof/Laws/NamedReals.lean` proves that every choice of real numbers is one of these. -/
structure NamedReals where
  /-- the sign of a sample -/
  sign? : Sample → Option SignType := fun _ => none
  /-- one choice of real numbers has these signs -/
  exact : (∀ x, sign? x = none) ∨
    ∃ v : ℕ → ℝ, ∀ x, sign? x = some (SignType.sign (x.valueWith v)) := by exact .inl fun _ => rfl
  deriving Inhabited

/-- The real numbers that the names stand for: any at all (R58: any real value can arrive). -/
opaque namedReals : NamedReals

/-- A free word for an unspecified register read (R238, U6). -/
opaque freeWord : Nat → Word

/-- Free bits for an unspecified octet read (R54, R56, R238, U1, U2, U4, U6). -/
opaque freeOctet : Nat → Octet

/-- A free sample for an unspecified sample read (R56, R238, U1, U2, U4, U6). -/
opaque freeSample : Nat → Sample

/-- What a 32-bit output-length register holds after an output of `n ≥ 2^32` elements: the spec gives
the register 32 bits (R30, R31) and no value for such a length. -/
opaque longLength : Nat → Word

end Sys2Proof.Config
end

