-- ==== Sys2Proof/Syntax.lean ====
section
/-! DEFINITION. The commands of TR1-LCC (command set version 1, R2, R73) and the host accesses that
drive it (R50, R79, R80). -/

namespace Sys2Proof

/-- The 21 commands of R73.  No command has an immediate or a register field (R72). -/
inductive Instr where
  | nrzEnc
  | nrzDec
  | manEnc
  | manDec
  | amiEnc
  | amiDec
  | amiRst
  | askMod
  | askDem
  | fskMod
  | fskDem
  | qpskMod
  | qpskDem
  | qam16Mod
  | qam16Dem
  | bstEnc
  | bstDec
  | crcGen
  | crcChk
  | hamEnc
  | hamDec
  deriving DecidableEq, Repr, Inhabited

/-- The 14 registers of R22. -/
inductive Reg where
  | cmd
  | status
  | inBlen
  | inSlen
  | outBlen
  | outSlen
  | spb
  | vpeak
  | fs
  | askCyc
  | fskCyc1
  | fskCyc2
  | iqCyc
  | amiState
  deriving DecidableEq, Repr, Inhabited

/-- The two bit buffers (R41, R50). -/
inductive BitSpace where
  | inBits
  | outBits
  deriving DecidableEq, Repr, Inhabited

/-- The two sample buffers (R41, R50). -/
inductive SampSpace where
  | inSamp
  | outSamp
  deriving DecidableEq, Repr, Inhabited

/-- One datum on the host port: a register word, an octet of a bit buffer, or a sample-format value
written as the real number it stands for (R51, R53, R55, R79). -/
inductive HostData where
  | word (w : Word)
  | octet (v : Octet)
  | sample (x : Sample)
  deriving DecidableEq, Repr, Inhabited

/-- What the outside world does to the block, one at a time: the accesses of R79, the pseudo-accesses
of R80 that need a value read back, and reset (R260).  A register is named by its word offset `off`,
which is byte offset `4 * off` (R51); an offset with no register is reserved (R40). -/
inductive Access where
  /-- `wr REG, v` -/
  | wr (off : Nat) (v : HostData)
  /-- `rd REG` -/
  | rd (off : Nat)
  /-- `wb S[j], v`: write octet `j` of a bit buffer -/
  | wb (sp : BitSpace) (j : Nat) (v : Octet)
  /-- `rb S[j]`: read octet `j` of a bit buffer -/
  | rb (sp : BitSpace) (j : Nat)
  /-- `ws S[i], x`: write sample `i` of a sample buffer -/
  | ws (sp : SampSpace) (i : Nat) (x : Sample)
  /-- `rs S[i]`: read sample `i` of a sample buffer -/
  | rs (sp : SampSpace) (i : Nat)
  /-- `wb S[j]` with the octet the host has just read (the second half of a `mvb` copy, R80) -/
  | wbLast (sp : BitSpace) (j : Nat)
  /-- `ws S[i]` with the sample the host has just read (the second half of a `mvs` copy, R80) -/
  | wsLast (sp : SampSpace) (i : Nat)
  /-- `wait`: `rd STATUS` until bit 0 reads 0 (R80) -/
  | wait
  /-- `mvb`: copy OUT_BITS and its length to IN_BITS (R80) -/
  | mvb
  /-- `mvs`: copy OUT_SAMP and its length to IN_SAMP (R80) -/
  | mvs
  /-- the reset input of the block (R260, R262) -/
  | reset
  deriving DecidableEq, Repr, Inhabited

end Sys2Proof
end

