-- ==== Sys2Proof/Machine/State.lean ====
section
/-! DEFINITION. The state of TR1-LCC, why a step can stop, and the state after reset (R20 to R45, R260). -/

namespace Sys2Proof.Machine

/-- The result codes of STATUS.CODE.  Codes 5 to 15 are never written (R27, R231), so they are no
values of the field. -/
inductive Code where
  /-- 0: the command was accepted and completed -/
  | ok
  /-- 1: the word is no command -/
  | illegalCmd
  /-- 2: a configuration register the command checks is out of range -/
  | badConfig
  /-- 3: the input length exceeds the input capacity -/
  | inRange
  /-- 4: the output would exceed the output capacity -/
  | outOverflow
  deriving DecidableEq, Repr, Inhabited

/-- A command that has been started and has not finished: STATUS.BUSY = 1 (R25).  `wait` is how many
more turns it keeps BUSY = 1 before the turn in which it completes (`LATENCY`, R270). -/
structure InFlight where
  word : Word
  wait : Nat
  deriving DecidableEq, Repr, Inhabited

/-- The contents of a buffer: index and element, indices strictly rising.  An index that is not listed
holds an unspecified element (R56): it has no value. -/
abbrev Buf (α : Type) := List (Nat × α)

/-- The buffer capacities (R7); fixed for a block, changed by nothing. -/
structure Params where
  maxBits : Nat
  maxSamples : Nat
  deriving DecidableEq, Repr, Inhabited

/-- The whole state.  The registers are those of R22; CMD stores nothing (R23), and STATUS is made of
`inflight` (BUSY), `err` (ERR) and `code` (CODE). -/
structure State where
  /-- the command in progress; STATUS.BUSY is 1 exactly when there is one (R24, R25) -/
  inflight : Option InFlight
  /-- STATUS.ERR (R26) -/
  err : Bool
  /-- STATUS.CODE (R27) -/
  code : Code
  /-- IN_BLEN (R28) -/
  inBlen : Word
  /-- IN_SLEN (R29) -/
  inSlen : Word
  /-- OUT_BLEN (R30) -/
  outBlen : Word
  /-- OUT_SLEN (R31) -/
  outSlen : Word
  /-- SPB (R32) -/
  spb : Word
  /-- VPEAK, the real number its sample word stands for (R33, R10) -/
  vpeak : Sample
  /-- FS, the real number its sample word stands for (R34, R10) -/
  fs : Sample
  /-- ASK_CYC bits 15:0 (R35); the other bits are reserved and hold nothing (R40) -/
  askCyc : BitVec 16
  /-- FSK_CYC1 bits 15:0 (R36) -/
  fskCyc1 : BitVec 16
  /-- FSK_CYC2 bits 15:0 (R37) -/
  fskCyc2 : BitVec 16
  /-- IQ_CYC bits 15:0 (R38) -/
  iqCyc : BitVec 16
  /-- AMI_STATE.POL: true when the next mark is sent as +V (R39) -/
  amiPol : Bool
  /-- IN_BITS (R41, R50, R52) -/
  inBits : Buf Bit
  /-- OUT_BITS (R41) -/
  outBits : Buf Bit
  /-- IN_SAMP (R41) -/
  inSamp : Buf Sample
  /-- OUT_SAMP (R41) -/
  outSamp : Buf Sample
  /-- the capacities of the block (R7) -/
  params : Params
  /-- the model's own: what the host will still do, the next access first (R3, R21, R79) -/
  host : List Access
  /-- the model's own: what the host has read, the last datum first (R79) -/
  rx : List HostData
  /-- the model's own: how many free values have been taken -/
  tick : Nat
  deriving DecidableEq, Repr, Inhabited

/-- Why a step stops with a fault.  Both are raised by a command that reads an input element the host
has not written since reset: the spec says that a model treats that read as a fault (R56, U3).  Safe:
the hardware would go on with an unspecified value. -/
inductive Fault where
  /-- raised by a bit-input command: the lowest index of IN_BITS below IN_BLEN that is not written; safe -/
  | unwrittenInBit (index : Nat)
  /-- raised by a sample-input command: the lowest index of IN_SAMP below IN_SLEN that is not written; safe -/
  | unwrittenInSample (index : Nat)
  deriving DecidableEq, Repr, Inhabited

/-- Why a step refuses. -/
inductive Refusal where
  /-- a command that has no meaning in this model yet; raised by no command of this model; safe -/
  | notModelled (mnemonic : String)
  deriving DecidableEq, Repr, Inhabited

/-- The outcome of one step of this machine. -/
abbrev Result := Host.Outcome State Fault Refusal

/-- The block right after reset (R44, R260, R261), with the capacities an implementation fixes and a
host that does nothing. -/
def State.reset : State where
  inflight := none
  err := false
  code := .ok
  inBlen := 0
  inSlen := 0
  outBlen := 0
  outSlen := 0
  spb := 8
  vpeak := ⟨[⟨1, 0, []⟩]⟩
  fs := ⟨[⟨8, 0, []⟩]⟩
  askCyc := 1
  fskCyc1 := 2
  fskCyc2 := 1
  iqCyc := 1
  amiPol := true
  inBits := []
  outBits := []
  inSamp := []
  outSamp := []
  params := ⟨Config.maxBits, Config.maxSamples⟩
  host := []
  rx := []
  tick := 0

end Sys2Proof.Machine
end

