-- ==== Sys2Proof/Machine/Ops.lean ====
section
/-! DEFINITION. The named operations every command and host access is built from: buffers (R52 to R57),
the start, the rejection and the completion of a command (R77, R233), and reset (R260 to R262).
TR1-LCC has no trap (R230, R237): a rejection is the one exceptional ending of a command, and there is
no return from it. -/

namespace Sys2Proof.Machine

/-! ## Buffers -/

/-- The element a buffer holds at an index; none where no rule gives it a value (R56). -/
def Buf.read {α : Type} : Buf α → Nat → Option α
  | [], _ => none
  | c :: cs, i => if i = c.1 then some c.2 else Buf.read cs i

/-- Write one element, keeping the indices rising (R52). -/
def Buf.write {α : Type} : Buf α → Nat → α → Buf α
  | [], i, x => [(i, x)]
  | c :: cs, i, x =>
    if i < c.1 then (i, x) :: c :: cs
    else if i = c.1 then (i, x) :: cs
    else c :: Buf.write cs i x

/-- A sequence as buffer elements, the first at index `i`. -/
def numbered {α : Type} (i : Nat) : List α → Buf α
  | [] => []
  | x :: xs => (i, x) :: numbered (i + 1) xs

/-- Write a sequence from element 0 on; the elements beyond it stay (R57, `emitBits` and `emitSamp` of
R12). -/
def Buf.writeBlock {α : Type} (b : Buf α) (xs : List α) : Buf α :=
  numbered 0 xs ++ b.filter fun c => decide (xs.length ≤ c.1)

/-- The elements `i` to `i + n - 1`, or the lowest index among them that holds no value (R12, R56). -/
def Buf.readSeq {α : Type} (b : Buf α) (i : Nat) : Nat → Except Nat (List α)
  | 0 => .ok []
  | n + 1 =>
    match b.read i with
    | none => .error i
    | some x =>
      match Buf.readSeq b (i + 1) n with
      | .ok xs => .ok (x :: xs)
      | .error j => .error j

/-- A list of indices rises strictly. -/
def rising : List Nat → Bool
  | [] => true
  | [_] => true
  | i :: j :: ks => decide (i < j) && rising (j :: ks)

/-- The one form of a buffer: its indices rise strictly. -/
def Buf.wf {α : Type} (b : Buf α) : Bool := rising (b.map fun c => c.1)

/-! ## A command's start, rejection and completion -/

/-- STATUS.BUSY (R25). -/
def State.busy (s : State) : Bool := s.inflight.isSome

/-- A host write of `w` to CMD while the block is idle starts the command: BUSY becomes 1 for as long
as LATENCY says (R23, R25, R77). -/
def State.startCommand (s : State) (w : Word) : State :=
  { s with
    inflight := some ⟨w, Config.latency w s.inBlen s.inSlen s.tick⟩
    tick := s.tick + 1 }

/-- A rejection: CODE takes the code, BUSY returns to 0, nothing else changes (R233). -/
def State.reject (s : State) (c : Code) : State := { s with code := c, inflight := none }

/-- The end of an accepted command: ERR takes the error flag, CODE is OK, BUSY returns to 0 (R77). -/
def State.accept (s : State) (err : Bool) : State :=
  { s with err := err, code := .ok, inflight := none }

/-- The value an output-length register takes for an output of `n` elements (R30, R31).  The spec does
not say what a 32-bit register holds for a length of `2^32` or more: a free value (assumption 7). -/
def lengthWord (n : Nat) : Word := if n < 2 ^ 32 then BitVec.ofNat 32 n else Config.longLength n

/-- `emitBits` (R12, R57). -/
def State.emitBits (s : State) (out : List Bit) : State :=
  { s with outBits := s.outBits.writeBlock out, outBlen := lengthWord out.length }

/-- `emitSamp` (R12, R57). -/
def State.emitSamp (s : State) (out : List Sample) : State :=
  { s with outSamp := s.outSamp.writeBlock out, outSlen := lengthWord out.length }

/-- What a command's function gives (`F_op` of R77): the output, the error flag, and the AMI polarity
where the command writes it. -/
structure Produced (α : Type) where
  out : List α
  err : Bool
  pol : Option Bool

/-- The outputs of a command that writes ERR = 0 and leaves POL alone (R14, R39). -/
def plain {α : Type} (out : List α) : Produced α := ⟨out, false, none⟩

/-- POL is written only by a command that gives a polarity (R39, R77). -/
def State.setPol (s : State) (pol : Option Bool) : State :=
  { s with amiPol := pol.getD s.amiPol }

/-- The end of the cycle of a command with bit output, from the output-length check on (R77). -/
def State.finishBits (s : State) (r : Produced Bit) : State :=
  if s.params.maxBits < r.out.length then s.reject .outOverflow
  else ((s.emitBits r.out).setPol r.pol).accept r.err

/-- The end of the cycle of a command with sample output, from the output-length check on (R77). -/
def State.finishSamples (s : State) (r : Produced Sample) : State :=
  if s.params.maxSamples < r.out.length then s.reject .outOverflow
  else ((s.emitSamp r.out).setPol r.pol).accept r.err

/-- BAD_CONFIG comes before every other check of a known command (R77, R234). -/
def checkConfig (s : State) (ok : Bool) (rest : Result) : Result :=
  if ok then rest else .next (s.reject .badConfig)

/-- The cycle of a bit-input command from the IN_RANGE check on (R77): `finish` is the rest of the
cycle on the bits read.  An element that is not written is a fault (R56, U3), unless the output would
exceed its capacity whatever the bits are: such a command is rejected before it reads anything (R52);
`least` is the least length the output can have and `capacity` the capacity it goes to. -/
def withInBits (s : State) (least capacity : Nat) (finish : List Bit → State) : Result :=
  if s.params.maxBits < s.inBlen.toNat then .next (s.reject .inRange)
  else
    match s.inBits.readSeq 0 s.inBlen.toNat with
    | .ok b => .next (finish b)
    | .error i =>
      if capacity < least then .next (s.reject .outOverflow) else .fault (.unwrittenInBit i)

/-- The cycle of a sample-input command from the IN_RANGE check on (R77); as `withInBits`. -/
def withInSamp (s : State) (least capacity : Nat) (finish : List Sample → State) : Result :=
  if s.params.maxSamples < s.inSlen.toNat then .next (s.reject .inRange)
  else
    match s.inSamp.readSeq 0 s.inSlen.toNat with
    | .ok r => .next (finish r)
    | .error i =>
      if capacity < least then .next (s.reject .outOverflow) else .fault (.unwrittenInSample i)

/-- The cycle of a command from bits to samples; `least` gives the output length for an input of `L`
bits (R78). -/
def runBitsToSamples (s : State) (least : Nat → Nat) (f : List Bit → Produced Sample) : Result :=
  withInBits s (least s.inBlen.toNat) s.params.maxSamples fun b => s.finishSamples (f b)

/-- The cycle of a command from samples to bits; `least` gives the output length for an input of `S`
samples (R78). -/
def runSamplesToBits (s : State) (least : Nat → Nat) (f : List Sample → Produced Bit) : Result :=
  withInSamp s (least s.inSlen.toNat) s.params.maxBits fun r => s.finishBits (f r)

/-- The cycle of a command from bits to bits; `least` gives the least output length for an input of `L`
bits (R78). -/
def runBitsToBits (s : State) (least : Nat → Nat) (f : List Bit → Produced Bit) : Result :=
  withInBits s (least s.inBlen.toNat) s.params.maxBits fun b => s.finishBits (f b)

/-! ## Reset and the command to run -/

/-- Reset: every register takes its reset value, the buffers become unspecified, a command in progress
is abandoned (R260 to R262).  The capacities and the host's own record stay. -/
def State.resetBlock (s : State) : State :=
  { State.reset with params := s.params, host := s.host, rx := s.rx, tick := s.tick }

/-- The command word that completes in this turn: the one in progress whose latency has passed. -/
def State.fetchCommand (s : State) : Option Word :=
  match s.inflight with
  | some ⟨w, 0⟩ => some w
  | _ => none

/-- One turn of a latency (R270). -/
def State.countDown (s : State) : State :=
  match s.inflight with
  | some ⟨w, n + 1⟩ => { s with inflight := some ⟨w, n⟩ }
  | _ => s

/-- The state in which the word `w` has been written to CMD and its latency has passed, so that the
next turn runs it. -/
def State.withCommand (s : State) (w : Word) : State := { s with inflight := some ⟨w, 0⟩ }

end Sys2Proof.Machine
end

