-- ==== Sys2Proof/Machine/Samples.lean ====
section
/-! DEFINITION. Exact arithmetic and exact comparison of samples (R10): sums, products, the sine and
cosine of a rational part of a turn, and the sign of a sample.  Every operation brings its result to
the form that `Sample.norm` makes.  `Sys2Proof/Laws/SampleValue.lean` and
`Sys2Proof/Laws/SampleSign.lean` prove that each operation computes the real number it names. -/

namespace Sys2Proof

/-! ## The form of a sum of cosines -/

/-- The term holds no named real. -/
def Term.closed (t : Term) : Bool := t.reals.isEmpty

/-- The same summand with its turn in `[0, 1/4)`: cosine has period one turn and is even,
`cos (π - x) = - cos x`, `cos (π/2) = 0` and `cos (π/3) = 1/2`. -/
def Term.fold (t : Term) : Term :=
  let f := t.turn - (t.turn.floor : ℚ)
  let h := if 1 / 2 < f then 1 - f else f
  let q := if 1 / 4 < h then - t.coef else t.coef
  let g := if 1 / 4 < h then 1 / 2 - h else h
  if g = 1 / 4 then ⟨0, 0, t.reals⟩
  else if g = 1 / 6 then ⟨q / 2, 0, t.reals⟩
  else ⟨q, g, t.reals⟩

/-- The order of lists of names: the shorter one first where they agree, else by the first difference. -/
def namesBefore : List ℕ → List ℕ → Bool
  | _, [] => false
  | [], _ :: _ => true
  | a :: as, b :: bs => if a = b then namesBefore as bs else decide (a < b)

/-- The order of summands in a sum: by their names, then by their turns. -/
def Term.before (t u : Term) : Bool :=
  if t.reals = u.reals then decide (t.turn < u.turn) else namesBefore t.reals u.reals

/-- Add a summand to a sum whose summands are in order; summands of one turn and the same names are
joined, zero summands dropped. -/
def insertTerm (t : Term) : List Term → List Term
  | [] => if t.coef = 0 then [] else [t]
  | u :: us =>
    if t.coef = 0 then u :: us
    else if t.turn = u.turn ∧ t.reals = u.reals then
      (if t.coef + u.coef = 0 then us else ⟨t.coef + u.coef, u.turn, u.reals⟩ :: us)
    else if t.before u then t :: u :: us
    else u :: insertTerm t us

/-- The sum of a list of terms, with folded turns, in strict order and without a zero coefficient. -/
def Sample.norm (ts : List Term) : Sample :=
  ⟨ts.foldr (fun t acc => insertTerm t.fold acc) []⟩

/-! ## Ring operations -/

/-- A rational number as a sample. -/
def Sample.ofRat (q : ℚ) : Sample := Sample.norm [⟨q, 0, []⟩]

/-- The named real `n` as a sample. -/
def Sample.ofName (n : ℕ) : Sample := ⟨[⟨1, 0, [n]⟩]⟩

/-- The sample 0. -/
def Sample.zero : Sample := ⟨[]⟩

/-- `x + y`. -/
def Sample.add (x y : Sample) : Sample := Sample.norm (x.terms ++ y.terms)

/-- `q · x` for a rational `q`. -/
def Sample.scale (q : ℚ) (x : Sample) : Sample :=
  Sample.norm (x.terms.map fun t => ⟨q * t.coef, t.turn, t.reals⟩)

/-- `- x`. -/
def Sample.neg (x : Sample) : Sample := x.scale (-1)

/-- `x - y`. -/
def Sample.sub (x y : Sample) : Sample := x.add y.neg

/-- Put a name into a rising list of names. -/
def insertName (n : ℕ) : List ℕ → List ℕ
  | [] => [n]
  | m :: ms => if n ≤ m then n :: m :: ms else m :: insertName n ms

/-- The names of a product of named reals. -/
def mergeNames (as bs : List ℕ) : List ℕ := as.foldr insertName bs

/-- The product of two summands: `cos a · cos b = (cos (a - b) + cos (a + b)) / 2`. -/
def Term.mul (a b : Term) : List Term :=
  [⟨a.coef * b.coef / 2, a.turn - b.turn, mergeNames a.reals b.reals⟩,
    ⟨a.coef * b.coef / 2, a.turn + b.turn, mergeNames a.reals b.reals⟩]

/-- `x · y`. -/
def Sample.mul (x y : Sample) : Sample :=
  Sample.norm (x.terms.flatMap fun a => y.terms.flatMap fun b => a.mul b)

/-- The sum of a waveform's samples. -/
def Sample.sum (xs : List Sample) : Sample := Sample.norm (xs.flatMap Sample.terms)

/-- `mean(x) = (x[0] + … + x[|x|-1]) / |x|` (R13; used for `|x| ≥ 1` only). -/
def Sample.mean (xs : List Sample) : Sample := (Sample.sum xs).scale (1 / (xs.length : ℚ))

/-- `cos (2π · turn)`. -/
def Sample.cosTurn (turn : ℚ) : Sample := Sample.norm [⟨1, turn, []⟩]

/-- `sin (2π · turn)`, the cosine a quarter turn earlier. -/
def Sample.sinTurn (turn : ℚ) : Sample := Sample.norm [⟨1, turn - 1 / 4, []⟩]

/-- `1/√2 = cos (2π/8)`. -/
def Sample.invSqrtTwo : Sample := Sample.cosTurn (1 / 8)

/-! ## The sign of a sample

A sum of cosines without named reals is bounded below in size when it is not zero: it is an algebraic
number whose conjugates are all bounded by the sum of its coefficients.  An approximation that is finer
than that bound decides the sign exactly.  The sign of a sum with named reals depends on the reals they
are: `Config.namedReals` gives it. -/

/-- The first `m` terms of the series of `arctan x`. -/
def atanSum (x : ℚ) : ℕ → ℚ
  | 0 => 0
  | m + 1 => atanSum x m + (-1) ^ m * x ^ (2 * m + 1) / (2 * m + 1 : ℕ)

/-- A rational number within `2^(-p)` of `π` (Machin's formula `π = 16 arctan (1/5) - 4 arctan (1/239)`). -/
def piApprox (p : ℕ) : ℚ :=
  let q := 16 * atanSum (1 / 5) (p / 4 + 2) - 4 * atanSum (1 / 239) (p / 4 + 2)
  ((q * 2 ^ (p + 3)).floor : ℚ) / 2 ^ (p + 3)

/-- The first `m` terms of the series of `cos`, as a polynomial in the square `y` of its argument. -/
def cosSum (y : ℚ) : ℕ → ℚ
  | 0 => 0
  | m + 1 => cosSum y m + (-1) ^ m * y ^ m / ((2 * m).factorial : ℕ)

/-- A rational number within `2^(-p)` of `cos (2π · turn)` for a turn in `[0, 1/4]`, from `pi` within
`2^(-p)` of `π`. -/
def cosApprox (pi : ℚ) (p : ℕ) (turn : ℚ) : ℚ :=
  let x := 2 * turn * pi
  cosSum (x * x) (p + 4)

/-- The sum of the sizes of the coefficients. -/
def coefSize (ts : List Term) : ℚ := (ts.map fun t => |t.coef|).sum

/-- The sum of the terms with each cosine replaced by its approximation. -/
def approxSum (pi : ℚ) (p : ℕ) (ts : List Term) : ℚ :=
  (ts.map fun t => t.coef * cosApprox pi p t.turn).sum

/-- The sign that precision `p` shows; 0 where that precision does not tell it. -/
def signAt (p : ℕ) (ts : List Term) : ℤ :=
  let v := approxSum (piApprox p) p ts
  let e := coefSize ts / 2 ^ p
  if e < v then 1 else if v < -e then -1 else 0

/-- The least common multiple of the denominators of a list of rationals. -/
def denLcm (qs : List ℚ) : ℕ := qs.foldr (fun q n => Nat.lcm q.den n) 1

/-- A precision at which every sum with these terms that is not 0 shows its sign. -/
def finePrecision (ts : List Term) : ℕ :=
  let n := denLcm (ts.map Term.turn)
  let m := (coefSize ts * (denLcm (ts.map Term.coef) : ℚ)).num.natAbs
  ((2 * m).log2 + 1) * (n + 1) + 1

/-- The sign of a sum of terms without named reals whose turns lie in `[0, 1/4)`. -/
def signCosines : List Term → ℤ
  | [] => 0
  | [t] => t.coef.num.sign
  | ts =>
    let c := signAt 20 ts
    if c = 0 then signAt (finePrecision ts) ts else c

/-- The sign of a sum of terms whose turns lie in `[0, 1/4)`: where no sign of a sum with named reals
is given, they are 0 and their terms fall away. -/
def signTerms (ts : List Term) : ℤ :=
  if ts.all Term.closed then signCosines ts
  else
    match Config.namedReals.sign? ⟨ts⟩ with
    | some c => (c : ℤ)
    | none => signCosines (ts.filter Term.closed)

/-- The sign of a sample: 1, 0 or -1.  A single rational number is decided at once. -/
def Sample.sign (x : Sample) : ℤ :=
  match x.terms with
  | [⟨q, r, []⟩] => if r = 0 then q.num.sign else signTerms (Sample.norm [⟨q, r, []⟩]).terms
  | ts => signTerms (Sample.norm ts).terms

/-- `x > 0`. -/
def Sample.isPos (x : Sample) : Bool := x.sign = 1

/-- `x < 0`. -/
def Sample.isNeg (x : Sample) : Bool := x.sign = -1

/-- `x < y`. -/
def Sample.lt (x y : Sample) : Bool := (y.sub x).isPos

/-- `|x|`. -/
def Sample.abs (x : Sample) : Sample := if x.isNeg then x.neg else x

/-- `x` and `y` are the same real number. -/
def Sample.sameValue (x y : Sample) : Bool := (x.sub y).sign = 0

end Sys2Proof
end

