-- ==== Sys2Proof/Machine/Operands.lean ====
section
/-! DEFINITION. The operands of the commands: the configuration registers as numbers, the acceptance
checks of R232, and the helpers of R13 that cut an input into intervals and groups. -/

namespace Sys2Proof.Machine

/-- `N = reg[SPB]` (R32). -/
def State.spbN (s : State) : Nat := s.spb.toNat

/-- `cA`, ASK_CYC bits 15:0 (R35). -/
def State.cycA (s : State) : Nat := s.askCyc.toNat

/-- `c1`, FSK_CYC1 bits 15:0 (R36). -/
def State.cyc1 (s : State) : Nat := s.fskCyc1.toNat

/-- `c2`, FSK_CYC2 bits 15:0 (R37). -/
def State.cyc2 (s : State) : Nat := s.fskCyc2.toNat

/-- `cI`, IQ_CYC bits 15:0 (R38). -/
def State.cycI (s : State) : Nat := s.iqCyc.toNat

/-! ## Acceptance checks (R232) -/

/-- `N ≥ 4` and `V > 0`: the check of NRZ, MAN, AMI_ENC, AMI_DEC and ASK_DEM. -/
def State.waveOk (s : State) : Bool := decide (4 ≤ s.spbN) && s.vpeak.isPos

/-- The check of ASK_MOD. -/
def State.askOk (s : State) : Bool := s.waveOk && decide (1 ≤ s.cycA)

/-- The check of FSK_MOD and FSK_DEM. -/
def State.fskOk (s : State) : Bool := s.waveOk && decide (1 ≤ s.cyc1) && decide (1 ≤ s.cyc2)

/-- The check of the QPSK and 16-QAM commands: also, N does not divide `2 · IQ_CYC`. -/
def State.iqOk (s : State) : Bool :=
  s.waveOk && decide (1 ≤ s.cycI) && decide (2 * s.cycI % s.spbN ≠ 0)

/-! ## Intervals, padding and groups (R13) -/

/-- `nInt(w, N)`, the number of complete intervals among `len` samples. -/
def nInt (len n : Nat) : Nat := len / n

/-- `seg(w, i, N)`, the `i`-th interval of `N` samples. -/
def seg {α : Type} (w : List α) (i n : Nat) : List α := (w.drop (i * n)).take n

/-- The complete intervals of a waveform; a trailing partial one is ignored (R100, R130). -/
def intervals {α : Type} (n : Nat) (w : List α) : List (List α) :=
  (List.range (nInt w.length n)).map fun i => seg w i n

/-- The number of zero bits that `padz(b, m)` adds to a sequence of `len` bits. -/
def padCount (len m : Nat) : Nat := (m - len % m) % m

/-- `padz(b, m)`: zeros at the end, up to a multiple of `m`. -/
def padz (b : List Bit) (m : Nat) : List Bit := b ++ List.replicate (padCount b.length m) false

/-- The element `b[i]` of a bit sequence; asked only for `i < |b|`. -/
def bitAt (b : List Bit) (i : Nat) : Bit := b.getD i false

end Sys2Proof.Machine
end

