-- ==== Sys2Proof/Machine/BitStuffing.lean ====
section
/-! DEFINITION. The bit-stuffing and destuffing automaton (42_bit_stuffing.md). -/

namespace Sys2Proof.Machine

/-- The flag `0 1 1 1 1 1 1 0` (R170). -/
def stuffFlag : List Bit := [false, true, true, true, true, true, true, false]

/-- The stuffed payload, after `run` consecutive 1 bits of the payload (R171). -/
def stuff (run : Nat) : List Bit → List Bit
  | [] => []
  | false :: bs => false :: stuff 0 bs
  | true :: bs => if run + 1 = 5 then true :: false :: stuff 0 bs else true :: stuff (run + 1) bs

/-- The frame of BST_ENC (R171). -/
def bstEncode (b : List Bit) : List Bit := stuffFlag ++ stuff 0 b ++ stuffFlag

/-- The payload of a stuffed sequence, after `run` consecutive 1 bits (R172): a 0 after five 1 bits is
skipped, a 1 there is kept and begins a new run. -/
def destuff (run : Nat) : List Bit → List Bit
  | [] => []
  | false :: bs => false :: destuff 0 bs
  | true :: bs =>
    if run + 1 = 5 then
      match bs with
      | false :: cs => true :: destuff 0 cs
      | cs => true :: destuff 0 cs
    else true :: destuff (run + 1) bs

/-- The payload of BST_DEC: 8 bits stripped at each end without a check, empty below 16 bits (R172). -/
def bstDecode (f : List Bit) : List Bit :=
  if f.length < 16 then [] else destuff 0 ((f.drop 8).take (f.length - 16))

/-- BST_ENC (R171); its frame has at least `16 + L` bits (R78). -/
def execBstEnc (s : State) : Result :=
  runBitsToBits s (fun l => 16 + l) fun b => plain (bstEncode b)

/-- BST_DEC (R172). -/
def execBstDec (s : State) : Result :=
  runBitsToBits s (fun _ => 0) fun f => plain (bstDecode f)

end Sys2Proof.Machine
end

