-- ==== Sys2Proof/Machine/Carrier.lean ====
section
/-! DEFINITION. The carrier modulator: ASK, FSK, QPSK and 16-QAM (41_carrier_modulator.md). -/

namespace Sys2Proof.Machine

/-! ## Carriers (R130) -/

/-- `theta(c, k, N)` in turns: `c · k / N` (R13). -/
def thetaTurn (c k n : Nat) : ℚ := ((c * k : Nat) : ℚ) / (n : ℚ)

/-- `sin(theta(c, k, N))`. -/
def carrierSin (c k n : Nat) : Sample := Sample.sinTurn (thetaTurn c k n)

/-- `cos(theta(c, k, N))`. -/
def carrierCos (c k n : Nat) : Sample := Sample.cosTurn (thetaTurn c k n)

/-- `Σ_{k} s[k] · ref(k)` over the samples of an interval. -/
def correlateWith (ref : Nat → Sample) (s : List Sample) : Sample :=
  Sample.sum (s.zipIdx.map fun x => x.1.mul (ref x.2))

/-- `x · x`. -/
def square (x : Sample) : Sample := x.mul x

/-! ## ASK -/

/-- The waveform of ASK_MOD (R132). -/
def askModulate (n c : Nat) (v : Sample) (b : List Bit) : List Sample :=
  b.flatMap fun x =>
    (List.range n).map fun k => if x then v.mul (carrierSin c k n) else Sample.zero

/-- The bits of ASK_DEM: the mean power of each interval against `V²/4`, 0 at the threshold (R133). -/
def askDemodulate (n : Nat) (v : Sample) (r : List Sample) : List Bit :=
  (intervals n r).map fun s => ((square v).scale (1 / 4)).lt (Sample.mean (s.map square))

/-- ASK_MOD (R132). -/
def execAskMod (s : State) : Result :=
  checkConfig s s.askOk <|
    runBitsToSamples s (fun l => l * s.spbN) fun b => plain (askModulate s.spbN s.cycA s.vpeak b)

/-- ASK_DEM; it neither reads nor checks ASK_CYC (R133, R35, conflict C7). -/
def execAskDem (s : State) : Result :=
  checkConfig s s.waveOk <|
    runSamplesToBits s (fun l => nInt l s.spbN) fun r => plain (askDemodulate s.spbN s.vpeak r)

/-! ## FSK -/

/-- The waveform of FSK_MOD (R134). -/
def fskModulate (n c1 c2 : Nat) (v : Sample) (b : List Bit) : List Sample :=
  b.flatMap fun x =>
    (List.range n).map fun k => v.mul (carrierSin (if x then c1 else c2) k n)

/-- `E(s, c)`: the energy of an interval on the carrier of `c` cycles (R135). -/
def carrierEnergy (n c : Nat) (s : List Sample) : Sample :=
  (square (correlateWith (fun k => carrierSin c k n) s)).add
    (square (correlateWith (fun k => carrierCos c k n) s))

/-- The bits of FSK_DEM: the carrier with the higher energy, 0 where they are equal (R135). -/
def fskDemodulate (n c1 c2 : Nat) (r : List Sample) : List Bit :=
  (intervals n r).map fun s => (carrierEnergy n c2 s).lt (carrierEnergy n c1 s)

/-- FSK_MOD (R134). -/
def execFskMod (s : State) : Result :=
  checkConfig s s.fskOk <|
    runBitsToSamples s (fun l => l * s.spbN) fun b =>
      plain (fskModulate s.spbN s.cyc1 s.cyc2 s.vpeak b)

/-- FSK_DEM (R135). -/
def execFskDem (s : State) : Result :=
  checkConfig s s.fskOk <|
    runSamplesToBits s (fun l => nInt l s.spbN) fun r =>
      plain (fskDemodulate s.spbN s.cyc1 s.cyc2 r)

/-! ## The I/Q carriers -/

/-- The `N` samples of one symbol: `I · cos + Q · sin` (R137, R141). -/
def iqSymbol (n c : Nat) (i q : Sample) : List Sample :=
  (List.range n).map fun k => (i.mul (carrierCos c k n)).add (q.mul (carrierSin c k n))

/-- The correlator's I value (R138).  For every accepted configuration `EI = N/2` (R138; N does not
divide `2 · cI`), so the division by the reference energy is the factor `2/N`. -/
def correlateI (n c : Nat) (s : List Sample) : Sample :=
  (correlateWith (fun k => carrierCos c k n) s).scale (2 / (n : ℚ))

/-- The correlator's Q value (R138); `EQ = N/2` likewise. -/
def correlateQ (n c : Nat) (s : List Sample) : Sample :=
  (correlateWith (fun k => carrierSin c k n) s).scale (2 / (n : ℚ))

/-! ## QPSK -/

/-- The amplitude pair `(I, Q)` of a QPSK symbol (R136). -/
def qpskMap (v : Sample) (b0 b1 : Bit) : Sample × Sample :=
  match b0, b1 with
  | false, false => (v, v)
  | false, true => (v.neg, v)
  | true, true => (v.neg, v.neg)
  | true, false => (v, v.neg)

/-- The waveform of QPSK_MOD (R137): the input padded to whole symbols of 2 bits (R131). -/
def qpskModulate (n c : Nat) (v : Sample) (b : List Bit) : List Sample :=
  (List.range ((padz b 2).length / 2)).flatMap fun j =>
    iqSymbol n c (qpskMap v (bitAt (padz b 2) (2 * j)) (bitAt (padz b 2) (2 * j + 1))).1
      (qpskMap v (bitAt (padz b 2) (2 * j)) (bitAt (padz b 2) (2 * j + 1))).2

/-- The bits of QPSK_DEM: the sign of each axis, 0 counting as positive (R139). -/
def qpskDemodulate (n c : Nat) (r : List Sample) : List Bit :=
  (intervals n r).flatMap fun s => [(correlateQ n c s).isNeg, (correlateI n c s).isNeg]

/-- The number of QPSK_MOD's output samples for `l` bits (R78). -/
def qpskLength (n l : Nat) : Nat := (l + 1) / 2 * n

/-- QPSK_MOD (R137). -/
def execQpskMod (s : State) : Result :=
  checkConfig s s.iqOk <|
    runBitsToSamples s (qpskLength s.spbN) fun b => plain (qpskModulate s.spbN s.cycI s.vpeak b)

/-- QPSK_DEM (R139). -/
def execQpskDem (s : State) : Result :=
  checkConfig s s.iqOk <|
    runSamplesToBits s (fun l => 2 * nInt l s.spbN) fun r => plain (qpskDemodulate s.spbN s.cycI r)

/-! ## 16-QAM -/

/-- `A3 = V/√2` (R140). -/
def levelA3 (v : Sample) : Sample := v.mul Sample.invSqrtTwo

/-- `A1 = V/(3√2)` (R140). -/
def levelA1 (v : Sample) : Sample := (v.mul Sample.invSqrtTwo).scale (1 / 3)

/-- The per-axis Gray map `G2` (R140). -/
def gray2 (v : Sample) (b0 b1 : Bit) : Sample :=
  match b0, b1 with
  | false, false => (levelA3 v).neg
  | false, true => (levelA1 v).neg
  | true, true => levelA1 v
  | true, false => levelA3 v

/-- The waveform of QAM16_MOD (R141): the input padded to whole symbols of 4 bits (R131). -/
def qam16Modulate (n c : Nat) (v : Sample) (b : List Bit) : List Sample :=
  (List.range ((padz b 4).length / 4)).flatMap fun j =>
    iqSymbol n c (gray2 v (bitAt (padz b 4) (4 * j)) (bitAt (padz b 4) (4 * j + 1)))
      (gray2 v (bitAt (padz b 4) (4 * j + 2)) (bitAt (padz b 4) (4 * j + 3)))

/-- The four levels and their bits, in ascending order (`LEVELS` of R142). -/
def qamLevels (v : Sample) : List (Sample × List Bit) :=
  [((levelA3 v).neg, [false, false]), ((levelA1 v).neg, [false, true]),
    (levelA1 v, [true, true]), (levelA3 v, [true, false])]

/-- The first of `best` and the entries of a list whose level is nearest to `x`: a later entry replaces
an earlier one only where it is strictly nearer. -/
def nearestOf (x : Sample) (best : Sample × List Bit) : List (Sample × List Bit) → Sample × List Bit
  | [] => best
  | e :: es =>
    nearestOf x (if (x.sub e.1).abs.lt (x.sub best.1).abs then e else best) es

/-- `nearest(x)` (R142): the bits of the level nearest to `x`, the lower level at a midpoint. -/
def nearestBits (v x : Sample) : List Bit :=
  (nearestOf x ((levelA3 v).neg, [false, false]) (qamLevels v)).2

/-- The bits of QAM16_DEM (R142). -/
def qam16Demodulate (n c : Nat) (v : Sample) (r : List Sample) : List Bit :=
  (intervals n r).flatMap fun s => nearestBits v (correlateI n c s) ++ nearestBits v (correlateQ n c s)

/-- The number of QAM16_MOD's output samples for `l` bits (R78). -/
def qam16Length (n l : Nat) : Nat := (l + 3) / 4 * n

/-- QAM16_MOD (R141). -/
def execQam16Mod (s : State) : Result :=
  checkConfig s s.iqOk <|
    runBitsToSamples s (qam16Length s.spbN) fun b => plain (qam16Modulate s.spbN s.cycI s.vpeak b)

/-- QAM16_DEM (R142). -/
def execQam16Dem (s : State) : Result :=
  checkConfig s s.iqOk <|
    runSamplesToBits s (fun l => 4 * nInt l s.spbN) fun r =>
      plain (qam16Demodulate s.spbN s.cycI s.vpeak r)

end Sys2Proof.Machine
end

