-- ==== Sys2Proof/Machine/Flags.lean ====
section
/-! DEFINITION. The STATUS register and its one flag, ERR (R24 to R27, R43). -/

namespace Sys2Proof.Machine

/-- The value of STATUS.CODE, bits 7:4 (R231). -/
def Code.value : Code → BitVec 4
  | .ok => 0
  | .illegalCmd => 1
  | .badConfig => 2
  | .inRange => 3
  | .outOverflow => 4

/-- The STATUS word: BUSY in bit 0, ERR in bit 1, bits 3:2 read 0, CODE in bits 7:4, bits 31:8 read 0
(R24). -/
def State.statusWord (s : State) : Word :=
  0#24 ++ (s.code.value ++ (0#2 ++ (BitVec.ofBool s.err ++ BitVec.ofBool s.busy)))

/-- ERR after CRC_CHK on a frame of 32 bits or more: the computed CRC differs from the trailer (R195). -/
def mismatch (crc trailer : Word) : Bool := crc != trailer

/-- ERR after CRC_CHK on a frame shorter than 32 bits (R195). -/
def shortFrame : Bool := true

end Sys2Proof.Machine
end

