-- ==== Sys2Proof/Machine/Crc32.lean ====
section
/-! DEFINITION. The CRC-32 generator and checker, register form (43_crc32.md; conflicts C1, C2). -/

namespace Sys2Proof.Machine

/-- The polynomial `G` with its implicit `x^32` term dropped (R190). -/
def crcPoly : Word := 0x04C11DB7#32

/-- One register step (R191). -/
def crcStep (r : Word) (x : Bit) : Word :=
  if Bool.xor (r.getLsbD 31) x then (r <<< 1) ^^^ crcPoly else r <<< 1

/-- The register after a bit sequence, from the register `r`. -/
def crcRun (r : Word) : List Bit → Word
  | [] => r
  | x :: xs => crcRun (crcStep r x) xs

/-- The CRC of a bit sequence (R192). -/
def crc32 (b : List Bit) : Word := crcRun 0xFFFFFFFF#32 b ^^^ 0xFFFFFFFF#32

/-- The trailer of a 32-bit value: bit 31 first (R193). -/
def crcTrailer (c : Word) : List Bit := (List.range 32).map fun j => c.getLsbD (31 - j)

/-- The number a bit sequence stands for, its first bit the most significant one. -/
def bitsValue (acc : Nat) : List Bit → Nat
  | [] => acc
  | x :: xs => bitsValue (2 * acc + x.toNat) xs

/-- The 32-bit value of a trailer (`word` of R193). -/
def trailerWord (t : List Bit) : Word := BitVec.ofNat 32 (bitsValue 0 t)

/-- The output and error flag of CRC_CHK (R195). -/
def crcCheck (f : List Bit) : Produced Bit :=
  if f.length < 32 then ⟨[], shortFrame, none⟩
  else
    ⟨f.take (f.length - 32),
      mismatch (crc32 (f.take (f.length - 32))) (trailerWord (f.drop (f.length - 32))), none⟩

/-- CRC_GEN (R194). -/
def execCrcGen (s : State) : Result :=
  runBitsToBits s (fun l => l + 32) fun b => plain (b ++ crcTrailer (crc32 b))

/-- CRC_CHK (R195). -/
def execCrcChk (s : State) : Result :=
  runBitsToBits s (fun l => l - 32) crcCheck

end Sys2Proof.Machine
end

