-- ==== Sys2Proof/Machine/Hamming.lean ====
section
/-! DEFINITION. The Hamming(7,4) encoder and decoder (44_hamming74.md). -/

namespace Sys2Proof.Machine

/-- The block of a data group: `p1 p2 d1 p3 d2 d3 d4` (R210, R211). -/
def hamEncBlock (d1 d2 d3 d4 : Bit) : List Bit :=
  [Bool.xor (Bool.xor d1 d2) d4, Bool.xor (Bool.xor d1 d3) d4, d1, Bool.xor (Bool.xor d2 d3) d4, d2, d3, d4]

/-- The bit at a position of a block; positions run from 1 (R210). -/
def blockBit (r : List Bit) (pos : Nat) : Bit := bitAt r (pos - 1)

/-- The xor of four positions of a block. -/
def parity4 (r : List Bit) (a b c d : Nat) : Bit :=
  Bool.xor (Bool.xor (blockBit r a) (blockBit r b)) (Bool.xor (blockBit r c) (blockBit r d))

/-- The syndrome `s1 + 2·s2 + 4·s3` (R213). -/
def hamSyndrome (r : List Bit) : Nat :=
  (parity4 r 1 3 5 7).toNat + 2 * (parity4 r 2 3 6 7).toNat + 4 * (parity4 r 4 5 6 7).toNat

/-- A block with the bit at a position (from 1) inverted; position 0 is none. -/
def flipPos (r : List Bit) (pos : Nat) : List Bit :=
  if pos = 0 then r else r.set (pos - 1) (!(blockBit r pos))

/-- The data group of a received block (R214). -/
def hamDecBlock (r : List Bit) : List Bit :=
  let c := flipPos r (hamSyndrome r)
  [blockBit c 3, blockBit c 5, blockBit c 6, blockBit c 7]

/-- The output of HAM_ENC: the input padded to whole groups of 4 bits (R212). -/
def hamEncode (b : List Bit) : List Bit :=
  (List.range ((padz b 4).length / 4)).flatMap fun j =>
    hamEncBlock (bitAt (padz b 4) (4 * j)) (bitAt (padz b 4) (4 * j + 1))
      (bitAt (padz b 4) (4 * j + 2)) (bitAt (padz b 4) (4 * j + 3))

/-- The output of HAM_DEC: the input padded to whole blocks of 7 bits (R215). -/
def hamDecode (c : List Bit) : List Bit :=
  (intervals 7 (padz c 7)).flatMap hamDecBlock

/-- HAM_ENC (R212). -/
def execHamEnc (s : State) : Result :=
  runBitsToBits s (fun l => 7 * ((l + 3) / 4)) fun b => plain (hamEncode b)

/-- HAM_DEC (R215). -/
def execHamDec (s : State) : Result :=
  runBitsToBits s (fun l => 4 * ((l + 6) / 7)) fun c => plain (hamDecode c)

end Sys2Proof.Machine
end

