-- ==== Sys2Proof/Machine/LineCoder.lean ====
section
/-! DEFINITION. The line coder: NRZ-Polar, Manchester and Bipolar-AMI (40_line_coder.md). -/

namespace Sys2Proof.Machine

/-! ## NRZ-Polar -/

/-- The waveform of NRZ_ENC (R101). -/
def nrzEncode (n : Nat) (v : Sample) (b : List Bit) : List Sample :=
  b.flatMap fun x => List.replicate n (if x then v else v.neg)

/-- The bits of NRZ_DEC: the sign of each interval's mean, 0 for a mean of 0 (R102). -/
def nrzDecode (n : Nat) (r : List Sample) : List Bit :=
  (intervals n r).map fun s => (Sample.mean s).isPos

/-- NRZ_ENC (R101). -/
def execNrzEnc (s : State) : Result :=
  checkConfig s s.waveOk <|
    runBitsToSamples s (fun l => l * s.spbN) fun b => plain (nrzEncode s.spbN s.vpeak b)

/-- NRZ_DEC (R102). -/
def execNrzDec (s : State) : Result :=
  checkConfig s s.waveOk <|
    runSamplesToBits s (fun l => nInt l s.spbN) fun r => plain (nrzDecode s.spbN r)

/-! ## Manchester -/

/-- The waveform of MAN_ENC: the first half has `div(N, 2)` samples (R103). -/
def manEncode (n : Nat) (v : Sample) (b : List Bit) : List Sample :=
  b.flatMap fun x =>
    List.replicate (n / 2) (if x then v else v.neg) ++
      List.replicate (n - n / 2) (if x then v.neg else v)

/-- The bits of MAN_DEC: the means of the two halves compared, 0 where they are equal (R104). -/
def manDecode (n : Nat) (r : List Sample) : List Bit :=
  (intervals n r).map fun s => (Sample.mean (s.drop (n / 2))).lt (Sample.mean (s.take (n / 2)))

/-- MAN_ENC (R103). -/
def execManEnc (s : State) : Result :=
  checkConfig s s.waveOk <|
    runBitsToSamples s (fun l => l * s.spbN) fun b => plain (manEncode s.spbN s.vpeak b)

/-- MAN_DEC (R104). -/
def execManDec (s : State) : Result :=
  checkConfig s s.waveOk <|
    runSamplesToBits s (fun l => nInt l s.spbN) fun r => plain (manDecode s.spbN r)

/-! ## Bipolar-AMI -/

/-- The waveform of AMI_ENC from polarity `p`, and the polarity after it (R105). -/
def amiEncode (n : Nat) (v : Sample) (p : Bool) : List Bit → List Sample × Bool
  | [] => ([], p)
  | false :: bs =>
    (List.replicate n Sample.zero ++ (amiEncode n v p bs).1, (amiEncode n v p bs).2)
  | true :: bs =>
    (List.replicate n (if p then v else v.neg) ++ (amiEncode n v (!p) bs).1,
      (amiEncode n v (!p) bs).2)

/-- The bits of AMI_DEC: 0 where the size of the mean is below `0.4 · V`, else 1 (R106, R108). -/
def amiDecode (n : Nat) (v : Sample) (r : List Sample) : List Bit :=
  (intervals n r).map fun s => !((Sample.mean s).abs.lt (v.scale (2 / 5)))

/-- AMI_ENC (R105). -/
def execAmiEnc (s : State) : Result :=
  checkConfig s s.waveOk <|
    runBitsToSamples s (fun l => l * s.spbN) fun b =>
      ⟨(amiEncode s.spbN s.vpeak s.amiPol b).1, false, some (amiEncode s.spbN s.vpeak s.amiPol b).2⟩

/-- AMI_DEC (R106). -/
def execAmiDec (s : State) : Result :=
  checkConfig s s.waveOk <|
    runSamplesToBits s (fun l => nInt l s.spbN) fun r => plain (amiDecode s.spbN s.vpeak r)

/-- AMI_RST: POL becomes 1; no check but the word's (R107). -/
def execAmiRst (s : State) : Result :=
  .next ((s.setPol (some true)).accept false)

end Sys2Proof.Machine
end

