-- ==== Sys2Proof/Machine/Dispatch.lean ====
section
/-! DEFINITION. One arm per command: the execution cycle of R77 from the known command on. -/

namespace Sys2Proof.Machine

def exec (i : Instr) (s : State) : Host.Outcome State Fault Refusal :=
  match i with
  | .nrzEnc => Sys2Proof.Machine.execNrzEnc s
  | .nrzDec => Sys2Proof.Machine.execNrzDec s
  | .manEnc => Sys2Proof.Machine.execManEnc s
  | .manDec => Sys2Proof.Machine.execManDec s
  | .amiEnc => Sys2Proof.Machine.execAmiEnc s
  | .amiDec => Sys2Proof.Machine.execAmiDec s
  | .amiRst => Sys2Proof.Machine.execAmiRst s
  | .askMod => Sys2Proof.Machine.execAskMod s
  | .askDem => Sys2Proof.Machine.execAskDem s
  | .fskMod => Sys2Proof.Machine.execFskMod s
  | .fskDem => Sys2Proof.Machine.execFskDem s
  | .qpskMod => Sys2Proof.Machine.execQpskMod s
  | .qpskDem => Sys2Proof.Machine.execQpskDem s
  | .qam16Mod => Sys2Proof.Machine.execQam16Mod s
  | .qam16Dem => Sys2Proof.Machine.execQam16Dem s
  | .bstEnc => Sys2Proof.Machine.execBstEnc s
  | .bstDec => Sys2Proof.Machine.execBstDec s
  | .crcGen => Sys2Proof.Machine.execCrcGen s
  | .crcChk => Sys2Proof.Machine.execCrcChk s
  | .hamEnc => Sys2Proof.Machine.execHamEnc s
  | .hamDec => Sys2Proof.Machine.execHamDec s

end Sys2Proof.Machine
end

