-- ==== Sys2Proof/WellFormed.lean ====
section
/-! DEFINITION. Well-formed commands and command words (R70 to R74). -/

namespace Sys2Proof

/-- A command has no operand field (R72), so every command of the syntax is well formed. -/
def Instr.wellFormed : Instr → Bool
  | .nrzEnc | .nrzDec | .manEnc | .manDec | .amiEnc | .amiDec | .amiRst
  | .askMod | .askDem | .fskMod | .fskDem | .qpskMod | .qpskDem | .qam16Mod | .qam16Dem
  | .bstEnc | .bstDec | .crcGen | .crcChk | .hamEnc | .hamDec => true

/-- RSV, bits 31:8 of a command word (R70). -/
def rsvField (w : Word) : BitVec 24 := w.extractLsb' 8 24

/-- FAM, bits 7:4 of a command word (R70). -/
def famField (w : Word) : BitVec 4 := w.extractLsb' 4 4

/-- FN, bits 3:0 of a command word (R70). -/
def fnField (w : Word) : BitVec 4 := w.extractLsb' 0 4

/-- The number of functions of each family: functions 0 up to it exist (R71, R73). -/
def familySize (fam : BitVec 4) : Nat :=
  match fam.toNat with
  | 1 => 7
  | 2 => 8
  | 3 => 2
  | 4 => 2
  | 5 => 2
  | _ => 0

/-- The reserved bits are 0 (R70, R74). -/
def rsvOk (w : Word) : Bool := rsvField w = 0

/-- The family holds commands (R71). -/
def famOk (w : Word) : Bool := 0 < familySize (famField w)

/-- The family holds this function (R73, R74). -/
def fnOk (w : Word) : Bool := (fnField w).toNat < familySize (famField w)

/-- A legal command word (R74). -/
def wordWellFormed (w : Word) : Bool := rsvOk w && famOk w && fnOk w

end Sys2Proof
end

