-- ==== Sys2Proof/Decode.lean ====
section
/-! DEFINITION. The command decoder, total on every 32-bit word, and the encoder (R70 to R75, R81). -/

namespace Sys2Proof

/-- Why a word is no command (R74); each of them is answered with ILLEGAL_CMD (R231). -/
inductive DecodeError where
  /-- bits 31:8 are not 0 -/
  | reservedNotZero
  /-- family 0 or 6 to 15 -/
  | unknownFamily
  /-- a family of R71 without this function -/
  | unknownFunction
  deriving DecidableEq, Repr, Inhabited

/-- The line coder's functions (FAM = 1, R73). -/
def decodeLineCoder (fn : Nat) : Except DecodeError Instr :=
  match fn with
  | 0 => .ok .nrzEnc
  | 1 => .ok .nrzDec
  | 2 => .ok .manEnc
  | 3 => .ok .manDec
  | 4 => .ok .amiEnc
  | 5 => .ok .amiDec
  | 6 => .ok .amiRst
  | _ => .error .unknownFunction

/-- The carrier modulator's functions (FAM = 2, R73). -/
def decodeCarrier (fn : Nat) : Except DecodeError Instr :=
  match fn with
  | 0 => .ok .askMod
  | 1 => .ok .askDem
  | 2 => .ok .fskMod
  | 3 => .ok .fskDem
  | 4 => .ok .qpskMod
  | 5 => .ok .qpskDem
  | 6 => .ok .qam16Mod
  | 7 => .ok .qam16Dem
  | _ => .error .unknownFunction

/-- The bit-stuffing functions (FAM = 3, R73). -/
def decodeBitStuffing (fn : Nat) : Except DecodeError Instr :=
  match fn with
  | 0 => .ok .bstEnc
  | 1 => .ok .bstDec
  | _ => .error .unknownFunction

/-- The CRC-32 functions (FAM = 4, R73). -/
def decodeCrc (fn : Nat) : Except DecodeError Instr :=
  match fn with
  | 0 => .ok .crcGen
  | 1 => .ok .crcChk
  | _ => .error .unknownFunction

/-- The Hamming(7,4) functions (FAM = 5, R73). -/
def decodeHamming (fn : Nat) : Except DecodeError Instr :=
  match fn with
  | 0 => .ok .hamEnc
  | 1 => .ok .hamDec
  | _ => .error .unknownFunction

/-- The command a word selects (R70, R71, R73), or why there is none (R74). -/
def decode (w : Word) : Except DecodeError Instr :=
  if rsvField w = 0 then
    match (famField w).toNat with
    | 1 => decodeLineCoder (fnField w).toNat
    | 2 => decodeCarrier (fnField w).toNat
    | 3 => decodeBitStuffing (fnField w).toNat
    | 4 => decodeCrc (fnField w).toNat
    | 5 => decodeHamming (fnField w).toNat
    | _ => .error .unknownFamily
  else .error .reservedNotZero

/-- The one word that selects a command (R73). -/
def encode : Instr → Word
  | .nrzEnc => 0x00000010#32
  | .nrzDec => 0x00000011#32
  | .manEnc => 0x00000012#32
  | .manDec => 0x00000013#32
  | .amiEnc => 0x00000014#32
  | .amiDec => 0x00000015#32
  | .amiRst => 0x00000016#32
  | .askMod => 0x00000020#32
  | .askDem => 0x00000021#32
  | .fskMod => 0x00000022#32
  | .fskDem => 0x00000023#32
  | .qpskMod => 0x00000024#32
  | .qpskDem => 0x00000025#32
  | .qam16Mod => 0x00000026#32
  | .qam16Dem => 0x00000027#32
  | .bstEnc => 0x00000030#32
  | .bstDec => 0x00000031#32
  | .crcGen => 0x00000040#32
  | .crcChk => 0x00000041#32
  | .hamEnc => 0x00000050#32
  | .hamDec => 0x00000051#32

/-- The command word that `nbits` bits `w` of the opcode table stand for, the bits above them 0; none
where they do not fit the one 32-bit format (R70). -/
def commandWord (nbits w : Nat) : Option Word :=
  if w % 2 ^ nbits < 2 ^ 32 then some (BitVec.ofNat 32 (w % 2 ^ nbits)) else none

/-- The command the decoder reads from a row of the opcode table. -/
def decodeTableWord (nbits w : Nat) : Option Instr :=
  match commandWord nbits w with
  | none => none
  | some x =>
    match decode x with
    | .ok i => some i
    | .error _ => none

/-! ## Registers by offset -/

/-- The register at a word offset (byte offset `4 * off`), none where it is reserved (R22, R40). -/
def Reg.ofOffset (off : Nat) : Option Reg :=
  match off with
  | 0 => some .cmd
  | 1 => some .status
  | 2 => some .inBlen
  | 3 => some .inSlen
  | 4 => some .outBlen
  | 5 => some .outSlen
  | 6 => some .spb
  | 7 => some .vpeak
  | 8 => some .fs
  | 9 => some .askCyc
  | 10 => some .fskCyc1
  | 11 => some .fskCyc2
  | 12 => some .iqCyc
  | 13 => some .amiState
  | _ => none

/-- A register's word offset (R22). -/
def Reg.offset : Reg → Nat
  | .cmd => 0
  | .status => 1
  | .inBlen => 2
  | .inSlen => 3
  | .outBlen => 4
  | .outSlen => 5
  | .spb => 6
  | .vpeak => 7
  | .fs => 8
  | .askCyc => 9
  | .fskCyc1 => 10
  | .fskCyc2 => 11
  | .iqCyc => 12
  | .amiState => 13

end Sys2Proof
end

