-- ==== Sys2Proof/Machine/HostPort.lean ====
section
/-! DEFINITION. The host port: what each access of R79 and R80 does, while the block is idle and while
it is busy (R22 to R40, R50 to R62, R238), and the host's turn. -/

namespace Sys2Proof.Machine

/-! ## Data on the port -/

/-- A datum as a 32-bit register word; a real number stands for its SAMPLE_FMT encoding (R79). -/
def portWord : HostData → Word
  | .word w => w
  | .octet v => v.setWidth 32
  | .sample x => Config.wordOfSample x

/-- A datum as the sample a sample-format register holds (R33, R34, R79). -/
def portSample : HostData → Sample
  | .word w => Config.sampleOfWord w
  | .octet v => Config.sampleOfWord (v.setWidth 32)
  | .sample x => x

/-- The host has read a datum. -/
def State.received (s : State) (d : HostData) : State := { s with rx := d :: s.rx }

/-- A free value has been taken. -/
def State.tookFree (s : State) : State := { s with tick := s.tick + 1 }

/-! ## Registers (R22 to R40) -/

/-- What a read of a register gives (R22, R23, R24, R28 to R39); reserved bits read 0 (R40). -/
def State.readReg (s : State) : Reg → HostData
  | .cmd => .word 0
  | .status => .word s.statusWord
  | .inBlen => .word s.inBlen
  | .inSlen => .word s.inSlen
  | .outBlen => .word s.outBlen
  | .outSlen => .word s.outSlen
  | .spb => .word s.spb
  | .vpeak => .sample s.vpeak
  | .fs => .sample s.fs
  | .askCyc => .word (s.askCyc.setWidth 32)
  | .fskCyc1 => .word (s.fskCyc1.setWidth 32)
  | .fskCyc2 => .word (s.fskCyc2.setWidth 32)
  | .iqCyc => .word (s.iqCyc.setWidth 32)
  | .amiState => .word ((BitVec.ofBool s.amiPol).setWidth 32)

/-- What a write to a register does while the block is idle (R22, R23, R45): RO registers ignore it,
reserved bits are dropped (R40), a write to CMD starts a command. -/
def State.writeReg (s : State) (r : Reg) (v : HostData) : State :=
  match r with
  | .cmd => s.startCommand (portWord v)
  | .status => s
  | .inBlen => { s with inBlen := portWord v }
  | .inSlen => { s with inSlen := portWord v }
  | .outBlen => s
  | .outSlen => s
  | .spb => { s with spb := portWord v }
  | .vpeak => { s with vpeak := portSample v }
  | .fs => { s with fs := portSample v }
  | .askCyc => { s with askCyc := (portWord v).setWidth 16 }
  | .fskCyc1 => { s with fskCyc1 := (portWord v).setWidth 16 }
  | .fskCyc2 => { s with fskCyc2 := (portWord v).setWidth 16 }
  | .iqCyc => { s with iqCyc := (portWord v).setWidth 16 }
  | .amiState => { s with amiPol := (portWord v).getLsbD 0 }

/-- An unspecified read of a register: any value of its kind (R238, U6). -/
def freeRegData (tick : Nat) : Option Reg → HostData
  | some .vpeak => .sample (Config.freeSample tick)
  | some .fs => .sample (Config.freeSample tick)
  | _ => .word (Config.freeWord tick)

/-- `rd` (R22, R40, R238): STATUS at any time; while the block is busy every other read is free; a
reserved offset reads 0. -/
def State.rdData (s : State) (off : Nat) : HostData :=
  match Reg.ofOffset off with
  | some .status => .word s.statusWord
  | some r => if s.busy then freeRegData s.tick (some r) else s.readReg r
  | none => if s.busy then freeRegData s.tick none else .word 0

/-- `rd`: the host receives the datum. -/
def State.doRd (s : State) (off : Nat) : State := (s.received (s.rdData off)).tookFree

/-- `wr` (R22, R40, R238): ignored while the block is busy and at a reserved offset. -/
def State.doWr (s : State) (off : Nat) (v : HostData) : State :=
  if s.busy then s
  else
    match Reg.ofOffset off with
    | some r => s.writeReg r v
    | none => s

/-! ## Bit buffers by octet (R53, R56) -/

/-- The bit a bit buffer shows at an index: none where it is unspecified, that is beyond the capacity,
not written, or, in OUT_BITS, at or beyond OUT_BLEN (R54, R56). -/
def State.bitOf (s : State) (sp : BitSpace) (i : Nat) : Option Bit :=
  match sp with
  | .inBits => if i < s.params.maxBits then s.inBits.read i else none
  | .outBits => if i < s.params.maxBits ∧ i < s.outBlen.toNat then s.outBits.read i else none

/-- Octet `j` of a bit buffer: bit `7 - t` of the octet is the bit of index `8j + t` (R53), free where
that bit is unspecified (R54, R56, U1, U2, U4). -/
def State.octetOf (s : State) (sp : BitSpace) (j : Nat) : Octet :=
  BitVec.ofBoolListBE ((List.range 8).map fun t =>
    (s.bitOf sp (8 * j + t)).getD ((Config.freeOctet s.tick).getLsbD (7 - t)))

/-- `rb`: free while the block is busy (R238, U6). -/
def State.doRb (s : State) (sp : BitSpace) (j : Nat) : State :=
  (s.received (.octet (if s.busy then Config.freeOctet s.tick else s.octetOf sp j))).tookFree

/-- Write octet `j` into bits: index `8j + t` takes bit `7 - t` of the octet, for `t` from `8 - n` to 7;
an index at or beyond the capacity is ignored (R53, R56). -/
def writeOctet (cap j : Nat) (v : Octet) : Nat → Buf Bit → Buf Bit
  | 0, b => b
  | n + 1, b =>
    writeOctet cap j v n
      (if 8 * j + (7 - n) < cap then b.write (8 * j + (7 - n)) (v.getLsbD n) else b)

/-- `wb`: writes to OUT_BITS are ignored (R50), and so is every write while the block is busy (R238). -/
def State.doWb (s : State) (sp : BitSpace) (j : Nat) (v : Octet) : State :=
  if s.busy then s
  else
    match sp with
    | .inBits => { s with inBits := writeOctet s.params.maxBits j v 8 s.inBits }
    | .outBits => s

/-! ## Sample buffers (R55, R56) -/

/-- The sample a sample buffer shows at an index; none where it is unspecified (R56). -/
def State.sampOf (s : State) (sp : SampSpace) (i : Nat) : Option Sample :=
  match sp with
  | .inSamp => if i < s.params.maxSamples then s.inSamp.read i else none
  | .outSamp => if i < s.params.maxSamples ∧ i < s.outSlen.toNat then s.outSamp.read i else none

/-- `rs`: free where the sample is unspecified and while the block is busy (R56, R238). -/
def State.doRs (s : State) (sp : SampSpace) (i : Nat) : State :=
  (s.received (.sample
    (if s.busy then Config.freeSample s.tick
     else (s.sampOf sp i).getD (Config.freeSample s.tick)))).tookFree

/-- `ws`: ignored at or beyond the capacity (R56), in OUT_SAMP (R50) and while the block is busy
(R238). -/
def State.doWs (s : State) (sp : SampSpace) (i : Nat) (x : Sample) : State :=
  if s.busy then s
  else
    match sp with
    | .inSamp => if i < s.params.maxSamples then { s with inSamp := s.inSamp.write i x } else s
    | .outSamp => s

/-! ## The pseudo-accesses of R80 -/

/-- `wb S[j]` with the octet the host has read last (R80, `mvb`). -/
def State.doWbLast (s : State) (sp : BitSpace) (j : Nat) : State :=
  match s.rx with
  | .octet v :: _ => s.doWb sp j v
  | _ => s

/-- `ws S[i]` with the sample the host has read last (R80, `mvs`). -/
def State.doWsLast (s : State) (sp : SampSpace) (i : Nat) : State :=
  match s.rx with
  | .sample x :: _ => s.doWs sp i x
  | _ => s

/-- `wait`: read STATUS, and again until BUSY reads 0 (R80). -/
def State.doWait (s : State) : State :=
  if s.busy then { s.doRd 1 with host := .wait :: s.host } else s.doRd 1

/-- The accesses of `mvb` once the host has read `n` from OUT_BLEN (R80). -/
def mvbBody (n : Word) : List Access :=
  ((List.range ((n.toNat + 7) / 8)).flatMap fun j => [.rb .outBits j, .wbLast .inBits j]) ++
    [.wr 2 (.word n)]

/-- The accesses of `mvs` once the host has read `n` from OUT_SLEN (R80). -/
def mvsBody (n : Word) : List Access :=
  ((List.range n.toNat).flatMap fun i => [.rs .outSamp i, .wsLast .inSamp i]) ++ [.wr 3 (.word n)]

/-- `mvb`: read OUT_BLEN, then the copies (R80). -/
def State.doMvb (s : State) : State :=
  { s.doRd 4 with host := mvbBody (portWord (s.rdData 4)) ++ s.host }

/-- `mvs`: read OUT_SLEN, then the copies (R80). -/
def State.doMvs (s : State) : State :=
  { s.doRd 5 with host := mvsBody (portWord (s.rdData 5)) ++ s.host }

/-! ## The host's turn -/

/-- What one access does (R79, R80, R260). -/
def State.perform (s : State) : Access → State
  | .wr off v => s.doWr off v
  | .rd off => s.doRd off
  | .wb sp j v => s.doWb sp j v
  | .rb sp j => s.doRb sp j
  | .ws sp i x => s.doWs sp i x
  | .rs sp i => s.doRs sp i
  | .wbLast sp j => s.doWbLast sp j
  | .wsLast sp i => s.doWsLast sp i
  | .wait => s.doWait
  | .mvb => s.doMvb
  | .mvs => s.doMvs
  | .reset => s.resetBlock

/-- The host does its next access, if it has one (R62: in the order it issues them); one turn of a
running command's latency passes (R270). -/
def State.hostTurn (s : State) : State :=
  match s.host with
  | [] => s.countDown
  | a :: rest => ({ s.countDown with host := rest } : State).perform a

/-! ## Host scripts (R80) -/

/-- `cmd MNEMONIC`. -/
def scriptCmd (i : Instr) : List Access := [.wr 0 (.word (encode i)), .wait]

/-- The octet of the bits `8j` to `8j + 7` of a sequence, missing bits 0. -/
def packOctet (b : List Bit) (j : Nat) : Octet :=
  BitVec.ofBoolListBE ((List.range 8).map fun t => b.getD (8 * j + t) false)

/-- `ldbits`.  DESIGN CHOICE: for `2^32` bits or more, for which R80 gives no expansion since `wr` carries a
32-bit word (R79), the length written is the number of bits modulo `2^32` (assumption 11). -/
def scriptLdbits (b : List Bit) : List Access :=
  ((List.range ((b.length + 7) / 8)).map fun j => .wb .inBits j (packOctet b j)) ++
    [.wr 2 (.word (BitVec.ofNat 32 b.length))]

/-- `ldsamp`.  DESIGN CHOICE: for `2^32` samples or more, for which R80 gives no expansion since `wr` carries
a 32-bit word (R79), the length written is the number of samples modulo `2^32` (assumption 11). -/
def scriptLdsamp (xs : List Sample) : List Access :=
  (xs.zipIdx.map fun x => .ws .inSamp x.2 x.1) ++ [.wr 3 (.word (BitVec.ofNat 32 xs.length))]

end Sys2Proof.Machine
end

