-- ==== Sys2Proof/Machine/Step.lean ====
section
/-! DEFINITION. One step of the machine: the block runs the command whose latency has passed, or the
host takes its turn. -/

namespace Sys2Proof.Machine

/-- One step.  A command in progress whose latency has passed is decoded and run (R77), an illegal word
being rejected with ILLEGAL_CMD (R74); otherwise the host takes its turn. -/
def step (s : State) : Host.Outcome State Fault Refusal :=
  match s.fetchCommand with
  | some w =>
    match decode w with
    | .ok i => exec i s
    | .error _ => .next (s.reject .illegalCmd)
  | none => .next s.hostTurn

/-- `s` with the command word that `nbits` bits `w` stand for written to CMD and its latency passed, so
that the very next step runs it (assumption 5). -/
def State.withFetchWord (s : State) (nbits w : Nat) : State :=
  match commandWord nbits w with
  | some x => s.withCommand x
  | none => s

end Sys2Proof.Machine
end

