-- ==== Sys2Proof/Machine/SampleValue.lean ====
section
/-! DEFINITION. The real number that a sample is.  The machine never calls this file; statements over
exact reals (R10: a model states its claims over exact reals) are written with it. -/

namespace Sys2Proof

/-- The real numbers whose signs a choice of named reals gives; 0 where it gives none. -/
noncomputable def Config.NamedReals.real (r : Config.NamedReals) : ℕ → ℝ :=
  open Classical in
  if h : ∃ v : ℕ → ℝ, ∀ x, r.sign? x = some (SignType.sign (x.valueWith v)) then h.choose else 0

/-- The real number that the name `n` stands for. -/
noncomputable def namedReal (n : ℕ) : ℝ := Config.namedReals.real n

/-- The real number a summand is. -/
noncomputable def Term.toReal (t : Term) : ℝ := t.valueWith namedReal

/-- The real number a sample is: the sum of its terms (R10). -/
noncomputable def Sample.toReal (x : Sample) : ℝ := (x.terms.map Term.toReal).sum

end Sys2Proof
end

