-- ==== Sys2Proof/Safety.lean ====
section
/-! DEFINITION. The terms statements about the machine are written in: loaded inputs, legal
configurations, what an accepted command leaves, the rules of the codings over exact reals (R10), and
the invariant of the machine. -/

namespace Sys2Proof.Machine

/-! ## Inputs and outputs -/

/-- `inBits()` is the sequence `b`: IN_BLEN is its length, within the capacity, and its elements are
written (R12, R56). -/
def BitsLoaded (s : State) (b : List Bit) : Prop :=
  b.length = s.inBlen.toNat ∧ b.length ≤ s.params.maxBits ∧
    ∀ i, i < b.length → s.inBits.read i = some (bitAt b i)

/-- `inSamp()` is the waveform `r` (R12, R56). -/
def SampLoaded (s : State) (r : List Sample) : Prop :=
  r.length = s.inSlen.toNat ∧ r.length ≤ s.params.maxSamples ∧
    ∀ i, i < r.length → s.inSamp.read i = some (r.getD i Sample.zero)

/-- Sample `j` of a waveform, as a real number. -/
noncomputable def sampleAt (r : List Sample) (j : Nat) : ℝ := (r.getD j Sample.zero).toReal

/-- `t` is `s` after an accepted command that put `len` samples, the reals `w 0` to `w (len - 1)`, into
OUT_SAMP and left the polarity `pol`: nothing else has changed but STATUS (R57, R77). -/
def SamplesOut (s t : State) (len : Nat) (pol : Bool) (w : Nat → ℝ) : Prop :=
  t = { s with
    outSamp := t.outSamp
    outSlen := t.outSlen
    amiPol := pol
    err := false
    code := .ok
    inflight := none } ∧
  (len < 2 ^ 32 → t.outSlen.toNat = len) ∧
  (∀ j, j < len → ∃ x, t.outSamp.read j = some x ∧ x.toReal = w j) ∧
  ∀ j, len ≤ j → t.outSamp.read j = s.outSamp.read j

/-- `t` is `s` after an accepted command that put `len` bits into OUT_BITS, bit `j` being 1 exactly when
`one j`, and wrote `err` to ERR: nothing else has changed but STATUS (R57, R77). -/
def BitsOut (s t : State) (len : Nat) (err : Bool) (one : Nat → Prop) : Prop :=
  t = { s with
    outBits := t.outBits
    outBlen := t.outBlen
    err := err
    code := .ok
    inflight := none } ∧
  (len < 2 ^ 32 → t.outBlen.toNat = len) ∧
  (∀ j, j < len → ∃ x, t.outBits.read j = some x ∧ (x = true ↔ one j)) ∧
  ∀ j, len ≤ j → t.outBits.read j = s.outBits.read j

/-! ## Acceptance (R232) -/

/-- The table of R232. -/
def ConfigOk (i : Instr) (s : State) : Prop :=
  match i with
  | .nrzEnc | .nrzDec | .manEnc | .manDec | .amiEnc | .amiDec | .askDem =>
    4 ≤ s.spb.toNat ∧ 0 < s.vpeak.toReal
  | .askMod => 4 ≤ s.spb.toNat ∧ 0 < s.vpeak.toReal ∧ 1 ≤ s.askCyc.toNat
  | .fskMod | .fskDem =>
    4 ≤ s.spb.toNat ∧ 0 < s.vpeak.toReal ∧ 1 ≤ s.fskCyc1.toNat ∧ 1 ≤ s.fskCyc2.toNat
  | .qpskMod | .qpskDem | .qam16Mod | .qam16Dem =>
    4 ≤ s.spb.toNat ∧ 0 < s.vpeak.toReal ∧ 1 ≤ s.iqCyc.toNat ∧
      ¬ s.spb.toNat ∣ 2 * s.iqCyc.toNat
  | .amiRst | .bstEnc | .bstDec | .crcGen | .crcChk | .hamEnc | .hamDec => True

/-- The command reads IN_BITS (R76). -/
def bitInput : Instr → Bool
  | .nrzEnc | .manEnc | .amiEnc | .askMod | .fskMod | .qpskMod | .qam16Mod
  | .bstEnc | .bstDec | .crcGen | .crcChk | .hamEnc | .hamDec => true
  | .nrzDec | .manDec | .amiDec | .askDem | .fskDem | .qpskDem | .qam16Dem | .amiRst => false

/-- The command reads IN_SAMP (R76). -/
def sampleInput : Instr → Bool
  | .nrzDec | .manDec | .amiDec | .askDem | .fskDem | .qpskDem | .qam16Dem => true
  | .nrzEnc | .manEnc | .amiEnc | .askMod | .fskMod | .qpskMod | .qam16Mod
  | .bstEnc | .bstDec | .crcGen | .crcChk | .hamEnc | .hamDec | .amiRst => false

/-- The command writes OUT_BITS (R76). -/
def bitOutput : Instr → Bool
  | .nrzDec | .manDec | .amiDec | .askDem | .fskDem | .qpskDem | .qam16Dem
  | .bstEnc | .bstDec | .crcGen | .crcChk | .hamEnc | .hamDec => true
  | .nrzEnc | .manEnc | .amiEnc | .askMod | .fskMod | .qpskMod | .qam16Mod | .amiRst => false

/-- The command writes OUT_SAMP (R76). -/
def sampleOutput : Instr → Bool
  | .nrzEnc | .manEnc | .amiEnc | .askMod | .fskMod | .qpskMod | .qam16Mod => true
  | .nrzDec | .manDec | .amiDec | .askDem | .fskDem | .qpskDem | .qam16Dem
  | .bstEnc | .bstDec | .crcGen | .crcChk | .hamEnc | .hamDec | .amiRst => false

/-- The output length of R78, for the input length that the state holds.  That of BST_ENC is the least one,
`16 + L`, since the rest depends on the bits; BST_DEC has no least length above 0 (assumption 6). -/
def leastOutput (i : Instr) (s : State) : Nat :=
  match i with
  | .nrzEnc | .manEnc | .amiEnc | .askMod | .fskMod => s.inBlen.toNat * s.spb.toNat
  | .nrzDec | .manDec | .amiDec | .askDem | .fskDem => s.inSlen.toNat / s.spb.toNat
  | .qpskMod => (s.inBlen.toNat + 1) / 2 * s.spb.toNat
  | .qpskDem => 2 * (s.inSlen.toNat / s.spb.toNat)
  | .qam16Mod => (s.inBlen.toNat + 3) / 4 * s.spb.toNat
  | .qam16Dem => 4 * (s.inSlen.toNat / s.spb.toNat)
  | .bstEnc => 16 + s.inBlen.toNat
  | .crcGen => s.inBlen.toNat + 32
  | .crcChk => s.inBlen.toNat - 32
  | .hamEnc => 7 * ((s.inBlen.toNat + 3) / 4)
  | .hamDec => 4 * ((s.inBlen.toNat + 6) / 7)
  | .amiRst | .bstDec => 0

/-- The capacity of the buffer the command's output goes to (R50, R76). -/
def outputCapacity (i : Instr) (s : State) : Nat :=
  if sampleOutput i = true then s.params.maxSamples else s.params.maxBits

/-- The whole cycle of a command from bits to samples (R77, R232 to R234): the three rejections in
their order, and otherwise `len` samples with the reals that `w` gives. -/
def SampleCycle (i : Instr) (s : State) (len : Nat) (pol : List Bit → Bool)
    (w : List Bit → Nat → ℝ) : Prop :=
  (¬ ConfigOk i s → exec i s = .next { s with code := .badConfig, inflight := none }) ∧
  (ConfigOk i s → s.params.maxBits < s.inBlen.toNat →
    exec i s = .next { s with code := .inRange, inflight := none }) ∧
  (ConfigOk i s → s.inBlen.toNat ≤ s.params.maxBits → s.params.maxSamples < len →
    exec i s = .next { s with code := .outOverflow, inflight := none }) ∧
  ∀ b, ConfigOk i s → BitsLoaded s b → len ≤ s.params.maxSamples →
    ∃ t, exec i s = .next t ∧ SamplesOut s t len (pol b) (w b)

/-- The whole cycle of a command from samples to bits (R77, R232 to R234): the three rejections in
their order, and otherwise `len` bits, bit `j` being 1 exactly when `one` says so of the input's
reals. -/
def DecisionCycle (i : Instr) (s : State) (len : Nat) (one : (Nat → ℝ) → Nat → Prop) : Prop :=
  (¬ ConfigOk i s → exec i s = .next { s with code := .badConfig, inflight := none }) ∧
  (ConfigOk i s → s.params.maxSamples < s.inSlen.toNat →
    exec i s = .next { s with code := .inRange, inflight := none }) ∧
  (ConfigOk i s → s.inSlen.toNat ≤ s.params.maxSamples → s.params.maxBits < len →
    exec i s = .next { s with code := .outOverflow, inflight := none }) ∧
  ∀ r, ConfigOk i s → SampLoaded s r → len ≤ s.params.maxBits →
    ∃ t, exec i s = .next t ∧ BitsOut s t len false (one (sampleAt r))

/-- The whole cycle of a command from bits to bits whose output length `len` follows from the input length
alone (R77, R78, R234): the two rejections in their order, before anything is read (R52), and otherwise
the output `out` and the error flag `err`. -/
def FixedBitCycle (i : Instr) (s : State) (len : Nat) (out : List Bit → List Bit)
    (err : List Bit → Bool) : Prop :=
  (s.params.maxBits < s.inBlen.toNat →
    exec i s = .next { s with code := .inRange, inflight := none }) ∧
  (s.inBlen.toNat ≤ s.params.maxBits → s.params.maxBits < len →
    exec i s = .next { s with code := .outOverflow, inflight := none }) ∧
  ∀ b, BitsLoaded s b → len ≤ s.params.maxBits →
    (out b).length = len ∧ ∃ t, exec i s = .next t ∧
      BitsOut s t len (err b) fun j => bitAt (out b) j = true

/-- The whole cycle of a command from bits to bits whose output length depends on the bits (R77, R78,
R234): the two rejections in their order, and otherwise the output `out` and the error flag `err`. -/
def BitCycle (i : Instr) (s : State) (out : List Bit → List Bit) (err : List Bit → Bool) : Prop :=
  (s.params.maxBits < s.inBlen.toNat →
    exec i s = .next { s with code := .inRange, inflight := none }) ∧
  (∀ b, BitsLoaded s b → s.params.maxBits < (out b).length →
    exec i s = .next { s with code := .outOverflow, inflight := none }) ∧
  ∀ b, BitsLoaded s b → (out b).length ≤ s.params.maxBits →
    ∃ t, exec i s = .next t ∧
      BitsOut s t (out b).length (err b) fun j => bitAt (out b) j = true

/-- The whole cycle of a command from bits to bits whose output is never longer than its input (R77, R78):
the one rejection, and otherwise the output `out` and the error flag `err`. -/
def FittingBitCycle (i : Instr) (s : State) (out : List Bit → List Bit) (err : List Bit → Bool) : Prop :=
  (s.params.maxBits < s.inBlen.toNat →
    exec i s = .next { s with code := .inRange, inflight := none }) ∧
  ∀ b, BitsLoaded s b → ∃ t, exec i s = .next t ∧
    BitsOut s t (out b).length (err b) fun j => bitAt (out b) j = true

/-! ## The codings over exact reals -/

/-- `theta(c, k, N)` (R13, R130). -/
noncomputable def theta (c k n : Nat) : ℝ := 2 * Real.pi * c * k / n

/-- The mean of the samples `a` to `a + m - 1` (R13). -/
noncomputable def meanOf (r : Nat → ℝ) (a m : Nat) : ℝ := (∑ k ∈ Finset.range m, r (a + k)) / m

/-- The sum of the products of interval `i` with a reference (R135, R138). -/
noncomputable def corrOf (r : Nat → ℝ) (n i : Nat) (ref : Nat → ℝ) : ℝ :=
  ∑ k ∈ Finset.range n, r (i * n + k) * ref k

/-- `E(s, c)` of interval `i` (R135). -/
noncomputable def energyOf (r : Nat → ℝ) (n i c : Nat) : ℝ :=
  corrOf r n i (fun k => Real.sin (theta c k n)) ^ 2 + corrOf r n i (fun k => Real.cos (theta c k n)) ^ 2

/-- `Î` of interval `i`, normalised by the reference energy `EI` (R138). -/
noncomputable def iHat (r : Nat → ℝ) (n c i : Nat) : ℝ :=
  corrOf r n i (fun k => Real.cos (theta c k n)) /
    ∑ k ∈ Finset.range n, Real.cos (theta c k n) ^ 2

/-- `Q̂` of interval `i`, normalised by the reference energy `EQ` (R138). -/
noncomputable def qHat (r : Nat → ℝ) (n c i : Nat) : ℝ :=
  corrOf r n i (fun k => Real.sin (theta c k n)) /
    ∑ k ∈ Finset.range n, Real.sin (theta c k n) ^ 2

/-- `G2` (R140). -/
noncomputable def gray2Real (v : ℝ) (b0 b1 : Bit) : ℝ :=
  match b0, b1 with
  | false, false => - (v / Real.sqrt 2)
  | false, true => - (v / (3 * Real.sqrt 2))
  | true, true => v / (3 * Real.sqrt 2)
  | true, false => v / Real.sqrt 2

/-- `(b0, b1)` is `nearest(x)` (R142): no level is nearer, and every lower level is farther. -/
def NearestPair (v x : ℝ) (b0 b1 : Bit) : Prop :=
  ∀ c0 c1, |x - gray2Real v b0 b1| ≤ |x - gray2Real v c0 c1| ∧
    (gray2Real v c0 c1 < gray2Real v b0 b1 → |x - gray2Real v b0 b1| < |x - gray2Real v c0 c1|)

/-- The polarity after `k` marks from the polarity `p` (R105). -/
def polarityAfter (p : Bool) (k : Nat) : Bool := if k % 2 = 0 then p else !p

/-- The number of 1 bits among the first `i` bits. -/
def marksBefore (b : List Bit) (i : Nat) : Nat := (b.take i).count true

/-- The loop of R171: the output so far and the run counter. -/
def stuffLoop (out : List Bit) (run : Nat) : List Bit → List Bit
  | [] => out
  | x :: xs =>
    if x then
      if run + 1 = 5 then stuffLoop (out ++ [x] ++ [false]) 0 xs else stuffLoop (out ++ [x]) (run + 1) xs
    else stuffLoop (out ++ [x]) 0 xs

/-- The loop of R172 over the sequence `m`, for at most `fuel` rounds from index `i`. -/
def destuffLoop (m : List Bit) : Nat → Nat → Nat → List Bit → List Bit
  | 0, _, _, out => out
  | fuel + 1, i, run, out =>
    if i < m.length then
      if bitAt m i then
        if run + 1 = 5 then
          if i + 1 < m.length ∧ bitAt m (i + 1) = false then destuffLoop m fuel (i + 2) 0 (out ++ [true])
          else destuffLoop m fuel (i + 1) 0 (out ++ [true])
        else destuffLoop m fuel (i + 1) (run + 1) (out ++ [true])
      else destuffLoop m fuel (i + 1) 0 (out ++ [false])
    else out

/-- Bit `k` (from 0) of the block of the data group `d1 d2 d3 d4` (R210, R211). -/
def blockBitOf (d1 d2 d3 d4 : Bit) (k : Nat) : Bit :=
  match k with
  | 0 => Bool.xor (Bool.xor d1 d2) d4
  | 1 => Bool.xor (Bool.xor d1 d3) d4
  | 2 => d1
  | 3 => Bool.xor (Bool.xor d2 d3) d4
  | 4 => d2
  | 5 => d3
  | _ => d4

/-- Bit `j` of the output of HAM_ENC; an index beyond the input is padding, 0 (R212). -/
def hamEncBit (b : List Bit) (j : Nat) : Bit :=
  blockBitOf (bitAt b (4 * (j / 7))) (bitAt b (4 * (j / 7) + 1)) (bitAt b (4 * (j / 7) + 2))
    (bitAt b (4 * (j / 7) + 3)) (j % 7)

/-- Bit `j` of the output of HAM_DEC (R213 to R215): bit `k = j mod 4` of block `j div 4` is the received
bit at position 3, 5, 6 or 7, inverted where the syndrome names that position; an index beyond the input
is padding, 0. -/
def hamDecBit (c : List Bit) (j : Nat) : Bit :=
  let r := fun p => bitAt c (7 * (j / 4) + p - 1)
  let s1 := (Bool.xor (Bool.xor (r 1) (r 3)) (Bool.xor (r 5) (r 7))).toNat
  let s2 := (Bool.xor (Bool.xor (r 2) (r 3)) (Bool.xor (r 6) (r 7))).toNat
  let s3 := (Bool.xor (Bool.xor (r 4) (r 5)) (Bool.xor (r 6) (r 7))).toNat
  let p := [3, 5, 6, 7].getD (j % 4) 0
  Bool.xor (r p) (decide (s1 + 2 * s2 + 4 * s3 = p))

/-- The CRC register after a bit sequence, without the final XOR (R191, R192). -/
def crcRegister (b : List Bit) : BitVec 32 :=
  b.foldl (fun r x => (r <<< 1) ^^^ (if r.msb != x then 0x04C11DB7#32 else 0#32)) 0xFFFFFFFF#32

/-- `crc32(b)` (R192). -/
def crcOf (b : List Bit) : BitVec 32 := crcRegister b ^^^ 0xFFFFFFFF#32

/-- `word(t)` (R193) of the 32 bits from index `a` on. -/
def wordAt (f : List Bit) (a : Nat) : Nat :=
  ∑ j ∈ Finset.range 32, if bitAt f (a + j) then 2 ^ (31 - j) else 0

/-- The opcode map of R73. -/
def commandTable : List (Word × Instr) :=
  [(0x00000010#32, .nrzEnc), (0x00000011#32, .nrzDec), (0x00000012#32, .manEnc), (0x00000013#32, .manDec),
    (0x00000014#32, .amiEnc), (0x00000015#32, .amiDec), (0x00000016#32, .amiRst),
    (0x00000020#32, .askMod), (0x00000021#32, .askDem), (0x00000022#32, .fskMod), (0x00000023#32, .fskDem),
    (0x00000024#32, .qpskMod), (0x00000025#32, .qpskDem), (0x00000026#32, .qam16Mod),
    (0x00000027#32, .qam16Dem), (0x00000030#32, .bstEnc), (0x00000031#32, .bstDec),
    (0x00000040#32, .crcGen), (0x00000041#32, .crcChk), (0x00000050#32, .hamEnc), (0x00000051#32, .hamDec)]

/-! ## Reset -/

/-- Every register and field is at its reset value, and no buffer element has a value (R44). -/
def AtReset (s : State) : Prop :=
  s.busy = false ∧ s.err = false ∧ s.code = .ok ∧ s.inBlen = 0 ∧ s.inSlen = 0 ∧ s.outBlen = 0 ∧
  s.outSlen = 0 ∧ s.spb = 8 ∧ s.vpeak.toReal = 1 ∧ s.fs.toReal = 8 ∧ s.askCyc = 1 ∧ s.fskCyc1 = 2 ∧
  s.fskCyc2 = 1 ∧ s.iqCyc = 1 ∧ s.amiPol = true ∧ s.statusWord = 0 ∧
  ∀ i, s.inBits.read i = none ∧ s.outBits.read i = none ∧ s.inSamp.read i = none ∧
    s.outSamp.read i = none

/-! ## The invariant -/

/-- Every index of the buffer is within the capacity. -/
def Buf.within {α : Type} (b : Buf α) (cap : Nat) : Prop := ∀ c ∈ b, c.1 < cap

/-- What holds of the block at all times: the buffers are in their one form and within their
capacities, every element below an output length has a value, and the capacities are legal. -/
structure Invariant (s : State) : Prop where
  inBits_wf : s.inBits.wf = true
  outBits_wf : s.outBits.wf = true
  inSamp_wf : s.inSamp.wf = true
  outSamp_wf : s.outSamp.wf = true
  inBits_within : s.inBits.within s.params.maxBits
  outBits_within : s.outBits.within s.params.maxBits
  inSamp_within : s.inSamp.within s.params.maxSamples
  outSamp_within : s.outSamp.within s.params.maxSamples
  outBits_held : ∀ i, i < s.outBlen.toNat → (s.outBits.read i).isSome = true
  outSamp_held : ∀ i, i < s.outSlen.toNat → (s.outSamp.read i).isSome = true
  bits_pos : 1 ≤ s.params.maxBits
  samples_pos : 1 ≤ s.params.maxSamples

/-- The block's own state is the same: everything but the progress of a running command and what the
model keeps of the host (R60). -/
def SameBlock (s t : State) : Prop :=
  t = { s with inflight := t.inflight, host := t.host, rx := t.rx, tick := t.tick }

/-- The two states give the command `i` the same operands: its own input buffer up to its input length,
the configuration registers but FS, the capacities, and POL where the command reads it (R4, R76). -/
def SameOperands (i : Instr) (s t : State) : Prop :=
  t.spb = s.spb ∧ t.vpeak = s.vpeak ∧ t.askCyc = s.askCyc ∧
  t.fskCyc1 = s.fskCyc1 ∧ t.fskCyc2 = s.fskCyc2 ∧ t.iqCyc = s.iqCyc ∧ t.params = s.params ∧
  (bitInput i = true → t.inBlen = s.inBlen ∧
    ∀ j, j < s.inBlen.toNat → t.inBits.read j = s.inBits.read j) ∧
  (sampleInput i = true → t.inSlen = s.inSlen ∧
    ∀ j, j < s.inSlen.toNat → t.inSamp.read j = s.inSamp.read j) ∧
  (i = .amiEnc → t.amiPol = s.amiPol)

/-- It is the host's turn and its next access is `a`. -/
def HostDoes (s : State) (a : Access) (rest : List Access) : Prop :=
  s.fetchCommand = none ∧ s.host = a :: rest

/-! ## One command's output as another's input -/

/-- `u` has the output samples of `t` as its input, as after `mvs` (R80), under the same configuration
(R268). -/
def SamplesCopied (t u : State) : Prop :=
  u.inSlen = t.outSlen ∧ (∀ j, j < t.outSlen.toNat → u.inSamp.read j = t.outSamp.read j) ∧
  u.params = t.params ∧ u.spb = t.spb ∧ u.vpeak = t.vpeak ∧ u.askCyc = t.askCyc ∧
  u.fskCyc1 = t.fskCyc1 ∧ u.fskCyc2 = t.fskCyc2 ∧ u.iqCyc = t.iqCyc

/-- `u` has the output bits of `t` as its input, those at which `flip` is true inverted. -/
def BitsCopiedFlipping (flip : Nat → Bool) (t u : State) : Prop :=
  u.inBlen = t.outBlen ∧ u.params = t.params ∧
  ∀ j, j < t.outBlen.toNat → ∃ x, t.outBits.read j = some x ∧ u.inBits.read j = some (Bool.xor x (flip j))

/-- `u` has the output bits of `t` as its input, as after `mvb` (R80). -/
def BitsCopied (t u : State) : Prop := BitsCopiedFlipping (fun _ => false) t u

/-- Whenever the command `enc` is accepted in `s` and its output is copied to an input of the command
`dec`, that is accepted and its output is the bit sequence `out`. -/
def GivesBack (enc dec : Instr) (copied : State → State → Prop) (s : State) (out : List Bit) : Prop :=
  ∀ t u, exec enc s = .next t → t.code = .ok → copied t u →
    ∃ v, exec dec u = .next v ∧ v.code = .ok ∧ v.err = false ∧ v.outBlen.toNat = out.length ∧
      ∀ j, j < out.length → v.outBits.read j = some (bitAt out j)

end Sys2Proof.Machine
end

