-- ==== Sys2Proof/Certificates/Slice0/Obligations.lean ====
section
/-! DEFINITION. The statements for the provers; OBLIGATIONS.json lists them. -/

open Sys2Proof Sys2Proof.Machine

/-! ## Command words -/

/-- R73: every command is selected by exactly the word of the opcode map; encode gives that word. -/
def Obligations.DecodeSelectsExactWords : Prop :=
  (∀ w i, decode w = .ok i ↔ (w, i) ∈ commandTable) ∧
  ∀ i, i.wellFormed = true → decode (encode i) = .ok i ∧ ∀ w, decode w = .ok i → w = encode i

/-- Words written out from R70 and R73, one of each family, decode to their commands. -/
def Obligations.WrittenWordsDecode : Prop :=
  decode 0x00000014#32 = .ok .amiEnc ∧ decode 0x00000027#32 = .ok .qam16Dem ∧
  decode 0x00000031#32 = .ok .bstDec ∧ decode 0x00000041#32 = .ok .crcChk ∧
  decode 0x00000050#32 = .ok .hamEnc

/-- R74: a word with a bit set above bit 7, or whose low octet is none of the 21 values, is rejected with
ILLEGAL_CMD, whatever the rest of the state. -/
def Obligations.IllegalWordsAreRejected : Prop :=
  ∀ (s : State) (w : Word), s.inflight = some ⟨w, 0⟩ →
    (w.toNat / 256 ≠ 0 ∨ w.toNat % 256 ∉ [0x10, 0x11, 0x12, 0x13, 0x14, 0x15, 0x16, 0x20, 0x21, 0x22,
      0x23, 0x24, 0x25, 0x26, 0x27, 0x30, 0x31, 0x40, 0x41, 0x50, 0x51]) →
    step s = .next { s with code := .illegalCmd, inflight := none }

/-! ## The step -/

/-- A command in progress whose latency has passed is decoded, and the step is its meaning. -/
def Obligations.StepRunsTheDecodedCommand : Prop :=
  ∀ (s : State) (w : Word) (i : Instr), s.inflight = some ⟨w, 0⟩ → decode w = .ok i → step s = exec i s

/-- R23: a write to CMD starts a command while BUSY = 0 and does nothing while BUSY = 1; a read of CMD
gives 0. -/
def Obligations.CmdRegister : Prop :=
  ∀ (s : State) (w : Word) (rest : List Access),
    (s.inflight = none → s.host = .wr 0 (.word w) :: rest →
      ∃ n k, step s = .next { s with host := rest, inflight := some ⟨w, n⟩, tick := k }) ∧
    (∀ v n, s.inflight = some ⟨v, n + 1⟩ → s.host = .wr 0 (.word w) :: rest →
      step s = .next { s with host := rest, inflight := some ⟨v, n⟩ }) ∧
    (s.inflight = none → s.host = .rd 0 :: rest →
      ∃ k, step s = .next { s with host := rest, rx := .word 0 :: s.rx, tick := k })

/-- However the host uses the port, so long as it does not reset the block, a command in progress reaches
the turn in which it runs, with the block's state as it was when the command started (R25, R61, R238,
R270).  That a latency is a number of turns and the run a turn of its own is the model's choice: log
entry 4 (DESIGN CHOICE). -/
def Obligations.BusyCommandReachesItsRun : Prop :=
  ∀ (s : State) (w : Word) (n : Nat), s.inflight = some ⟨w, n⟩ → (∀ a ∈ s.host, a ≠ .reset) →
    ∃ t, Sys2Proof.core.run n s = .next t ∧ t.fetchCommand = some w ∧ SameBlock s t

/-- R238: while BUSY = 1, writes are ignored, STATUS reads as it stands, and any other read gives the
host some datum. -/
def Obligations.BusyPort : Prop :=
  ∀ (s : State) (w : Word) (n : Nat) (rest : List Access), s.inflight = some ⟨w, n + 1⟩ →
    (∀ off v, s.host = .wr off v :: rest →
      step s = .next { s with host := rest, inflight := some ⟨w, n⟩ }) ∧
    (∀ sp j v, s.host = .wb sp j v :: rest →
      step s = .next { s with host := rest, inflight := some ⟨w, n⟩ }) ∧
    (∀ sp j x, s.host = .ws sp j x :: rest →
      step s = .next { s with host := rest, inflight := some ⟨w, n⟩ }) ∧
    (s.host = .rd 1 :: rest →
      ∃ k, step s = .next { s with
        host := rest, inflight := some ⟨w, n⟩, rx := .word s.statusWord :: s.rx, tick := k }) ∧
    ∀ a, s.host = a :: rest → (∃ off, off ≠ 1 ∧ a = .rd off) ∨ (∃ sp j, a = .rb sp j) ∨ (∃ sp j, a = .rs sp j) →
      ∃ d k, step s = .next { s with
        host := rest, inflight := some ⟨w, n⟩, rx := d :: s.rx, tick := k }

/-- Reads change nothing of the block, and what the host reads while the block is idle is what the
registers and the written elements hold (R22, R30, R31, R60). -/
def Obligations.IdleReads : Prop :=
  ∀ (s : State) (rest : List Access), s.inflight = none →
    (∀ off, s.host = .rd off :: rest → ∃ d, step s = .next { s with
      host := rest, rx := d :: s.rx, tick := s.tick + 1 } ∧
      (off = 1 → d = .word s.statusWord) ∧ (off = 2 → d = .word s.inBlen) ∧
      (off = 3 → d = .word s.inSlen) ∧ (off = 4 → d = .word s.outBlen) ∧
      (off = 5 → d = .word s.outSlen) ∧ (off = 6 → d = .word s.spb) ∧
      (off = 7 → d = .sample s.vpeak) ∧ (off = 8 → d = .sample s.fs)) ∧
    (∀ sp i, s.host = .rs sp i :: rest → ∃ x, step s = .next { s with
      host := rest, rx := .sample x :: s.rx, tick := s.tick + 1 } ∧
      (sp = .inSamp → i < s.params.maxSamples → ∀ y, s.inSamp.read i = some y → x = y) ∧
      (sp = .outSamp → i < s.params.maxSamples → i < s.outSlen.toNat →
        ∀ y, s.outSamp.read i = some y → x = y))

/-! ## Reset and the invariant -/

/-- R44: the state after reset. -/
def Obligations.ResetValues : Prop := AtReset State.reset

/-- R260, R261, R262: a reset, during a command or not, puts every register at its reset value and
leaves every buffer element without a value. -/
def Obligations.ResetInput : Prop :=
  ∀ (s : State) (rest : List Access), HostDoes s .reset rest →
    ∃ t, step s = .next t ∧ AtReset t ∧ t.params = s.params ∧ t.host = rest

/-- The state after reset meets the invariant. -/
def Obligations.ResetMeetsInvariant : Prop := Invariant State.reset

/-- Every step keeps the invariant, and never changes the capacities. -/
def Obligations.StepKeepsInvariant : Prop :=
  ∀ s t : State, Invariant s → step s = .next t → Invariant t ∧ t.params = s.params

/-! ## Acceptance, rejection and what commands leave alone -/

/-- R233: a rejection writes STATUS.CODE and clears BUSY; nothing else changes. -/
def Obligations.RejectionWritesOnlyStatus : Prop :=
  ∀ (s t : State) (w : Word), s.inflight = some ⟨w, 0⟩ → step s = .next t → t.code ≠ .ok →
    t = { s with code := t.code, inflight := none }

/-- R232: a command is rejected with BAD_CONFIG exactly when the table's conditions fail, and every
command accepts an empty input where its output for it fits. -/
def Obligations.AcceptanceFollowsTheTable : Prop :=
  ∀ (i : Instr) (s : State),
    (¬ ConfigOk i s → exec i s = .next { s with code := .badConfig, inflight := none }) ∧
    (∀ t, ConfigOk i s → exec i s = .next t → t.code ≠ .badConfig) ∧
    (ConfigOk i s → (bitInput i = true → s.inBlen = 0) → (sampleInput i = true → s.inSlen = 0) →
      32 ≤ s.params.maxBits → ∃ t, exec i s = .next t ∧ t.code = .ok)

/-- R234: of several causes the first in the order ILLEGAL_CMD, BAD_CONFIG, IN_RANGE, OUT_OVERFLOW is
reported. -/
def Obligations.FirstCauseIsReported : Prop :=
  ∀ (s t : State) (w : Word), s.inflight = some ⟨w, 0⟩ → step s = .next t →
    ((∀ i, decode w ≠ .ok i) → t.code = .illegalCmd) ∧
    ∀ i, decode w = .ok i →
      (¬ ConfigOk i s → t.code = .badConfig) ∧
      (ConfigOk i s → (bitInput i = true ∧ s.params.maxBits < s.inBlen.toNat) ∨
          (sampleInput i = true ∧ s.params.maxSamples < s.inSlen.toNat) → t.code = .inRange) ∧
      (ConfigOk i s → (bitInput i = true → s.inBlen.toNat ≤ s.params.maxBits) →
          (sampleInput i = true → s.inSlen.toNat ≤ s.params.maxSamples) →
        t.code = .outOverflow ∨ t.code = .ok)

/-- No command changes an input buffer, an input length, a configuration register or the capacities; a
command that is accepted touches only the output buffer and length of its output kind (R41, R57, R76). -/
def Obligations.CommandsLeaveTheRest : Prop :=
  ∀ (i : Instr) (s t : State), exec i s = .next t →
    t = { s with
      inflight := none, err := t.err, code := t.code, amiPol := t.amiPol
      outBits := t.outBits, outBlen := t.outBlen, outSamp := t.outSamp, outSlen := t.outSlen } ∧
    (bitOutput i = false → t.outBits = s.outBits ∧ t.outBlen = s.outBlen) ∧
    (sampleOutput i = false → t.outSamp = s.outSamp ∧ t.outSlen = s.outSlen) ∧
    (i ≠ .amiEnc → i ≠ .amiRst → t.amiPol = s.amiPol)

/-- ERR is written by accepted commands alone, and to 1 by CRC_CHK alone (R14, R26, R43). -/
def Obligations.ErrWriters : Prop :=
  (∀ (i : Instr) (s t : State), exec i s = .next t →
    (t.code ≠ .ok → t.err = s.err) ∧ (t.code = .ok → i ≠ .crcChk → t.err = false)) ∧
  ∀ (s t : State), s.fetchCommand = none → step s = .next t → t.err ≠ s.err →
    ∃ rest, s.host = .reset :: rest

/-- POL is written by AMI_ENC, by AMI_RST, by a host write to AMI_STATE and by reset alone (R39). -/
def Obligations.PolarityWriters : Prop :=
  ∀ s t : State, step s = .next t → t.amiPol ≠ s.amiPol →
    s.fetchCommand = some 0x00000014#32 ∨ s.fetchCommand = some 0x00000016#32 ∨
    ∃ rest, s.host = .reset :: rest ∨
      ∃ v, s.inflight = none ∧ s.host = .wr 13 v :: rest ∧ t.amiPol = (portWord v).getLsbD 0

/-- R4: what a command gives depends on its own input buffer up to its input length, the configuration
registers (not FS), POL (for AMI_ENC) and its opcode alone; the other input buffer and its length do not
count. -/
def Obligations.CommandsArePure : Prop :=
  ∀ (i : Instr) (s s' t : State), SameOperands i s s' → exec i s = .next t →
    ∃ t', exec i s' = .next t' ∧ t'.code = t.code ∧
      (t.code = .ok → t'.err = t.err ∧ (i = .amiEnc ∨ i = .amiRst → t'.amiPol = t.amiPol) ∧
        (bitOutput i = true → t'.outBlen = t.outBlen ∧
          ∀ j, j < t.outBlen.toNat → t'.outBits.read j = t.outBits.read j) ∧
        (sampleOutput i = true → t'.outSlen = t.outSlen ∧
          ∀ j, j < t.outSlen.toNat → t'.outSamp.read j = t.outSamp.read j))

/-- A step refuses nothing and faults only where a legal command would read an input element that is not
written (R56, U3).  A legal command with such an element below its input length faults at one where its
output length of R78 fits the capacity, and is rejected with OUT_OVERFLOW where it does not (R52).  That
the check comes before the read, and that `16 + L` is the length that decides for BST_ENC, is the model's
reading: log entry 6 (DEDUCED). -/
def Obligations.StopsOnlyOnUnwrittenInput : Prop :=
  (∀ s r, step s ≠ .refused r) ∧
  (∀ s r, step s = .fault r → ∃ w i, s.fetchCommand = some w ∧ decode w = .ok i ∧ ConfigOk i s ∧
    leastOutput i s ≤ outputCapacity i s ∧
    match r with
    | .unwrittenInBit j => bitInput i = true ∧ j < s.inBlen.toNat ∧ s.inBits.read j = none
    | .unwrittenInSample j => sampleInput i = true ∧ j < s.inSlen.toNat ∧ s.inSamp.read j = none) ∧
  ∀ i s, ConfigOk i s →
    (bitInput i = true → s.inBlen.toNat ≤ s.params.maxBits →
      (∃ j, j < s.inBlen.toNat ∧ s.inBits.read j = none) →
      (leastOutput i s ≤ outputCapacity i s →
        ∃ j, j < s.inBlen.toNat ∧ s.inBits.read j = none ∧ exec i s = .fault (.unwrittenInBit j)) ∧
      (outputCapacity i s < leastOutput i s →
        exec i s = .next { s with code := .outOverflow, inflight := none })) ∧
    (sampleInput i = true → s.inSlen.toNat ≤ s.params.maxSamples →
      (∃ j, j < s.inSlen.toNat ∧ s.inSamp.read j = none) →
      (leastOutput i s ≤ outputCapacity i s →
        ∃ j, j < s.inSlen.toNat ∧ s.inSamp.read j = none ∧ exec i s = .fault (.unwrittenInSample j)) ∧
      (outputCapacity i s < leastOutput i s →
        exec i s = .next { s with code := .outOverflow, inflight := none }))

/-! ## Registers and buffers on the host port -/

/-- R24: the fields of STATUS, and a write to it is ignored. -/
def Obligations.StatusLayout : Prop :=
  (∀ s : State, s.statusWord.getLsbD 0 = s.busy ∧ s.statusWord.getLsbD 1 = s.err ∧
    s.statusWord.getLsbD 2 = false ∧ s.statusWord.getLsbD 3 = false ∧
    s.statusWord.toNat / 16 = (match s.code with
      | .ok => 0 | .illegalCmd => 1 | .badConfig => 2 | .inRange => 3 | .outOverflow => 4) ∧
    ∀ k, 8 ≤ k → s.statusWord.getLsbD k = false) ∧
  ∀ (s : State) (v : HostData) (rest : List Access), s.inflight = none → s.host = .wr 1 v :: rest →
    step s = .next { s with host := rest }

/-- A write to a read-write register while the block is idle stores the value written, within the
field's width, and changes nothing else (R22, R28, R29, R32 to R39, R45). -/
def Obligations.RegisterWrites : Prop :=
  ∀ (s : State) (off : Nat) (w : Word) (x : Sample) (rest : List Access), s.inflight = none →
    (s.host = .wr off (.word w) :: rest →
      (off = 2 → step s = .next { s with host := rest, inBlen := w }) ∧
      (off = 3 → step s = .next { s with host := rest, inSlen := w }) ∧
      (off = 6 → step s = .next { s with host := rest, spb := w }) ∧
      (off = 9 → step s = .next { s with host := rest, askCyc := w.extractLsb' 0 16 }) ∧
      (off = 10 → step s = .next { s with host := rest, fskCyc1 := w.extractLsb' 0 16 }) ∧
      (off = 11 → step s = .next { s with host := rest, fskCyc2 := w.extractLsb' 0 16 }) ∧
      (off = 12 → step s = .next { s with host := rest, iqCyc := w.extractLsb' 0 16 }) ∧
      (off = 13 → step s = .next { s with host := rest, amiPol := w.getLsbD 0 })) ∧
    (s.host = .wr off (.sample x) :: rest →
      (off = 7 → step s = .next { s with host := rest, vpeak := x }) ∧
      (off = 8 → step s = .next { s with host := rest, fs := x }))

/-- R40: a reserved offset reads 0 and ignores writes; the reserved bits of the cycle registers and of
AMI_STATE read 0 whatever was written to them, and so do those of STATUS. -/
def Obligations.ReservedSpace : Prop :=
  ∀ (s : State) (off : Nat) (rest : List Access), s.inflight = none →
    (14 ≤ off → s.host = .rd off :: rest →
      ∃ k, step s = .next { s with host := rest, rx := .word 0 :: s.rx, tick := k }) ∧
    (∀ v, 14 ≤ off → s.host = .wr off v :: rest → step s = .next { s with host := rest }) ∧
    (∀ w : Word, 9 ≤ off → off ≤ 12 → s.host = .wr off (.word w) :: .rd off :: rest →
      ∃ t, Sys2Proof.core.run 2 s = .next t ∧ t.rx = .word (w &&& 0x0000FFFF#32) :: s.rx) ∧
    (∀ w : Word, off = 13 → s.host = .wr off (.word w) :: .rd off :: rest →
      ∃ t, Sys2Proof.core.run 2 s = .next t ∧ t.rx = .word (w &&& 0x00000001#32) :: s.rx) ∧
    (s.host = .rd 1 :: rest →
      ∃ w k, step s = .next { s with host := rest, rx := .word w :: s.rx, tick := k } ∧
        w &&& 0xFFFFFF0C#32 = 0)

/-- Host writes to OUT_BLEN, OUT_SLEN, OUT_BITS and OUT_SAMP are ignored (R22, R50). -/
def Obligations.OutputsAreReadOnly : Prop :=
  ∀ (s : State) (rest : List Access), s.inflight = none →
    (∀ off v, off = 4 ∨ off = 5 → s.host = .wr off v :: rest → step s = .next { s with host := rest }) ∧
    (∀ j v, s.host = .wb .outBits j v :: rest → step s = .next { s with host := rest }) ∧
    ∀ i x, s.host = .ws .outSamp i x :: rest → step s = .next { s with host := rest }

/-- R53: octet `j` of a bit buffer holds the bits `8j` to `8j + 7`, the first in the most significant
place, for a host write to IN_BITS and for host reads of written bits. -/
def Obligations.OctetPacking : Prop :=
  ∀ (s : State) (j : Nat) (rest : List Access), s.inflight = none → Invariant s →
    (∀ v : Octet, s.host = .wb .inBits j v :: rest →
      ∃ t, step s = .next t ∧ t = { s with host := rest, inBits := t.inBits } ∧
        ∀ i, t.inBits.read i =
          if i / 8 = j ∧ i < s.params.maxBits then some (v.getLsbD (7 - i % 8)) else s.inBits.read i) ∧
    (s.host = .rb .inBits j :: rest →
      ∃ v k, step s = .next { s with host := rest, rx := .octet v :: s.rx, tick := k } ∧
        ∀ i x, i / 8 = j → s.inBits.read i = some x → v.getLsbD (7 - i % 8) = x) ∧
    (s.host = .rb .outBits j :: rest →
      ∃ v k, step s = .next { s with host := rest, rx := .octet v :: s.rx, tick := k } ∧
        ∀ i x, i / 8 = j → i < s.outBlen.toNat → s.outBits.read i = some x → v.getLsbD (7 - i % 8) = x)

/-- A sample write reaches the one element it names, and none at or beyond the capacity (R52, R56). -/
def Obligations.SampleWrites : Prop :=
  ∀ (s : State) (i : Nat) (x : Sample) (rest : List Access), s.inflight = none → Invariant s →
    s.host = .ws .inSamp i x :: rest →
    ∃ t, step s = .next t ∧ t = { s with host := rest, inSamp := t.inSamp } ∧
      ∀ j, t.inSamp.read j =
        if j = i ∧ i < s.params.maxSamples then some x else s.inSamp.read j

/-- The pseudo-access `mvs` copies the output samples and their length to the input (R80). -/
def Obligations.MvsCopiesTheOutput : Prop :=
  ∀ (s : State) (rest : List Access), Invariant s → s.inflight = none → s.host = .mvs :: rest →
    ∃ t, Sys2Proof.core.run (2 * s.outSlen.toNat + 2) s = .next t ∧
      t = { s with host := rest, inSamp := t.inSamp, inSlen := s.outSlen, rx := t.rx, tick := t.tick } ∧
      ∀ i, t.inSamp.read i =
        if i < s.outSlen.toNat then s.outSamp.read i else s.inSamp.read i

/-! ## The line coder -/

/-- R101. -/
def Obligations.NrzEncCycle : Prop :=
  ∀ s : State, SampleCycle .nrzEnc s (s.inBlen.toNat * s.spb.toNat) (fun _ => s.amiPol)
    fun b j => if bitAt b (j / s.spb.toNat) = true then s.vpeak.toReal else - s.vpeak.toReal

/-- R102. -/
def Obligations.NrzDecCycle : Prop :=
  ∀ s : State, DecisionCycle .nrzDec s (s.inSlen.toNat / s.spb.toNat)
    fun r j => 0 < meanOf r (j * s.spb.toNat) s.spb.toNat

/-- R103. -/
def Obligations.ManEncCycle : Prop :=
  ∀ s : State, SampleCycle .manEnc s (s.inBlen.toNat * s.spb.toNat) (fun _ => s.amiPol)
    fun b j =>
      if (bitAt b (j / s.spb.toNat) = true ↔ j % s.spb.toNat < s.spb.toNat / 2) then s.vpeak.toReal
      else - s.vpeak.toReal

/-- R104. -/
def Obligations.ManDecCycle : Prop :=
  ∀ s : State, DecisionCycle .manDec s (s.inSlen.toNat / s.spb.toNat)
    fun r j =>
      meanOf r (j * s.spb.toNat + s.spb.toNat / 2) (s.spb.toNat - s.spb.toNat / 2) <
        meanOf r (j * s.spb.toNat) (s.spb.toNat / 2)

/-- R105. -/
def Obligations.AmiEncCycle : Prop :=
  ∀ s : State, SampleCycle .amiEnc s (s.inBlen.toNat * s.spb.toNat)
    (fun b => polarityAfter s.amiPol (b.count true))
    fun b j =>
      if bitAt b (j / s.spb.toNat) = true then
        if polarityAfter s.amiPol (marksBefore b (j / s.spb.toNat)) = true then s.vpeak.toReal
        else - s.vpeak.toReal
      else 0

/-- R106. -/
def Obligations.AmiDecCycle : Prop :=
  ∀ s : State, DecisionCycle .amiDec s (s.inSlen.toNat / s.spb.toNat)
    fun r j => ¬ |meanOf r (j * s.spb.toNat) s.spb.toNat| < 0.4 * s.vpeak.toReal

/-- R107. -/
def Obligations.AmiRstCompletes : Prop :=
  (∀ s : State, exec .amiRst s = .next { s with
    amiPol := true, err := false, code := .ok, inflight := none }) ∧
  ∀ w, decode w = .ok .amiRst ↔ w = 0x00000016#32

/-- A transmission split over two AMI_ENC commands, the second starting from the polarity the first
leaves, gives the samples and the polarity of the whole (R105, R264). -/
def Obligations.AmiSplitTransmission : Prop :=
  ∀ (s s₁ s₂ t t₁ t₂ : State) (a b : List Bit),
    BitsLoaded s (a ++ b) → BitsLoaded s₁ a → BitsLoaded s₂ b →
    s₁.spb = s.spb → s₂.spb = s.spb → s₁.vpeak = s.vpeak → s₂.vpeak = s.vpeak →
    exec .amiEnc s = .next t → t.code = .ok →
    s₁.amiPol = s.amiPol → exec .amiEnc s₁ = .next t₁ → t₁.code = .ok →
    s₂.amiPol = t₁.amiPol → exec .amiEnc s₂ = .next t₂ → t₂.code = .ok →
    t₂.amiPol = t.amiPol ∧
    (∀ j, j < a.length * s.spb.toNat → ∃ x y, t.outSamp.read j = some x ∧
      t₁.outSamp.read j = some y ∧ x.toReal = y.toReal) ∧
    ∀ j, j < b.length * s.spb.toNat → ∃ x y, t.outSamp.read (a.length * s.spb.toNat + j) = some x ∧
      t₂.outSamp.read j = some y ∧ x.toReal = y.toReal

/-- R109: every line decoder gives back the bits its encoder was given, in every configuration the
encoder accepts. -/
def Obligations.LineCodesRoundTrip : Prop :=
  ∀ (s : State) (b : List Bit), BitsLoaded s b → b.length * s.spb.toNat < 2 ^ 32 →
    GivesBack .nrzEnc .nrzDec SamplesCopied s b ∧ GivesBack .manEnc .manDec SamplesCopied s b ∧
    GivesBack .amiEnc .amiDec SamplesCopied s b

/-! ## The carrier modulator -/

/-- R132. -/
def Obligations.AskModCycle : Prop :=
  ∀ s : State, SampleCycle .askMod s (s.inBlen.toNat * s.spb.toNat) (fun _ => s.amiPol)
    fun b j =>
      if bitAt b (j / s.spb.toNat) = true then
        s.vpeak.toReal * Real.sin (theta s.askCyc.toNat (j % s.spb.toNat) s.spb.toNat)
      else 0

/-- R133. -/
def Obligations.AskDemCycle : Prop :=
  ∀ s : State, DecisionCycle .askDem s (s.inSlen.toNat / s.spb.toNat)
    fun r j => s.vpeak.toReal * s.vpeak.toReal / 4 <
      meanOf (fun k => r k * r k) (j * s.spb.toNat) s.spb.toNat

/-- R134. -/
def Obligations.FskModCycle : Prop :=
  ∀ s : State, SampleCycle .fskMod s (s.inBlen.toNat * s.spb.toNat) (fun _ => s.amiPol)
    fun b j => s.vpeak.toReal * Real.sin (theta
      (if bitAt b (j / s.spb.toNat) = true then s.fskCyc1.toNat else s.fskCyc2.toNat)
      (j % s.spb.toNat) s.spb.toNat)

/-- R135. -/
def Obligations.FskDemCycle : Prop :=
  ∀ s : State, DecisionCycle .fskDem s (s.inSlen.toNat / s.spb.toNat)
    fun r j => energyOf r s.spb.toNat j s.fskCyc2.toNat < energyOf r s.spb.toNat j s.fskCyc1.toNat

/-- R137, with the map of R136 and the padding of R131. -/
def Obligations.QpskModCycle : Prop :=
  ∀ s : State, SampleCycle .qpskMod s ((s.inBlen.toNat + 1) / 2 * s.spb.toNat) (fun _ => s.amiPol)
    fun b j =>
      (if bitAt b (2 * (j / s.spb.toNat) + 1) = true then - s.vpeak.toReal else s.vpeak.toReal) *
          Real.cos (theta s.iqCyc.toNat (j % s.spb.toNat) s.spb.toNat) +
        (if bitAt b (2 * (j / s.spb.toNat)) = true then - s.vpeak.toReal else s.vpeak.toReal) *
          Real.sin (theta s.iqCyc.toNat (j % s.spb.toNat) s.spb.toNat)

/-- R139, with the correlator of R138. -/
def Obligations.QpskDemCycle : Prop :=
  ∀ s : State, DecisionCycle .qpskDem s (2 * (s.inSlen.toNat / s.spb.toNat))
    fun r j =>
      if j % 2 = 0 then qHat r s.spb.toNat s.iqCyc.toNat (j / 2) < 0
      else iHat r s.spb.toNat s.iqCyc.toNat (j / 2) < 0

/-- R141, with the map of R140 and the padding of R131. -/
def Obligations.QamModCycle : Prop :=
  ∀ s : State, SampleCycle .qam16Mod s ((s.inBlen.toNat + 3) / 4 * s.spb.toNat) (fun _ => s.amiPol)
    fun b j =>
      gray2Real s.vpeak.toReal (bitAt b (4 * (j / s.spb.toNat))) (bitAt b (4 * (j / s.spb.toNat) + 1)) *
          Real.cos (theta s.iqCyc.toNat (j % s.spb.toNat) s.spb.toNat) +
        gray2Real s.vpeak.toReal (bitAt b (4 * (j / s.spb.toNat) + 2))
            (bitAt b (4 * (j / s.spb.toNat) + 3)) *
          Real.sin (theta s.iqCyc.toNat (j % s.spb.toNat) s.spb.toNat)

/-- R142, with the correlator of R138. -/
def Obligations.QamDemCycle : Prop :=
  ∀ s : State, DecisionCycle .qam16Dem s (4 * (s.inSlen.toNat / s.spb.toNat))
    fun r j => ∃ b0 b1,
      NearestPair s.vpeak.toReal
        (if j % 4 < 2 then iHat r s.spb.toNat s.iqCyc.toNat (j / 4)
          else qHat r s.spb.toNat s.iqCyc.toNat (j / 4)) b0 b1 ∧
      (if j % 2 = 0 then b0 else b1) = true

/-- ASK gives back its bits where N does not divide `2·cA` (R144). -/
def Obligations.AskRoundTrip : Prop :=
  ∀ (s : State) (b : List Bit), BitsLoaded s b → b.length * s.spb.toNat < 2 ^ 32 →
    ¬ s.spb.toNat ∣ 2 * s.askCyc.toNat → GivesBack .askMod .askDem SamplesCopied s b

/-- FSK gives back its bits where N divides none of `2·c1`, `2·c2`, `c1 - c2`, `c1 + c2` (R144). -/
def Obligations.FskRoundTrip : Prop :=
  ∀ (s : State) (b : List Bit), BitsLoaded s b → b.length * s.spb.toNat < 2 ^ 32 →
    ¬ s.spb.toNat ∣ 2 * s.fskCyc1.toNat → ¬ s.spb.toNat ∣ 2 * s.fskCyc2.toNat →
    ¬ (s.spb.toNat : Int) ∣ (s.fskCyc1.toNat : Int) - s.fskCyc2.toNat →
    ¬ s.spb.toNat ∣ s.fskCyc1.toNat + s.fskCyc2.toNat →
    GivesBack .fskMod .fskDem SamplesCopied s b

/-- QPSK and 16-QAM give back their bits, padded with zeros to whole symbols, in every configuration
they accept (R143, R144). -/
def Obligations.IqRoundTrip : Prop :=
  ∀ (s : State) (b : List Bit), BitsLoaded s b → (b.length + 1) * s.spb.toNat < 2 ^ 32 →
    (2 * ((b.length + 1) / 2) ≤ s.params.maxBits →
      GivesBack .qpskMod .qpskDem SamplesCopied s (b ++ List.replicate (b.length % 2) false)) ∧
    (4 * ((b.length + 3) / 4) ≤ s.params.maxBits →
      GivesBack .qam16Mod .qam16Dem SamplesCopied s
        (b ++ List.replicate (4 * ((b.length + 3) / 4) - b.length) false))

/-! ## Bit stuffing -/

/-- R171. -/
def Obligations.BstEncCycle : Prop :=
  ∀ s : State, BitCycle .bstEnc s
    (fun b => stuffLoop [false, true, true, true, true, true, true, false] 0 b ++
      [false, true, true, true, true, true, true, false])
    fun _ => false

/-- R172. -/
def Obligations.BstDecCycle : Prop :=
  ∀ s : State, FittingBitCycle .bstDec s
    (fun f => if f.length < 16 then []
      else destuffLoop ((f.drop 8).take (f.length - 16)) (f.length - 16) 0 0 [])
    fun _ => false

/-- R173: BST_DEC gives back the payload BST_ENC was given. -/
def Obligations.BitStuffingRoundTrip : Prop :=
  ∀ (s : State) (p : List Bit), BitsLoaded s p → 16 + p.length + p.length / 5 < 2 ^ 32 →
    GivesBack .bstEnc .bstDec BitsCopied s p

/-- The frame of BST_ENC has between `16 + L` and `16 + L + div(L, 5)` bits, and its stuffed payload never
holds six consecutive 1 bits (R78, R171). -/
def Obligations.StuffedPayloadBounds : Prop :=
  ∀ (s t : State) (b : List Bit), BitsLoaded s b → 16 + b.length + b.length / 5 < 2 ^ 32 →
    exec .bstEnc s = .next t → t.code = .ok →
    16 + b.length ≤ t.outBlen.toNat ∧ t.outBlen.toNat ≤ 16 + b.length + b.length / 5 ∧
    ∀ i, 8 ≤ i → i + 6 + 8 ≤ t.outBlen.toNat → ∃ k, k < 6 ∧ t.outBits.read (i + k) = some false

/-! ## CRC-32 -/

/-- R194, with the CRC of R190 to R193. -/
def Obligations.CrcGenCycle : Prop :=
  ∀ s : State, FixedBitCycle .crcGen s (s.inBlen.toNat + 32)
    (fun b => b ++ (List.range 32).map fun j => (crcOf b).getLsbD (31 - j)) fun _ => false

/-- R195. -/
def Obligations.CrcChkCycle : Prop :=
  ∀ s : State, FittingBitCycle .crcChk s (fun f => if f.length < 32 then [] else f.take (f.length - 32))
    fun f => decide (f.length < 32 ∨
      (crcOf (f.take (f.length - 32))).toNat ≠ wordAt f (f.length - 32))

/-- R193: `trailer` and `word` are inverse to each other. -/
def Obligations.TrailerIsInverse : Prop :=
  (∀ c : Word, trailerWord (crcTrailer c) = c ∧
    ∀ j, j < 32 → (crcTrailer c)[j]? = some (c.getLsbD (31 - j))) ∧
  ∀ t : List Bit, t.length = 32 → (trailerWord t).toNat = wordAt t 0 ∧ crcTrailer (trailerWord t) = t

/-- R196: CRC_CHK on a frame of CRC_GEN with one bit inverted writes ERR = 1; on the frame itself it
writes ERR = 0 and gives back the payload. -/
def Obligations.CrcDetectsSingleBitErrors : Prop :=
  ∀ (s : State) (p : List Bit), BitsLoaded s p → p.length + 32 < 2 ^ 32 →
    GivesBack .crcGen .crcChk BitsCopied s p ∧
    ∀ (t u : State) (i : Nat), exec .crcGen s = .next t → t.code = .ok → i < p.length + 32 →
      BitsCopiedFlipping (fun j => decide (j = i)) t u →
      ∃ v, exec .crcChk u = .next v ∧ v.code = .ok ∧ v.err = true

/-! ## Hamming(7,4) -/

/-- R212. -/
def Obligations.HamEncCycle : Prop :=
  ∀ s : State, FixedBitCycle .hamEnc s (7 * ((s.inBlen.toNat + 3) / 4))
    (fun b => (List.range (7 * ((b.length + 3) / 4))).map (hamEncBit b)) fun _ => false

/-- R215, with the syndrome of R213 and the decoder of R214. -/
def Obligations.HamDecCycle : Prop :=
  ∀ s : State, FixedBitCycle .hamDec s (4 * ((s.inBlen.toNat + 6) / 7))
    (fun c => (List.range (4 * ((c.length + 6) / 7))).map (hamDecBit c)) fun _ => false

/-- R216, for whole streams: HAM_DEC gives back the padded bits of HAM_ENC when at most one bit of each
block of 7 has been inverted. -/
def Obligations.HammingCorrectsOneErrorPerBlock : Prop :=
  ∀ (s : State) (b : List Bit) (flip : Nat → Bool), BitsLoaded s b → 7 * ((b.length + 3) / 4) < 2 ^ 32 →
    (∀ j p q, p < 7 → q < 7 → flip (7 * j + p) = true → flip (7 * j + q) = true → p = q) →
    GivesBack .hamEnc .hamDec (BitsCopiedFlipping flip) s
      (b ++ List.replicate (4 * ((b.length + 3) / 4) - b.length) false)

/-- R217: with two bits of a block inverted, HAM_DEC gives other data, with ERR = 0. -/
def Obligations.HammingMiscorrectsTwoErrors : Prop :=
  ∀ (s t u : State) (d : List Bit) (p q : Nat), BitsLoaded s d → d.length = 4 → p < q → q < 7 →
    exec .hamEnc s = .next t → t.code = .ok →
    BitsCopiedFlipping (fun j => decide (j = p ∨ j = q)) t u →
    ∃ v, exec .hamDec u = .next v ∧ v.code = .ok ∧ v.err = false ∧ v.outBlen.toNat = 4 ∧
      ∃ j, j < 4 ∧ v.outBits.read j ≠ some (bitAt d j)
end

