-- ==== Sys2Proof/Laws/Buffers.lean ====
section
/-! SUPPORT. Reading and writing buffers, and their one form (R52 to R57). -/

namespace Sys2Proof.Machine

variable {α : Type}

/-! ## Reading what was written -/

@[simp] theorem Buf.read_nil (i : Nat) : Buf.read ([] : Buf α) i = none := rfl

theorem Buf.read_cons (c : Nat × α) (cs : Buf α) (i : Nat) :
    Buf.read (c :: cs) i = if i = c.1 then some c.2 else Buf.read cs i := rfl

theorem Buf.read_append (a b : Buf α) (i : Nat) :
    Buf.read (a ++ b) i = (Buf.read a i).or (Buf.read b i) := by
  induction a with
  | nil => rfl
  | cons c a ih =>
    show Buf.read (c :: (a ++ b)) i = (Buf.read (c :: a) i).or _
    rw [Buf.read_cons, Buf.read_cons, ih]
    split <;> rfl

/-- Every index of a buffer that is not listed reads as nothing. -/
theorem Buf.read_eq_none {b : Buf α} {i : Nat} (h : ∀ c ∈ b, c.1 ≠ i) : Buf.read b i = none := by
  induction b with
  | nil => rfl
  | cons c b ih =>
    rw [Buf.read_cons, if_neg (Ne.symm (h c (by simp))), ih fun x hx => h x (by simp [hx])]

theorem Buf.exists_of_read {b : Buf α} {i : Nat} {x : α} (h : Buf.read b i = some x) : (i, x) ∈ b := by
  induction b with
  | nil => simp at h
  | cons c b ih =>
    rw [Buf.read_cons] at h
    split at h
    · rename_i e
      obtain rfl := Option.some.inj h
      rw [e]; exact List.mem_cons_self
    · exact List.mem_cons_of_mem _ (ih h)

theorem rising_cons {i : Nat} {ks : List Nat} (h : rising (i :: ks) = true) :
    rising ks = true ∧ ∀ k ∈ ks, i < k := by
  induction ks generalizing i with
  | nil => simp [rising]
  | cons j ks ih =>
    simp only [rising, Bool.and_eq_true, decide_eq_true_eq] at h
    refine ⟨h.2, fun k hk => ?_⟩
    rcases List.mem_cons.1 hk with rfl | hk
    · exact h.1
    · exact h.1.trans ((ih h.2).2 k hk)

theorem rising_cons_of {i : Nat} {ks : List Nat} (h : rising ks = true) (hi : ∀ k ∈ ks, i < k) :
    rising (i :: ks) = true := by
  cases ks with
  | nil => rfl
  | cons j ks => simp [rising, h, hi j]

@[simp] theorem Buf.wf_nil : Buf.wf ([] : Buf α) = true := rfl

theorem Buf.wf_cons {c : Nat × α} {cs : Buf α} (h : Buf.wf (c :: cs) = true) :
    Buf.wf cs = true ∧ ∀ d ∈ cs, c.1 < d.1 := by
  have := rising_cons (i := c.1) (ks := cs.map fun c : Nat × α => c.1) h
  exact ⟨this.1, fun d hd => this.2 d.1 (List.mem_map_of_mem hd)⟩

theorem Buf.wf_cons_of {c : Nat × α} {cs : Buf α} (h : Buf.wf cs = true) (hc : ∀ d ∈ cs, c.1 < d.1) :
    Buf.wf (c :: cs) = true := by
  refine rising_cons_of (i := c.1) (ks := cs.map fun c : Nat × α => c.1) h ?_
  intro k hk
  obtain ⟨d, hd, rfl⟩ := List.mem_map.1 hk
  exact hc d hd

/-- A read after a write gives the element written, and every other element is left alone. -/
theorem Buf.read_write {b : Buf α} (h : b.wf = true) (i j : Nat) (x : α) :
    (b.write i x).read j = if j = i then some x else b.read j := by
  induction b with
  | nil =>
    show Buf.read [(i, x)] j = _
    rw [Buf.read_cons, Buf.read_nil]
  | cons c cs ih =>
    have hc := Buf.wf_cons h
    unfold Buf.write
    split
    · rw [Buf.read_cons]
    · split
      · rename_i e
        rw [Buf.read_cons, Buf.read_cons]
        by_cases hj : j = i
        · simp [hj]
        · simp only [hj, if_false]; rw [if_neg (by omega)]
      · rw [Buf.read_cons, ih hc.1, Buf.read_cons]
        by_cases hj : j = i
        · subst hj; simp; intro h; omega
        · simp only [hj, if_false]

theorem Buf.mem_write {b : Buf α} {i : Nat} {x : α} {c : Nat × α} (h : c ∈ b.write i x) :
    c = (i, x) ∨ c ∈ b := by
  induction b with
  | nil => exact .inl (List.mem_singleton.1 h)
  | cons d ds ih =>
    unfold Buf.write at h
    split at h
    · exact List.mem_cons.1 h
    · split at h
      · rcases List.mem_cons.1 h with h | h
        · exact .inl h
        · exact .inr (List.mem_cons_of_mem _ h)
      · rcases List.mem_cons.1 h with h | h
        · exact .inr (by rw [h]; exact List.mem_cons_self)
        · exact (ih h).imp_right (List.mem_cons_of_mem _)

/-- A write keeps the form of a buffer. -/
theorem Buf.wf_write {b : Buf α} (h : b.wf = true) (i : Nat) (x : α) : (b.write i x).wf = true := by
  induction b with
  | nil => rfl
  | cons c cs ih =>
    have hc := Buf.wf_cons h
    unfold Buf.write
    split
    · rename_i hi
      refine Buf.wf_cons_of h fun d hd => ?_
      rcases List.mem_cons.1 hd with rfl | hd
      · exact hi
      · exact hi.trans (hc.2 d hd)
    · split
      · rename_i e
        exact Buf.wf_cons_of hc.1 fun d hd => by rw [e]; exact hc.2 d hd
      · refine Buf.wf_cons_of (ih hc.1) fun d hd => ?_
        rcases Buf.mem_write hd with rfl | hd
        · show c.1 < i
          omega
        · exact hc.2 d hd

/-! ## Blocks -/

theorem mem_numbered {i : Nat} {xs : List α} {c : Nat × α} (h : c ∈ numbered i xs) :
    i ≤ c.1 ∧ c.1 < i + xs.length := by
  induction xs generalizing i with
  | nil => simp [numbered] at h
  | cons x xs ih =>
    rcases List.mem_cons.1 h with rfl | h
    · simp
    · have := ih h
      simp only [List.length_cons]
      omega

theorem read_numbered (i j : Nat) (xs : List α) :
    Buf.read (numbered i xs) j = if i ≤ j then xs[j - i]? else none := by
  induction xs generalizing i with
  | nil => simp [numbered]
  | cons x xs ih =>
    show Buf.read ((i, x) :: numbered (i + 1) xs) j = _
    rw [Buf.read_cons, ih]
    rcases lt_trichotomy j i with h | h | h
    · rw [if_neg (by omega), if_neg (by omega), if_neg (by omega)]
    · subst h; simp
    · rw [if_neg (by omega), if_pos (by omega), if_pos (by omega),
        show j - i = (j - (i + 1)) + 1 by omega, List.getElem?_cons_succ]

theorem wf_numbered (i : Nat) (xs : List α) : Buf.wf (numbered i xs) = true := by
  induction xs generalizing i with
  | nil => rfl
  | cons x xs ih =>
    exact Buf.wf_cons_of (ih _) fun d hd => (Nat.lt_succ_self i).trans_le (mem_numbered hd).1

theorem Buf.wf_append {a b : Buf α} (ha : a.wf = true) (hb : b.wf = true)
    (h : ∀ c ∈ a, ∀ d ∈ b, c.1 < d.1) : Buf.wf (a ++ b) = true := by
  induction a with
  | nil => exact hb
  | cons c a ih =>
    have hc := Buf.wf_cons ha
    refine Buf.wf_cons_of (ih hc.1 fun x hx => h x (List.mem_cons_of_mem _ hx)) fun d hd => ?_
    rcases List.mem_append.1 hd with hd | hd
    · exact hc.2 d hd
    · exact h c List.mem_cons_self d hd

theorem Buf.wf_filter {b : Buf α} (h : b.wf = true) (p : Nat × α → Bool) : Buf.wf (b.filter p) = true := by
  induction b with
  | nil => rfl
  | cons c b ih =>
    have hc := Buf.wf_cons h
    rw [List.filter_cons]
    split
    · exact Buf.wf_cons_of (ih hc.1) fun d hd => hc.2 d (List.mem_filter.1 hd).1
    · exact ih hc.1

/-- Writing a block keeps the form of a buffer. -/
theorem Buf.wf_writeBlock {b : Buf α} (h : b.wf = true) (xs : List α) : (b.writeBlock xs).wf = true := by
  refine Buf.wf_append (wf_numbered 0 xs) (Buf.wf_filter h _) fun c hc d hd => ?_
  have h1 := (mem_numbered hc).2
  have h2 := (List.mem_filter.1 hd).2
  simp only [decide_eq_true_eq] at h2
  omega

theorem Buf.read_filter_ge (b : Buf α) (n i : Nat) :
    Buf.read (b.filter fun c => decide (n ≤ c.1)) i = if n ≤ i then Buf.read b i else none := by
  induction b with
  | nil => simp
  | cons c b ih =>
    rw [List.filter_cons]
    split
    · rename_i hc
      simp only [decide_eq_true_eq] at hc
      rw [Buf.read_cons, ih, Buf.read_cons]
      by_cases h : n ≤ i
      · simp [h]
      · simp only [h, if_false]; rw [if_neg (by omega)]
    · rename_i hc
      simp only [decide_eq_true_eq] at hc
      rw [ih, Buf.read_cons]
      by_cases h : n ≤ i
      · simp only [h, if_true]; rw [if_neg (by omega)]
      · simp [h]

/-- After a block of `xs` the elements below its length are `xs`, the others are as they were (R57). -/
theorem Buf.read_writeBlock (b : Buf α) (xs : List α) (i : Nat) :
    (b.writeBlock xs).read i = if i < xs.length then xs[i]? else b.read i := by
  unfold Buf.writeBlock
  rw [Buf.read_append, read_numbered, Buf.read_filter_ge]
  simp only [Nat.zero_le, if_true, Nat.sub_zero]
  by_cases h : i < xs.length
  · rw [if_pos h, List.getElem?_eq_getElem h]; rfl
  · rw [if_neg h, if_pos (by omega), List.getElem?_eq_none (by omega)]; rfl

theorem Buf.mem_writeBlock {b : Buf α} {xs : List α} {c : Nat × α} (h : c ∈ b.writeBlock xs) :
    c.1 < xs.length ∨ c ∈ b := by
  rcases List.mem_append.1 h with h | h
  · exact .inl (by simpa using (mem_numbered h).2)
  · exact .inr (List.mem_filter.1 h).1

/-! ## Sequences -/

/-- What reading a sequence of elements answers: all of them, or the lowest index with no value. -/
theorem Buf.readSeq_cases (b : Buf α) (i n : Nat) :
    (∃ xs, b.readSeq i n = .ok xs ∧ xs.length = n ∧ ∀ k, k < n → b.read (i + k) = xs[k]?) ∨
    (∃ j, b.readSeq i n = .error j ∧ i ≤ j ∧ j < i + n ∧ b.read j = none ∧
      ∀ k, i ≤ k → k < j → (b.read k).isSome = true) := by
  induction n generalizing i with
  | zero => exact .inl ⟨[], rfl, rfl, by omega⟩
  | succ n ih =>
    unfold Buf.readSeq
    cases hr : b.read i with
    | none => exact .inr ⟨i, rfl, le_refl _, by omega, hr, by omega⟩
    | some x =>
      rcases ih (i + 1) with ⟨xs, h, hl, hx⟩ | ⟨j, h, h1, h2, h3, h4⟩
      · refine .inl ⟨x :: xs, by simp [h], by simp [hl], fun k hk => ?_⟩
        cases k with
        | zero => simpa using hr
        | succ k =>
          have := hx k (by omega)
          rw [List.getElem?_cons_succ, ← this]
          congr 1; omega
      · refine .inr ⟨j, by simp [h], by omega, by omega, h3, fun k hk hkj => ?_⟩
        rcases Nat.eq_or_lt_of_le hk with rfl | hk
        · simp [hr]
        · exact h4 k hk hkj

theorem Buf.readSeq_eq_ok {b : Buf α} {i : Nat} {xs : List α}
    (h : ∀ k, k < xs.length → b.read (i + k) = xs[k]?) : b.readSeq i xs.length = .ok xs := by
  rcases b.readSeq_cases i xs.length with ⟨ys, e, hl, hy⟩ | ⟨j, -, h1, h2, h3, -⟩
  · rw [e]; congr 1
    apply List.ext_getElem? 
    intro k
    by_cases hk : k < xs.length
    · rw [← hy k hk, h k hk]
    · rw [List.getElem?_eq_none (by omega), List.getElem?_eq_none (by omega)]
  · exfalso
    have := h (j - i) (by omega)
    rw [show i + (j - i) = j by omega, h3, List.getElem?_eq_getElem (by omega)] at this
    exact absurd this (by simp)

end Sys2Proof.Machine
end

