-- ==== Sys2Proof/Laws/SampleValue.lean ====
section
/-! SUPPORT. Each operation on samples computes the real number it names (R10, R13). -/

namespace Sys2Proof

/-- The real number a list of terms adds up to. -/
noncomputable def termsValue (ts : List Term) : ℝ := (ts.map Term.toReal).sum

theorem Sample.toReal_eq (x : Sample) : x.toReal = termsValue x.terms := rfl

@[simp] theorem Sample.toReal_mk (ts : List Term) : (Sample.mk ts).toReal = termsValue ts := rfl

@[simp] theorem termsValue_nil : termsValue [] = 0 := rfl

@[simp] theorem termsValue_cons (t : Term) (ts : List Term) :
    termsValue (t :: ts) = t.toReal + termsValue ts := by
  simp [termsValue]

@[simp] theorem termsValue_append (a b : List Term) :
    termsValue (a ++ b) = termsValue a + termsValue b := by
  induction a with
  | nil => simp
  | cons t a ih => simp [ih, add_assoc]

theorem Term.toReal_of_coef_zero {t : Term} (h : t.coef = 0) : t.toReal = 0 := by
  simp [Term.toReal, Term.valueWith, h]

/-- A term whose turn is moved by a whole number of turns has the same value. -/
theorem cos_turn_sub_int (r : ℝ) (k : ℤ) :
    Real.cos (2 * Real.pi * (r - k)) = Real.cos (2 * Real.pi * r) := by
  rw [mul_sub, show 2 * Real.pi * (k : ℝ) = k * (2 * Real.pi) by ring, Real.cos_sub_int_mul_two_pi]

theorem cos_turn_one_sub (r : ℝ) :
    Real.cos (2 * Real.pi * (1 - r)) = Real.cos (2 * Real.pi * r) := by
  rw [mul_sub, mul_one, Real.cos_two_pi_sub]

theorem cos_turn_half_sub (r : ℝ) :
    Real.cos (2 * Real.pi * (1 / 2 - r)) = - Real.cos (2 * Real.pi * r) := by
  rw [mul_sub, show 2 * Real.pi * (1 / 2 : ℝ) = Real.pi by ring, Real.cos_pi_sub]

theorem cos_turn_quarter : Real.cos (2 * Real.pi * (1 / 4 : ℝ)) = 0 := by
  rw [show 2 * Real.pi * (1 / 4 : ℝ) = Real.pi / 2 by ring, Real.cos_pi_div_two]

theorem cos_turn_sixth : Real.cos (2 * Real.pi * (1 / 6 : ℝ)) = 1 / 2 := by
  rw [show 2 * Real.pi * (1 / 6 : ℝ) = Real.pi / 3 by ring, Real.cos_pi_div_three]

/-- Replacing the turns a quarter and a sixth keeps a term's value. -/
theorem toReal_dropSpecialTurn (q g : ℚ) (ns : List ℕ) :
    (if g = 1 / 4 then (⟨0, 0, ns⟩ : Term) else if g = 1 / 6 then ⟨q / 2, 0, ns⟩ else ⟨q, g, ns⟩).toReal =
      (⟨q, g, ns⟩ : Term).toReal := by
  split
  · rename_i h
    have := cos_turn_quarter
    simp only [Term.toReal, Term.valueWith, h]; push_cast; rw [this]; simp
  · split
    · rename_i h
      have := cos_turn_sixth
      simp only [Term.toReal, Term.valueWith, h]; push_cast; rw [this, mul_zero, Real.cos_zero]; ring
    · rfl

/-- Folding a term's turn keeps its value. -/
@[simp] theorem Term.toReal_fold (t : Term) : t.fold.toReal = t.toReal := by
  unfold Term.fold
  extract_lets f h q g
  rw [toReal_dropSpecialTurn]
  have h1 : Real.cos (2 * Real.pi * (f : ℝ)) = Real.cos (2 * Real.pi * (t.turn : ℝ)) := by
    simp only [f]; push_cast; exact cos_turn_sub_int _ _
  have h2 : Real.cos (2 * Real.pi * (h : ℝ)) = Real.cos (2 * Real.pi * (t.turn : ℝ)) := by
    rw [← h1]; simp only [h]; split
    · push_cast; exact cos_turn_one_sub _
    · rfl
  simp only [Term.toReal, Term.valueWith, q, g]
  split
  · push_cast; rw [cos_turn_half_sub, h2]; ring
  · rw [h2]

/-- Inserting a term adds its value. -/
@[simp] theorem termsValue_insertTerm (t : Term) (ts : List Term) :
    termsValue (insertTerm t ts) = t.toReal + termsValue ts := by
  induction ts with
  | nil =>
    unfold insertTerm; split
    · rename_i h; simp [Term.toReal_of_coef_zero h]
    · simp
  | cons u us ih =>
    unfold insertTerm
    split
    · rename_i h; simp [Term.toReal_of_coef_zero h]
    · split
      · rename_i hz ht
        have key : t.toReal + u.toReal = ((t.coef + u.coef : ℚ) : ℝ) *
            Real.cos (2 * Real.pi * (u.turn : ℝ)) * (u.reals.map namedReal).prod := by
          simp only [Term.toReal, Term.valueWith, ht.1, ht.2]; push_cast; ring
        split
        · rename_i h
          rw [h] at key
          simp only [Rat.cast_zero, zero_mul] at key
          rw [termsValue_cons]; linarith
        · rw [termsValue_cons, termsValue_cons, ← add_assoc, key]; rfl
      · split
        · simp
        · rw [termsValue_cons, ih, termsValue_cons]; ring

/-- Bringing a sum of terms to its form keeps its value. -/
@[simp] theorem Sample.toReal_norm (ts : List Term) : (Sample.norm ts).toReal = termsValue ts := by
  show termsValue _ = _
  induction ts with
  | nil => rfl
  | cons t ts ih =>
    show termsValue (insertTerm _ _) = _
    rw [termsValue_insertTerm, Term.toReal_fold, termsValue_cons]
    exact congrArg _ ih

@[simp] theorem Sample.toReal_zero : Sample.zero.toReal = 0 := rfl

@[simp] theorem Sample.toReal_ofRat (q : ℚ) : (Sample.ofRat q).toReal = q := by
  simp [Sample.ofRat, Term.toReal, Term.valueWith]

@[simp] theorem Sample.toReal_ofName (n : ℕ) : (Sample.ofName n).toReal = namedReal n := by
  simp [Sample.ofName, Term.toReal, Term.valueWith]

@[simp] theorem Sample.toReal_add (x y : Sample) : (x.add y).toReal = x.toReal + y.toReal := by
  simp [Sample.add, Sample.toReal_eq x, Sample.toReal_eq y]

theorem termsValue_scale (q : ℚ) (ts : List Term) :
    termsValue (ts.map fun t => ⟨q * t.coef, t.turn, t.reals⟩) = q * termsValue ts := by
  induction ts with
  | nil => simp
  | cons t ts ih => simp [ih, Term.toReal, Term.valueWith]; ring

@[simp] theorem Sample.toReal_scale (q : ℚ) (x : Sample) : (x.scale q).toReal = q * x.toReal := by
  simp [Sample.scale, termsValue_scale, Sample.toReal_eq x]

@[simp] theorem Sample.toReal_neg (x : Sample) : x.neg.toReal = - x.toReal := by
  simp [Sample.neg]

@[simp] theorem Sample.toReal_sub (x y : Sample) : (x.sub y).toReal = x.toReal - y.toReal := by
  simp [Sample.sub, sub_eq_add_neg]

theorem prod_insertName (v : ℕ → ℝ) (n : ℕ) (ms : List ℕ) :
    ((insertName n ms).map v).prod = v n * (ms.map v).prod := by
  induction ms with
  | nil => simp [insertName]
  | cons m ms ih =>
    unfold insertName
    split
    · simp
    · rw [List.map_cons, List.prod_cons, ih, List.map_cons, List.prod_cons, mul_left_comm]

/-- The names of a product stand for the product of the reals. -/
theorem prod_mergeNames (v : ℕ → ℝ) (as bs : List ℕ) :
    ((mergeNames as bs).map v).prod = (as.map v).prod * (bs.map v).prod := by
  induction as with
  | nil => simp [mergeNames]
  | cons a as ih =>
    show ((insertName a (mergeNames as bs)).map v).prod = _
    rw [prod_insertName, ih, List.map_cons, List.prod_cons, mul_assoc]

@[simp] theorem Term.termsValue_mul (a b : Term) : termsValue (a.mul b) = a.toReal * b.toReal := by
  have h : Real.cos (2 * Real.pi * a.turn) * Real.cos (2 * Real.pi * b.turn) =
      (Real.cos (2 * Real.pi * (a.turn - b.turn)) + Real.cos (2 * Real.pi * (a.turn + b.turn))) / 2 := by
    rw [mul_sub, mul_add, Real.cos_sub, Real.cos_add]; ring
  simp only [Term.mul, termsValue_cons, termsValue_nil, Term.toReal, Term.valueWith, add_zero, prod_mergeNames]
  push_cast
  linear_combination
    (-(a.coef : ℝ) * b.coef * (a.reals.map namedReal).prod * (b.reals.map namedReal).prod) * h

theorem termsValue_flatMap_mul (a : Term) (bs : List Term) :
    termsValue (bs.flatMap fun b => a.mul b) = a.toReal * termsValue bs := by
  induction bs with
  | nil => simp
  | cons b bs ih => simp [ih, mul_add]

@[simp] theorem Sample.toReal_mul (x y : Sample) : (x.mul y).toReal = x.toReal * y.toReal := by
  have : ∀ as : List Term, termsValue (as.flatMap fun a => y.terms.flatMap fun b => a.mul b)
      = termsValue as * termsValue y.terms := by
    intro as
    induction as with
    | nil => simp
    | cons a as ih => simp [ih, termsValue_flatMap_mul, add_mul]
  simp [Sample.mul, this, Sample.toReal_eq x, Sample.toReal_eq y]

@[simp] theorem Sample.toReal_sum (xs : List Sample) :
    (Sample.sum xs).toReal = (xs.map Sample.toReal).sum := by
  have : ∀ xs : List Sample, termsValue (xs.flatMap Sample.terms) = (xs.map Sample.toReal).sum := by
    intro xs
    induction xs with
    | nil => rfl
    | cons x xs ih => simp [ih, Sample.toReal_eq x]
  simp [Sample.sum, this]

@[simp] theorem Sample.toReal_mean (xs : List Sample) :
    (Sample.mean xs).toReal = (xs.map Sample.toReal).sum / xs.length := by
  simp [Sample.mean]; ring

@[simp] theorem Sample.toReal_cosTurn (r : ℚ) :
    (Sample.cosTurn r).toReal = Real.cos (2 * Real.pi * r) := by
  simp [Sample.cosTurn, Term.toReal, Term.valueWith]

@[simp] theorem Sample.toReal_sinTurn (r : ℚ) :
    (Sample.sinTurn r).toReal = Real.sin (2 * Real.pi * r) := by
  have : Real.cos (2 * Real.pi * (r - 1 / 4)) = Real.sin (2 * Real.pi * r) := by
    rw [mul_sub, show 2 * Real.pi * (1 / 4 : ℝ) = Real.pi / 2 by ring, Real.cos_sub_pi_div_two]
  simp only [Sample.sinTurn, Sample.toReal_norm, termsValue_cons, termsValue_nil, Term.toReal, Term.valueWith]
  push_cast
  rw [this]; simp

@[simp] theorem Sample.toReal_invSqrtTwo : Sample.invSqrtTwo.toReal = 1 / Real.sqrt 2 := by
  rw [Sample.invSqrtTwo, Sample.toReal_cosTurn]
  push_cast
  rw [show 2 * Real.pi * (1 / 8 : ℝ) = Real.pi / 4 by ring, Real.cos_pi_div_four]
  have : Real.sqrt 2 ≠ 0 := by positivity
  field_simp
  exact Real.sq_sqrt (by norm_num)

end Sys2Proof
end

