-- ==== Sys2Proof/Laws/NamedReals.lean ====
section
/-! SUPPORT. Named reals: a choice of signs is a choice of real numbers, and every choice of real numbers
is one, so what is proved of `Config.namedReals` holds whatever reals arrive (R10, R58). -/

namespace Sys2Proof

/-- The signs are either all absent, and every name stands for 0, or those of the samples' values. -/
theorem Config.NamedReals.sign?_cases (r : Config.NamedReals) (x : Sample) :
    (r.sign? x = none ∧ r.real = 0) ∨ r.sign? x = some (SignType.sign (x.valueWith r.real)) := by
  by_cases h : ∃ v : ℕ → ℝ, ∀ x, r.sign? x = some (SignType.sign (x.valueWith v))
  · right
    have e : r.real = h.choose := dif_pos h
    rw [e]; exact h.choose_spec x
  · exact .inl ⟨r.exact.resolve_right h x, dif_neg h⟩

/-- The sample `n - q` is where the name `n` stands above, at or below the rational `q`. -/
theorem Sample.valueWith_name_sub (v : ℕ → ℝ) (n : ℕ) (q : ℚ) :
    (⟨[⟨1, 0, [n]⟩, ⟨-q, 0, []⟩]⟩ : Sample).valueWith v = v n - q := by
  simp [Sample.valueWith, Term.valueWith, sub_eq_add_neg]

/-- The signs of all samples determine the real numbers. -/
theorem valuation_eq_of_signs {v w : ℕ → ℝ}
    (h : ∀ x : Sample, SignType.sign (x.valueWith v) = SignType.sign (x.valueWith w)) : v = w := by
  funext n
  by_contra hne
  wlog hlt : v n < w n generalizing v w
  · exact this (fun x => (h x).symm) (Ne.symm hne) (lt_of_le_of_ne (not_lt.1 hlt) (Ne.symm hne))
  obtain ⟨q, hv, hw⟩ := exists_rat_btwn hlt
  have e := h ⟨[⟨1, 0, [n]⟩, ⟨-q, 0, []⟩]⟩
  rw [Sample.valueWith_name_sub, Sample.valueWith_name_sub, sign_neg (sub_neg.2 hv),
    sign_pos (sub_pos.2 hw)] at e
  cases e

/-- Every choice of real numbers is one that `Config.namedReals` may be. -/
theorem Config.NamedReals.exists_real_eq (v : ℕ → ℝ) : ∃ r : Config.NamedReals, r.real = v := by
  let r : Config.NamedReals :=
    ⟨fun x => some (SignType.sign (x.valueWith v)), .inr ⟨v, fun _ => rfl⟩⟩
  refine ⟨r, valuation_eq_of_signs fun x => ?_⟩
  rcases r.sign?_cases x with ⟨e, -⟩ | e
  · cases e
  · exact (Option.some.inj e).symm

end Sys2Proof
end

