-- ==== Sys2Proof/Laws/SampleSign.lean ====
section
/-! SUPPORT. The sign of a sample is the sign of the real number it is (R10: comparisons are exact). -/

namespace Sys2Proof

open Finset

/-! ## Approximations of π and of the cosine -/

/-- The remainder of a series that a geometric one bounds from index `m` on. -/
theorem tail_le_geometric {f : ℕ → ℝ} {a c r : ℝ} (h : HasSum f a) (m : ℕ) (r0 : 0 ≤ r) (r1 : r < 1)
    (hb : ∀ n, |f (n + m)| ≤ c * r ^ n) : |a - ∑ i ∈ range m, f i| ≤ c / (1 - r) := by
  have h1 : HasSum (fun n => f (n + m)) (a - ∑ i ∈ range m, f i) := (hasSum_nat_add_iff' m).2 h
  have h2 : HasSum (fun n => c * r ^ n) (c * (1 - r)⁻¹) := (hasSum_geometric_of_lt_one r0 r1).mul_left c
  simpa [div_eq_mul_inv] using h1.norm_le_of_bounded h2 hb

theorem cast_atanSum (x : ℚ) (m : ℕ) :
    ((atanSum x m : ℚ) : ℝ) = ∑ i ∈ range m, (-1) ^ i * (x : ℝ) ^ (2 * i + 1) / ((2 * i + 1 : ℕ) : ℝ) := by
  induction m with
  | zero => simp [atanSum]
  | succ m ih => rw [atanSum, sum_range_succ, ← ih]; push_cast; ring

theorem abs_arctan_sub_atanSum_le (x : ℚ) (x0 : 0 < x) (x1 : x ≤ 1 / 5) (m : ℕ) :
    |Real.arctan x - atanSum x m| ≤ (1 / 4) * (1 / 25) ^ m := by
  have X0 : (0 : ℝ) < x := by exact_mod_cast x0
  have X1 : (x : ℝ) ≤ 1 / 5 := by have : ((x : ℚ) : ℝ) ≤ ((1 / 5 : ℚ) : ℝ) := by exact_mod_cast x1
                                  simpa using this
  have hs := Real.hasSum_arctan (x := (x : ℝ)) (by rw [Real.norm_eq_abs, abs_of_pos X0]; linarith)
  rw [cast_atanSum]
  have hb : ∀ n, |(-1) ^ (n + m) * (x : ℝ) ^ (2 * (n + m) + 1) / ((2 * (n + m) + 1 : ℕ) : ℝ)| ≤
      (1 / 5 * (1 / 25) ^ m) * (1 / 25 : ℝ) ^ n := by
    intro n
    rw [abs_div, abs_mul, abs_pow, abs_neg, abs_one, one_pow, one_mul, abs_pow, abs_of_pos X0, Nat.abs_cast]
    have h1 : (1 : ℝ) ≤ ((2 * (n + m) + 1 : ℕ) : ℝ) := by exact_mod_cast Nat.le_add_left _ _
    have h2 : (x : ℝ) ^ (2 * (n + m) + 1) ≤ (1 / 5 : ℝ) ^ (2 * (n + m) + 1) :=
      pow_le_pow_left₀ X0.le X1 _
    have h3 : (1 / 5 : ℝ) ^ (2 * (n + m) + 1) = (1 / 5 * (1 / 25) ^ m) * (1 / 25 : ℝ) ^ n := by
      rw [pow_succ, pow_mul, pow_add]; norm_num; ring
    calc _ ≤ (x : ℝ) ^ (2 * (n + m) + 1) := div_le_self (by positivity) h1
      _ ≤ _ := by rw [← h3]; exact h2
  refine (tail_le_geometric hs m (by norm_num) (by norm_num) hb).trans ?_
  have : (0 : ℝ) < (1 / 25) ^ m := by positivity
  rw [div_le_iff₀ (by norm_num)]
  linarith

theorem abs_pi_sub_piApprox_le (p : ℕ) : |Real.pi - piApprox p| ≤ 1 / 2 ^ p := by
  set m := p / 4 + 2 with hm
  set q : ℚ := 16 * atanSum (1 / 5) m - 4 * atanSum (1 / 239) m with hq
  have h1 := abs_arctan_sub_atanSum_le (1 / 5) (by norm_num) (by norm_num) m
  have h2 := abs_arctan_sub_atanSum_le (1 / 239) (by norm_num) (by norm_num) m
  have h3 := Real.four_mul_arctan_inv_5_sub_arctan_inv_239
  push_cast at h1 h2
  rw [one_div] at h1 h2
  simp only [one_div] at h1 h2 ⊢
  have hpow : (25⁻¹ : ℝ) ^ m ≤ (2⁻¹) ^ (p + 5) := by
    calc (25⁻¹ : ℝ) ^ m ≤ (16⁻¹ : ℝ) ^ m := pow_le_pow_left₀ (by norm_num) (by norm_num) _
      _ = (2⁻¹ : ℝ) ^ (4 * m) := by rw [pow_mul]; norm_num
      _ ≤ _ := pow_le_pow_of_le_one (by norm_num) (by norm_num) (by omega)
  have hp : (2⁻¹ : ℝ) ^ (p + 5) = (2 ^ p)⁻¹ / 32 := by rw [pow_add, inv_pow]; norm_num; ring
  have hQ : |Real.pi - (q : ℝ)| ≤ (2 ^ p)⁻¹ / 4 := by
    rw [hq]; push_cast; simp only [one_div]
    rw [abs_le] at h1 h2 ⊢
    constructor <;> linarith [h1.1, h1.2, h2.1, h2.2]
  have hfl : |(q : ℝ) - piApprox p| ≤ (2 ^ p)⁻¹ / 8 := by
    have e : piApprox p = (((q * 2 ^ (p + 3)).floor : ℤ) : ℚ) / 2 ^ (p + 3) := by rw [piApprox]
    have hlo : (((q * 2 ^ (p + 3)).floor : ℤ) : ℚ) ≤ q * 2 ^ (p + 3) := Rat.floor_le _
    have hhi : q * 2 ^ (p + 3) < (((q * 2 ^ (p + 3)).floor : ℤ) : ℚ) + 1 := by
      have := Rat.lt_floor (x := q * 2 ^ (p + 3)); linarith
    have hlo' : ((((q * 2 ^ (p + 3)).floor : ℤ) : ℚ) : ℝ) ≤ ((q * 2 ^ (p + 3) : ℚ) : ℝ) := by exact_mod_cast hlo
    have hhi' : ((q * 2 ^ (p + 3) : ℚ) : ℝ) < (((((q * 2 ^ (p + 3)).floor : ℤ) : ℚ) + 1 : ℚ) : ℝ) := by
      exact_mod_cast hhi
    rw [e]
    push_cast at hlo' hhi' ⊢
    have P : (0 : ℝ) < 2 ^ (p + 3) := by positivity
    have e2 : (q : ℝ) - (((q * 2 ^ (p + 3)).floor : ℤ) : ℝ) / 2 ^ (p + 3) =
        (q * 2 ^ (p + 3) - (((q * 2 ^ (p + 3)).floor : ℤ) : ℝ)) / 2 ^ (p + 3) := by field_simp
    rw [e2, abs_div, abs_of_pos P, abs_of_nonneg (by linarith)]
    have e3 : ((2 : ℝ) ^ p)⁻¹ / 8 = 1 / 2 ^ (p + 3) := by rw [pow_add]; norm_num; ring
    rw [e3]
    exact div_le_div_of_nonneg_right (by linarith) P.le
  have hpos : (0 : ℝ) < (2 ^ p)⁻¹ := by positivity
  have := abs_sub_le Real.pi q (piApprox p)
  linarith

theorem cast_cosSum (y : ℚ) (m : ℕ) :
    ((cosSum y m : ℚ) : ℝ) = ∑ i ∈ range m, (-1) ^ i * (y : ℝ) ^ i / ((2 * i).factorial : ℝ) := by
  induction m with
  | zero => simp [cosSum]
  | succ m ih => rw [cosSum, sum_range_succ, ← ih]; push_cast; ring

theorem four_pow_div_factorial_le (n : ℕ) (hn : 1 ≤ n) :
    (4 : ℝ) ^ n / ((2 * n).factorial : ℝ) ≤ 6 * (1 / 3) ^ n := by
  induction n, hn using Nat.le_induction with
  | base => norm_num [Nat.factorial]
  | succ n hn ih =>
    have e : ((2 * (n + 1)).factorial : ℝ) = (2 * n + 2) * (2 * n + 1) * ((2 * n).factorial : ℝ) := by
      rw [show 2 * (n + 1) = 2 * n + 1 + 1 by ring, Nat.factorial_succ, Nat.factorial_succ]
      push_cast; ring
    have N : (1 : ℝ) ≤ n := by exact_mod_cast hn
    have F : (0 : ℝ) < ((2 * n).factorial : ℝ) := by positivity
    have e2 : (4 : ℝ) ^ (n + 1) / ((2 * (n + 1)).factorial : ℝ) =
        (4 ^ n / ((2 * n).factorial : ℝ)) * (4 / ((2 * n + 2) * (2 * n + 1))) := by
      rw [e, pow_succ]; field_simp
    have h12 : (4 : ℝ) / ((2 * n + 2) * (2 * n + 1)) ≤ 1 / 3 := by
      rw [div_le_div_iff₀ (by positivity) (by norm_num)]; nlinarith
    rw [e2]
    calc _ ≤ (6 * (1 / 3) ^ n) * (1 / 3 : ℝ) := mul_le_mul ih h12 (by positivity) (by positivity)
      _ = _ := by rw [pow_succ]; ring

theorem abs_cos_sub_cosSum_le (x : ℚ) (hx : |x| ≤ 2) (m : ℕ) (hm : 1 ≤ m) :
    |Real.cos x - cosSum (x * x) m| ≤ 9 * (1 / 3) ^ m := by
  have hs := Real.hasSum_cos (x : ℝ)
  have hy : (x : ℝ) ^ 2 ≤ 4 := by
    have : ((|x| : ℚ) : ℝ) ≤ ((2 : ℚ) : ℝ) := by exact_mod_cast hx
    push_cast at this
    nlinarith [abs_nonneg (x : ℝ), sq_abs (x : ℝ)]
  have hb : ∀ n, |(-1) ^ (n + m) * (x : ℝ) ^ (2 * (n + m)) / ((2 * (n + m)).factorial : ℝ)| ≤
      (6 * (1 / 3) ^ m) * (1 / 3 : ℝ) ^ n := by
    intro n
    have F : (0 : ℝ) < ((2 * (n + m)).factorial : ℝ) := by positivity
    rw [abs_div, abs_mul, abs_pow, abs_neg, abs_one, one_pow, one_mul, pow_mul, abs_pow,
      abs_of_nonneg (sq_nonneg _), abs_of_pos F]
    calc _ ≤ (4 : ℝ) ^ (n + m) / ((2 * (n + m)).factorial : ℝ) :=
          div_le_div_of_nonneg_right (pow_le_pow_left₀ (sq_nonneg _) hy _) F.le
      _ ≤ 6 * (1 / 3) ^ (n + m) := four_pow_div_factorial_le _ (by omega)
      _ = _ := by rw [pow_add]; ring
  have h := tail_le_geometric hs m (by norm_num) (by norm_num) hb
  have e : ((cosSum (x * x) m : ℚ) : ℝ) =
      ∑ i ∈ range m, (-1) ^ i * (x : ℝ) ^ (2 * i) / ((2 * i).factorial : ℝ) := by
    rw [cast_cosSum]; refine sum_congr rfl fun i _ => ?_
    push_cast; rw [pow_mul, sq]
  rw [e]
  refine h.trans ?_
  have : (0 : ℝ) < (1 / 3) ^ m := by positivity
  rw [div_le_iff₀ (by norm_num)]
  linarith

theorem abs_cos_sub_cosApprox_le {p : ℕ} (hp : 1 ≤ p) {pi : ℚ} (hpi : |Real.pi - pi| ≤ 1 / 2 ^ p)
    {r : ℚ} (r0 : 0 ≤ r) (r1 : r ≤ 1 / 4) :
    |Real.cos (2 * Real.pi * r) - cosApprox pi p r| ≤ 1 / 2 ^ p := by
  have R0 : (0 : ℝ) ≤ r := by exact_mod_cast r0
  have R1 : (r : ℝ) ≤ 1 / 4 := by
    have : ((r : ℚ) : ℝ) ≤ ((1 / 4 : ℚ) : ℝ) := by exact_mod_cast r1
    simpa using this
  have P : (0 : ℝ) < 1 / 2 ^ p := by positivity
  have P2 : (1 : ℝ) / 2 ^ p ≤ 1 / 2 := by
    apply one_div_le_one_div_of_le (by norm_num)
    calc (2 : ℝ) = 2 ^ 1 := by norm_num
      _ ≤ 2 ^ p := pow_le_pow_right₀ (by norm_num) hp
  rw [abs_le] at hpi
  have pi3 := Real.pi_gt_three
  have pi315 := Real.pi_lt_d2
  set x : ℚ := 2 * r * pi with hxdef
  have hxR : (x : ℝ) = 2 * r * pi := by rw [hxdef]; push_cast; ring
  have hx : |x| ≤ 2 := by
    have : |(x : ℝ)| ≤ 2 := by
      rw [hxR, abs_le]
      constructor <;> nlinarith
    exact_mod_cast this
  have h1 := abs_cos_sub_cosSum_le x hx (p + 4) (by omega)
  have h2 : |Real.cos (2 * Real.pi * r) - Real.cos x| ≤ (1 / 2 ^ p) / 2 := by
    refine (Real.abs_cos_sub_cos_le _ _).trans ?_
    rw [hxR, show 2 * Real.pi * r - 2 * r * pi = (2 * r) * (Real.pi - pi) by ring, abs_mul,
      abs_of_nonneg (by linarith)]
    have : |Real.pi - (pi : ℝ)| ≤ 1 / 2 ^ p := abs_le.2 hpi
    nlinarith [abs_nonneg (Real.pi - (pi : ℝ))]
  have h3 : (9 : ℝ) * (1 / 3) ^ (p + 4) ≤ (1 / 2 ^ p) / 2 := by
    have : (1 / 3 : ℝ) ^ p ≤ 1 / 2 ^ p := by
      rw [one_div_pow]
      exact one_div_le_one_div_of_le (by positivity) (pow_le_pow_left₀ (by norm_num) (by norm_num) _)
    have h0 : (0 : ℝ) < (2 ^ p)⁻¹ := by positivity
    rw [pow_add]; norm_num at this ⊢; linarith
  have h4 : cosApprox pi p r = cosSum (x * x) (p + 4) := rfl
  rw [h4]
  have := abs_sub_le (Real.cos (2 * Real.pi * r)) (Real.cos x) (cosSum (x * x) (p + 4))
  linarith

/-! ## How small a sum of cosines can be -/

/-- A sum of whole multiples of `η^k + η^(-k)` for a root of unity `η`. -/
def rootSum {K : Type*} [Field K] (η : K) (l : List (ℤ × ℤ)) : K :=
  (l.map fun c => (c.1 : K) * (η ^ c.2 + η ^ (-c.2))).sum

/-- Twice the sum of the sizes of the multipliers. -/
def rootSize (l : List (ℤ × ℤ)) : ℕ := (l.map fun c => 2 * c.1.natAbs).sum

theorem norm_rootSum_le {η : ℂ} (h : ‖η‖ = 1) (l : List (ℤ × ℤ)) : ‖rootSum η l‖ ≤ rootSize l := by
  induction l with
  | nil => simp [rootSum, rootSize]
  | cons c l ih =>
    have e1 : rootSum η (c :: l) = (c.1 : ℂ) * (η ^ c.2 + η ^ (-c.2)) + rootSum η l := by
      simp [rootSum]
    have e2 : ((rootSize (c :: l) : ℕ) : ℝ) = 2 * |(c.1 : ℝ)| + rootSize l := by
      simp [rootSize, Nat.cast_natAbs]
    rw [e1, e2]
    have h1 : ‖η ^ c.2 + η ^ (-c.2)‖ ≤ 2 := by
      refine (norm_add_le _ _).trans ?_
      rw [norm_zpow, norm_zpow, h]; norm_num
    have h2 : ‖(c.1 : ℂ)‖ = |(c.1 : ℝ)| := by simp
    refine (norm_add_le _ _).trans ?_
    rw [norm_mul, h2]
    nlinarith [abs_nonneg (c.1 : ℝ)]

theorem map_rootSum {K L F : Type*} [Field K] [Field L] [FunLike F K L] [RingHomClass F K L] (f : F) (η : K)
    (l : List (ℤ × ℤ)) : f (rootSum η l) = rootSum (f η) l := by
  simp [rootSum, map_list_sum, Function.comp_def]

theorem isIntegral_rootSum {K : Type*} [Field K] {η : K} (h : IsIntegral ℤ η) (h' : IsIntegral ℤ η⁻¹)
    (l : List (ℤ × ℤ)) : IsIntegral ℤ (rootSum η l) := by
  have hz : ∀ k : ℤ, IsIntegral ℤ (η ^ k) := by
    intro k
    obtain ⟨n, rfl | rfl⟩ := k.eq_nat_or_neg
    · simpa using h.pow n
    · simpa using h'.pow n
  induction l with
  | nil => simpa [rootSum] using isIntegral_zero
  | cons c l ih =>
    have : rootSum η (c :: l) = (c.1 : K) * (η ^ c.2 + η ^ (-c.2)) + rootSum η l := by simp [rootSum]
    rw [this]
    exact ((isIntegral_algebraMap (x := c.1)).mul ((hz _).add (hz _))).add ih

/-- A nonzero whole combination of powers of an `n`th root of unity is not small: the product of its
conjugates is a whole number, and each conjugate is at most the size of the combination. -/
theorem one_le_norm_rootSum {n : ℕ} (hn : 0 < n) {ζ : ℂ} (hζ : IsPrimitiveRoot ζ n) (l : List (ℤ × ℤ))
    (h0 : rootSum ζ l ≠ 0) : 1 ≤ ‖rootSum ζ l‖ * (rootSize l : ℝ) ^ n := by
  classical
  have : NeZero n := ⟨hn.ne'⟩
  let K := CyclotomicField n ℚ
  have : NeZero ((n : ℕ) : ℚ) := ⟨by exact_mod_cast hn.ne'⟩
  have : IsCyclotomicExtension {n} ℚ K := CyclotomicField.isCyclotomicExtension n ℚ
  let η : K := IsCyclotomicExtension.zeta n ℚ K
  have hη : IsPrimitiveRoot η n := IsCyclotomicExtension.zeta_spec n ℚ K
  have irr : Irreducible (Polynomial.cyclotomic n ℚ) := Polynomial.cyclotomic.irreducible_rat hn
  let e := hη.embeddingsEquivPrimitiveRoots ℂ irr
  let σ₀ : K →ₐ[ℚ] ℂ := e.symm ⟨ζ, (mem_primitiveRoots hn).2 hζ⟩
  have hσ₀ : σ₀ η = ζ := by
    have := e.apply_symm_apply ⟨ζ, (mem_primitiveRoots hn).2 hζ⟩
    exact congrArg Subtype.val this
  set a : K := rootSum η l with ha
  have hσ : ∀ σ : K →ₐ[ℚ] ℂ, ‖σ a‖ ≤ rootSize l := by
    intro σ
    rw [ha, map_rootSum]
    exact norm_rootSum_le (IsPrimitiveRoot.norm'_eq_one (hη.map_of_injective σ.injective) hn.ne') l
  have ha0 : σ₀ a = rootSum ζ l := by rw [ha, map_rootSum, hσ₀]
  have hane : a ≠ 0 := by
    intro h; rw [h, map_zero] at ha0; exact h0 ha0.symm
  have : FiniteDimensional ℚ K := IsCyclotomicExtension.finiteDimensional {n} ℚ K
  have hint : IsIntegral ℤ a := by
    refine isIntegral_rootSum (hη.isIntegral hn) ?_ l
    exact hη.inv.isIntegral hn
  have hnorm : 1 ≤ ‖((Algebra.norm ℚ a : ℚ) : ℂ)‖ := by
    have hi := Algebra.isIntegral_norm ℚ hint
    obtain ⟨z, hz⟩ := IsIntegrallyClosed.isIntegral_iff.1 hi
    have hz0 : z ≠ 0 := by
      rintro rfl
      simp at hz
      exact hane (Algebra.norm_eq_zero_iff.1 hz.symm)
    rw [← hz]
    simp
    exact_mod_cast Int.one_le_abs hz0
  have hprod : ((Algebra.norm ℚ a : ℚ) : ℂ) = ∏ σ : K →ₐ[ℚ] ℂ, σ a := by
    simpa using Algebra.norm_eq_prod_embeddings ℚ ℂ a
  have hS : (1 : ℝ) ≤ rootSize l := by
    have : 0 < rootSize l := by
      by_contra h
      have : (rootSize l : ℝ) = 0 := by exact_mod_cast Nat.le_zero.1 (not_lt.1 h)
      have h1 := hσ σ₀
      rw [this, ha0] at h1
      exact h0 (norm_le_zero_iff.1 h1)
    exact_mod_cast this
  have hcard : Fintype.card (K →ₐ[ℚ] ℂ) ≤ n := by
    rw [Fintype.card_congr e, Fintype.card_coe, Complex.card_primitiveRoots]
    exact Nat.totient_le n
  rw [hprod, ← Finset.mul_prod_erase _ _ (Finset.mem_univ σ₀), norm_mul, ha0, norm_prod] at hnorm
  refine hnorm.trans (mul_le_mul_of_nonneg_left ?_ (norm_nonneg _))
  calc _ ≤ ∏ _σ ∈ Finset.univ.erase σ₀, (rootSize l : ℝ) :=
        Finset.prod_le_prod (fun _ _ => norm_nonneg _) (fun σ _ => hσ σ)
    _ = (rootSize l : ℝ) ^ (Finset.univ.erase σ₀).card := by rw [Finset.prod_const]
    _ ≤ _ := pow_le_pow_right₀ hS (by
        refine (Finset.card_le_card (Finset.erase_subset _ _)).trans ?_
        simpa using hcard)

/-! ## The sign -/

/-- Every turn lies in `[0, 1/4)`. -/
def Folded (ts : List Term) : Prop := ∀ t ∈ ts, 0 ≤ t.turn ∧ t.turn < 1 / 4

/-- No term holds a named real. -/
def Closed (ts : List Term) : Prop := ∀ t ∈ ts, t.reals = []

theorem Term.toReal_of_closed {t : Term} (h : t.reals = []) :
    t.toReal = t.coef * Real.cos (2 * Real.pi * t.turn) := by
  simp [Term.toReal, Term.valueWith, h]

theorem closed_filter (ts : List Term) : Closed (ts.filter Term.closed) := fun t h => by
  simpa [Term.closed] using (List.mem_filter.1 h).2

theorem folded_nil : Folded [] := by simp [Folded]

theorem Term.fold_turn (t : Term) : 0 ≤ t.fold.turn ∧ t.fold.turn < 1 / 4 := by
  unfold Term.fold
  extract_lets f h q g
  have f0 : 0 ≤ f := by simp only [f]; linarith [Rat.floor_le t.turn]
  have f1 : f < 1 := by simp only [f]; linarith [Rat.lt_floor (x := t.turn)]
  have h0 : 0 ≤ h ∧ h ≤ 1 / 2 := by
    simp only [h]; split
    · exact ⟨by linarith, by linarith⟩
    · rename_i e; exact ⟨f0, by linarith⟩
  have g0 : 0 ≤ g ∧ g ≤ 1 / 4 := by
    simp only [g]; split
    · rename_i e; exact ⟨by linarith [h0.2], by linarith⟩
    · rename_i e; exact ⟨h0.1, by linarith⟩
  split
  · norm_num
  · split
    · norm_num
    · rename_i e _
      exact ⟨g0.1, lt_of_le_of_ne g0.2 e⟩

theorem folded_insertTerm {t : Term} {ts : List Term} (h : 0 ≤ t.turn ∧ t.turn < 1 / 4) (hs : Folded ts) :
    Folded (insertTerm t ts) := by
  induction ts with
  | nil =>
    unfold insertTerm; split
    · exact folded_nil
    · intro x hx
      rw [List.mem_singleton.1 hx]; exact h
  | cons u us ih =>
    have hu := hs u (by simp)
    have hus : Folded us := fun x hx => hs x (by simp [hx])
    unfold insertTerm
    split
    · exact hs
    · split
      · split
        · exact hus
        · intro x hx
          rcases List.mem_cons.1 hx with rfl | hx
          · exact hu
          · exact hus x hx
      · split
        · intro x hx
          rcases List.mem_cons.1 hx with rfl | hx
          · exact h
          · exact hs x hx
        · intro x hx
          rcases List.mem_cons.1 hx with rfl | hx
          · exact hu
          · exact ih hus x hx

theorem folded_norm (ts : List Term) : Folded (Sample.norm ts).terms := by
  induction ts with
  | nil => exact folded_nil
  | cons t ts ih => exact folded_insertTerm t.fold_turn ih

theorem abs_termsValue_sub_approxSum_le {p : ℕ} (hp : 1 ≤ p) {ts : List Term} (h : Folded ts)
    (hz : Closed ts) : |termsValue ts - approxSum (piApprox p) p ts| ≤ coefSize ts / 2 ^ p := by
  induction ts with
  | nil => simp [approxSum, coefSize]
  | cons t ts ih =>
    have ht := h t (by simp)
    have i := ih (fun x hx => h x (by simp [hx])) fun x hx => hz x (by simp [hx])
    have c := abs_cos_sub_cosApprox_le hp (abs_pi_sub_piApprox_le p) ht.1 ht.2.le
    have e1 : ((approxSum (piApprox p) p (t :: ts) : ℚ) : ℝ) =
        t.coef * cosApprox (piApprox p) p t.turn + approxSum (piApprox p) p ts := by
      simp [approxSum]
    have e2 : ((coefSize (t :: ts) : ℚ) : ℝ) = |(t.coef : ℝ)| + coefSize ts := by simp [coefSize]
    rw [e1, e2, termsValue_cons]
    have e3 : t.toReal + termsValue ts - (t.coef * cosApprox (piApprox p) p t.turn + approxSum (piApprox p) p ts) =
        t.coef * (Real.cos (2 * Real.pi * t.turn) - cosApprox (piApprox p) p t.turn) +
        (termsValue ts - approxSum (piApprox p) p ts) := by
      rw [Term.toReal_of_closed (hz t (by simp))]; ring
    rw [e3, add_div]
    refine (abs_add_le _ _).trans (add_le_add ?_ i)
    rw [abs_mul, div_eq_mul_one_div]
    exact mul_le_mul_of_nonneg_left c (abs_nonneg _)

/-- What `signAt` shows is so. -/
theorem signAt_sound {p : ℕ} (hp : 1 ≤ p) {ts : List Term} (h : Folded ts) (hz : Closed ts) :
    (signAt p ts = 1 → 0 < termsValue ts) ∧ (signAt p ts = -1 → termsValue ts < 0) ∧
      (signAt p ts = 0 → |termsValue ts| ≤ 2 * (coefSize ts / 2 ^ p)) ∧
      (signAt p ts = 1 ∨ signAt p ts = -1 ∨ signAt p ts = 0) := by
  have key := abs_termsValue_sub_approxSum_le hp h hz
  rw [abs_le] at key
  unfold signAt
  extract_lets v e
  have ev : ((e : ℚ) : ℝ) = coefSize ts / 2 ^ p := by simp [e]
  rw [← ev] at key ⊢
  split
  · rename_i c
    have : ((e : ℚ) : ℝ) < v := by exact_mod_cast c
    exact ⟨fun _ => by linarith [key.1], by simp, by simp, by simp⟩
  · split
    · rename_i c
      have : ((v : ℚ) : ℝ) < -e := by exact_mod_cast c
      exact ⟨by simp, fun _ => by linarith [key.2], by simp, by simp⟩
    · rename_i c1 c2
      have h1 : ((v : ℚ) : ℝ) ≤ e := by exact_mod_cast not_lt.1 c1
      have h2 : -((e : ℚ) : ℝ) ≤ v := by exact_mod_cast not_lt.1 c2
      refine ⟨by simp, by simp, fun _ => ?_, by simp⟩
      rw [abs_le]; constructor <;> linarith [key.1, key.2]

theorem den_dvd_denLcm {q : ℚ} {qs : List ℚ} (h : q ∈ qs) : q.den ∣ denLcm qs := by
  induction qs with
  | nil => simp at h
  | cons a qs ih =>
    rcases List.mem_cons.1 h with rfl | h
    · exact Nat.dvd_lcm_left _ _
    · exact (ih h).trans (Nat.dvd_lcm_right _ _)

theorem denLcm_pos (qs : List ℚ) : 0 < denLcm qs := by
  induction qs with
  | nil => simp [denLcm]
  | cons a qs ih => exact Nat.lcm_pos a.den_pos ih

theorem num_mul_of_den_dvd {q : ℚ} {d : ℕ} (h : q.den ∣ d) : (((q * d).num : ℤ) : ℚ) = q * d := by
  obtain ⟨k, rfl⟩ := h
  have : q * ((q.den * k : ℕ) : ℚ) = ((q.num * k : ℤ) : ℚ) := by
    push_cast
    rw [← mul_assoc, Rat.mul_den_eq_num]
  rw [this, Rat.num_intCast]

/-- The whole combination of powers of `exp (2πi/n)` that is `2 d` times a sum of terms. -/
def rootForm (n d : ℕ) (ts : List Term) : List (ℤ × ℤ) :=
  ts.map fun t => ((t.coef * (d : ℚ)).num, (t.turn * (n : ℚ)).num)

theorem rootSum_rootForm {n d : ℕ} (hn : 0 < n) {ts : List Term} (hz : Closed ts)
    (hc : ∀ t ∈ ts, t.coef.den ∣ d) (ht : ∀ t ∈ ts, t.turn.den ∣ n) :
    rootSum (Complex.exp (2 * Real.pi * Complex.I / n)) (rootForm n d ts) = ((2 * d * termsValue ts : ℝ) : ℂ) := by
  induction ts with
  | nil => simp [rootSum, rootForm]
  | cons t ts ih =>
    have i := ih (fun x hx => hz x (by simp [hx])) (fun x hx => hc x (by simp [hx])) fun x hx => ht x (by simp [hx])
    have e1 : rootSum (Complex.exp (2 * Real.pi * Complex.I / n)) (rootForm n d (t :: ts)) =
        (((t.coef * d).num : ℤ) : ℂ) * (Complex.exp (2 * Real.pi * Complex.I / n) ^ (t.turn * n).num
          + Complex.exp (2 * Real.pi * Complex.I / n) ^ (-(t.turn * n).num)) +
        rootSum (Complex.exp (2 * Real.pi * Complex.I / n)) (rootForm n d ts) := by
      simp [rootSum, rootForm]
    have c1 : (((t.coef * d).num : ℤ) : ℂ) = (t.coef : ℂ) * d := by
      exact_mod_cast congrArg (fun q : ℚ => (q : ℂ)) (num_mul_of_den_dvd (hc t (by simp)))
    have c2 : (((t.turn * n).num : ℤ) : ℂ) = (t.turn : ℂ) * n := by
      exact_mod_cast congrArg (fun q : ℚ => (q : ℂ)) (num_mul_of_den_dvd (ht t (by simp)))
    have hn' : (n : ℂ) ≠ 0 := by exact_mod_cast hn.ne'
    have e2 : Complex.exp (2 * Real.pi * Complex.I / n) ^ (t.turn * n).num
          + Complex.exp (2 * Real.pi * Complex.I / n) ^ (-(t.turn * n).num) =
        2 * Complex.cos (2 * Real.pi * t.turn) := by
      rw [← Complex.exp_int_mul, ← Complex.exp_int_mul, Complex.two_cos]
      push_cast
      rw [c2]
      congr 2
      · field_simp
      · field_simp
    rw [e1, i, e2, c1, termsValue_cons, Term.toReal_of_closed (hz t (by simp))]
    push_cast
    ring

theorem rootSize_rootForm {n d : ℕ} {ts : List Term} (hc : ∀ t ∈ ts, t.coef.den ∣ d) :
    ((rootSize (rootForm n d ts) : ℕ) : ℚ) = 2 * (coefSize ts * d) := by
  induction ts with
  | nil => simp [rootSize, rootForm, coefSize]
  | cons t ts ih =>
    have i := ih fun x hx => hc x (by simp [hx])
    have e : rootSize (rootForm n d (t :: ts)) = 2 * (t.coef * d).num.natAbs + rootSize (rootForm n d ts) := by
      simp [rootSize, rootForm]
    have c : (((t.coef * d).num.natAbs : ℕ) : ℚ) = |t.coef| * d := by
      rw [Nat.cast_natAbs, Int.cast_abs, num_mul_of_den_dvd (hc t (by simp)), abs_mul, Nat.abs_cast]
    rw [e]; push_cast
    rw [i, c]; simp [coefSize]; ring

/-- A sum of terms that is not 0 is larger than what `finePrecision` leaves open. -/
theorem lt_abs_termsValue {ts : List Term} (hz : Closed ts) (h : termsValue ts ≠ 0) :
    2 * ((coefSize ts : ℝ) / 2 ^ finePrecision ts) < |termsValue ts| := by
  set n := denLcm (ts.map Term.turn) with hn
  set d := denLcm (ts.map Term.coef) with hd
  have n0 : 0 < n := denLcm_pos _
  have d0 : 0 < d := denLcm_pos _
  have hc : ∀ t ∈ ts, t.coef.den ∣ d := fun t ht => den_dvd_denLcm (List.mem_map_of_mem ht)
  have ht : ∀ t ∈ ts, t.turn.den ∣ n := fun t ht => den_dvd_denLcm (List.mem_map_of_mem ht)
  have hsum := rootSum_rootForm n0 hz hc ht
  have hsize := rootSize_rootForm (n := n) hc
  set S := rootSize (rootForm n d ts) with hS
  have D0 : (0 : ℝ) < d := by exact_mod_cast d0
  have hne : rootSum (Complex.exp (2 * Real.pi * Complex.I / n)) (rootForm n d ts) ≠ 0 := by
    rw [hsum]
    exact_mod_cast mul_ne_zero (mul_ne_zero two_ne_zero D0.ne') h
  have low := one_le_norm_rootSum n0 (Complex.isPrimitiveRoot_exp n n0.ne') (rootForm n d ts) hne
  rw [hsum, ← hS, Complex.norm_real, Real.norm_eq_abs, abs_mul, abs_of_pos (by positivity)] at low
  have hm : 2 * (coefSize ts * d).num.natAbs = S := by
    have h1 : ((coefSize ts * (d : ℚ))) = ((S : ℚ)) / 2 := by rw [hsize]; ring
    have hev : 2 ∣ S := by
      rw [hS, rootSize]
      refine List.dvd_sum ?_
      intro x hx
      obtain ⟨c, -, rfl⟩ := List.mem_map.1 hx
      exact Dvd.intro _ rfl
    obtain ⟨k, hk⟩ := hev
    have h2 : coefSize ts * (d : ℚ) = ((k : ℤ) : ℚ) := by rw [h1, hk]; push_cast; ring
    rw [h2, Rat.num_intCast, Int.natAbs_natCast, hk]
  have hL : S < 2 ^ (S.log2 + 1) := Nat.lt_log2_self
  have hP : finePrecision ts = (S.log2 + 1) * (n + 1) + 1 := by
    unfold finePrecision
    simp only [← hn, ← hd, hm]
  have hpow : (2 : ℝ) * (S : ℝ) ^ (n + 1) < 2 ^ finePrecision ts := by
    rw [hP, pow_succ (2 : ℝ), pow_mul, mul_comm]
    have : (S : ℝ) ^ (n + 1) < (2 ^ (S.log2 + 1)) ^ (n + 1) := by
      exact_mod_cast Nat.pow_lt_pow_left hL (by omega)
    linarith
  have hA : (coefSize ts : ℝ) = S / (2 * d) := by
    have : ((S : ℕ) : ℝ) = 2 * (coefSize ts * d) := by exact_mod_cast congrArg (fun q : ℚ => (q : ℝ)) hsize
    rw [this]; field_simp
  have P0 : (0 : ℝ) < 2 ^ finePrecision ts := by positivity
  have V0 : 0 < |termsValue ts| := abs_pos.2 h
  have S1 : (0 : ℝ) ≤ S := Nat.cast_nonneg _
  rw [hA, ← mul_div_assoc, div_lt_iff₀ P0]
  have e : 2 * ((S : ℝ) / (2 * d)) = S / d := by field_simp
  rw [e, div_lt_iff₀ D0]
  by_cases hSz : (S : ℝ) = 0
  · rw [hSz]; positivity
  · have S0 : (0 : ℝ) < S := lt_of_le_of_ne S1 (Ne.symm hSz)
    have : (S : ℝ) * (2 * (S:ℝ) ^ n) < 2 ^ finePrecision ts := by
      calc _ = 2 * (S : ℝ) ^ (n + 1) := by ring
        _ < _ := hpow
    have h3 : (S : ℝ) ≤ S * (2 * d * |termsValue ts| * S ^ n) := by nlinarith
    calc (S : ℝ) ≤ S * (2 * d * |termsValue ts| * S ^ n) := h3
      _ = (|termsValue ts| * d) * (S * (2 * S ^ n)) := by ring
      _ < (|termsValue ts| * d) * 2 ^ finePrecision ts := mul_lt_mul_of_pos_left this (by positivity)
      _ = _ := by ring

/-- The three outcomes of a sign, for a real number. -/
def SignIs (c : ℤ) (v : ℝ) : Prop := (c = 1 ∧ 0 < v) ∨ (c = -1 ∧ v < 0) ∨ (c = 0 ∧ v = 0)

theorem signIs_num (q : ℚ) : SignIs q.num.sign q := by
  rcases lt_trichotomy q 0 with h | h | h
  · exact .inr (.inl ⟨Int.sign_eq_neg_one_of_neg (Rat.num_neg.2 h), by exact_mod_cast h⟩)
  · exact .inr (.inr ⟨by simp [h], by simp [h]⟩)
  · exact .inl ⟨Int.sign_eq_one_of_pos (Rat.num_pos.2 h), by exact_mod_cast h⟩

theorem SignIs.mul_pos {c : ℤ} {v w : ℝ} (h : SignIs c v) (hw : 0 < w) : SignIs c (v * w) := by
  rcases h with ⟨rfl, h⟩ | ⟨rfl, h⟩ | ⟨rfl, h⟩
  · exact .inl ⟨rfl, by positivity⟩
  · exact .inr (.inl ⟨rfl, mul_neg_of_neg_of_pos h hw⟩)
  · exact .inr (.inr ⟨rfl, by simp [h]⟩)

theorem cos_folded_pos {r : ℚ} (h0 : 0 ≤ r) (h1 : r < 1 / 4) : 0 < Real.cos (2 * Real.pi * r) := by
  have R0 : (0 : ℝ) ≤ r := by exact_mod_cast h0
  have R1 : (r : ℝ) < 1 / 4 := by
    have : ((r : ℚ) : ℝ) < ((1 / 4 : ℚ) : ℝ) := by exact_mod_cast h1
    simpa using this
  have := Real.pi_pos
  apply Real.cos_pos_of_mem_Ioo
  constructor <;> nlinarith

theorem signIs_signCosines {ts : List Term} (h : Folded ts) (hz : Closed ts) :
    SignIs (signCosines ts) (termsValue ts) := by
  unfold signCosines
  split
  · exact .inr (.inr ⟨rfl, rfl⟩)
  · rename_i t
    have ht := h t (by simp)
    simpa [Term.toReal_of_closed (hz t (by simp))] using (signIs_num t.coef).mul_pos (cos_folded_pos ht.1 ht.2)
  · extract_lets c
    have hc := signAt_sound (p := 20) (by norm_num) h hz
    have hf := signAt_sound (p := finePrecision ts) (Nat.succ_le_succ (Nat.zero_le _)) h hz
    split
    · rcases hf.2.2.2 with e | e | e
      · exact .inl ⟨e, hf.1 e⟩
      · exact .inr (.inl ⟨e, hf.2.1 e⟩)
      · refine .inr (.inr ⟨e, ?_⟩)
        by_contra hne
        exact absurd (hf.2.2.1 e) (not_le.2 (lt_abs_termsValue hz hne))
    · rename_i hne
      rcases hc.2.2.2 with e | e | e
      · exact .inl ⟨e, hc.1 e⟩
      · exact .inr (.inl ⟨e, hc.2.1 e⟩)
      · exact absurd e hne

theorem signIs_signType (v : ℝ) : SignIs (SignType.sign v : SignType) v := by
  rcases lt_trichotomy v 0 with h | h | h
  · exact .inr (.inl ⟨by simp [sign_neg h], h⟩)
  · exact .inr (.inr ⟨by simp [h], h⟩)
  · exact .inl ⟨by simp [sign_pos h], h⟩

/-- The terms with a named real fall away where every name stands for 0. -/
theorem termsValue_filter_closed (h : ∀ n, namedReal n = 0) (ts : List Term) :
    termsValue (ts.filter Term.closed) = termsValue ts := by
  induction ts with
  | nil => rfl
  | cons t ts ih =>
    rw [List.filter_cons, termsValue_cons]
    split
    · rw [termsValue_cons, ih]
    · rename_i c
      rw [ih]
      obtain ⟨q, r, _ | ⟨n, ns⟩⟩ := t
      · exact absurd rfl c
      · simp [Term.toReal, Term.valueWith, h]

theorem signIs_signTerms {ts : List Term} (h : Folded ts) : SignIs (signTerms ts) (termsValue ts) := by
  unfold signTerms
  split
  · rename_i hz
    exact signIs_signCosines h fun t ht => by simpa [Term.closed] using List.all_eq_true.1 hz t ht
  · have e := Config.namedReals.sign?_cases ⟨ts⟩
    split
    · rename_i c hc
      rcases e with ⟨e, -⟩ | e <;> rw [hc] at e
      · cases e
      · cases e; exact signIs_signType _
    · rename_i hc
      rcases e with ⟨-, e⟩ | e
      · rw [← termsValue_filter_closed (fun n => congrFun e n)]
        exact signIs_signCosines (fun t ht => h t (List.mem_filter.1 ht).1) (closed_filter ts)
      · rw [hc] at e; cases e

/-- The sign of a sample is the sign of its real number. -/
theorem Sample.signIs_sign (x : Sample) : SignIs x.sign x.toReal := by
  have hn : ∀ ts, SignIs (signTerms (Sample.norm ts).terms) (termsValue ts) := by
    intro ts
    have := signIs_signTerms (folded_norm ts)
    rwa [show termsValue (Sample.norm ts).terms = termsValue ts from Sample.toReal_norm ts] at this
  rw [Sample.toReal_eq]
  unfold Sample.sign
  split
  · rename_i q r e
    rw [e]
    split
    · rename_i hr
      simpa [Term.toReal, Term.valueWith, hr] using signIs_num q
    · exact hn _
  · exact hn _

/-- `isPos` decides `> 0`. -/
theorem Sample.isPos_iff (x : Sample) : x.isPos = true ↔ 0 < x.toReal := by
  rcases x.signIs_sign with ⟨h, h'⟩ | ⟨h, h'⟩ | ⟨h, h'⟩ <;> simp [Sample.isPos, h, h', not_lt.2, h'.le]

/-- `isNeg` decides `< 0`. -/
theorem Sample.isNeg_iff (x : Sample) : x.isNeg = true ↔ x.toReal < 0 := by
  rcases x.signIs_sign with ⟨h, h'⟩ | ⟨h, h'⟩ | ⟨h, h'⟩ <;> simp [Sample.isNeg, h, h', not_lt.2, h'.le]

/-- `lt` decides `<` on the real numbers. -/
theorem Sample.lt_iff (x y : Sample) : x.lt y = true ↔ x.toReal < y.toReal := by
  rw [Sample.lt, Sample.isPos_iff, Sample.toReal_sub, sub_pos]

/-- `sameValue` decides equality of the real numbers. -/
theorem Sample.sameValue_iff (x y : Sample) : x.sameValue y = true ↔ x.toReal = y.toReal := by
  have e : (x.sub y).toReal = x.toReal - y.toReal := Sample.toReal_sub x y
  rw [← sub_eq_zero (a := x.toReal), ← e]
  rcases (x.sub y).signIs_sign with ⟨h, h'⟩ | ⟨h, h'⟩ | ⟨h, h'⟩
  · exact iff_of_false (by simp [Sample.sameValue, h]) h'.ne'
  · exact iff_of_false (by simp [Sample.sameValue, h]) h'.ne
  · exact iff_of_true (by simp [Sample.sameValue, h]) h'

@[simp] theorem Sample.toReal_abs (x : Sample) : x.abs.toReal = |x.toReal| := by
  unfold Sample.abs
  split
  · rename_i h
    rw [Sample.toReal_neg, abs_of_neg (x.isNeg_iff.1 h)]
  · rename_i h
    rw [abs_of_nonneg (not_lt.1 fun c => h (x.isNeg_iff.2 c))]

end Sys2Proof
end

