-- ==== Sys2Proof/Laws/State.lean ====
section
/-! SUPPORT. What each update of the state leaves in each field. -/

namespace Sys2Proof.Machine

/-! ## `State.reject` -/

@[simp] theorem State.inflight_reject (s : State) (c : Code) : (s.reject c).inflight = none := rfl
@[simp] theorem State.err_reject (s : State) (c : Code) : (s.reject c).err = s.err := rfl
@[simp] theorem State.code_reject (s : State) (c : Code) : (s.reject c).code = c := rfl
@[simp] theorem State.inBlen_reject (s : State) (c : Code) : (s.reject c).inBlen = s.inBlen := rfl
@[simp] theorem State.inSlen_reject (s : State) (c : Code) : (s.reject c).inSlen = s.inSlen := rfl
@[simp] theorem State.outBlen_reject (s : State) (c : Code) : (s.reject c).outBlen = s.outBlen := rfl
@[simp] theorem State.outSlen_reject (s : State) (c : Code) : (s.reject c).outSlen = s.outSlen := rfl
@[simp] theorem State.spb_reject (s : State) (c : Code) : (s.reject c).spb = s.spb := rfl
@[simp] theorem State.vpeak_reject (s : State) (c : Code) : (s.reject c).vpeak = s.vpeak := rfl
@[simp] theorem State.fs_reject (s : State) (c : Code) : (s.reject c).fs = s.fs := rfl
@[simp] theorem State.askCyc_reject (s : State) (c : Code) : (s.reject c).askCyc = s.askCyc := rfl
@[simp] theorem State.fskCyc1_reject (s : State) (c : Code) : (s.reject c).fskCyc1 = s.fskCyc1 := rfl
@[simp] theorem State.fskCyc2_reject (s : State) (c : Code) : (s.reject c).fskCyc2 = s.fskCyc2 := rfl
@[simp] theorem State.iqCyc_reject (s : State) (c : Code) : (s.reject c).iqCyc = s.iqCyc := rfl
@[simp] theorem State.amiPol_reject (s : State) (c : Code) : (s.reject c).amiPol = s.amiPol := rfl
@[simp] theorem State.inBits_reject (s : State) (c : Code) : (s.reject c).inBits = s.inBits := rfl
@[simp] theorem State.outBits_reject (s : State) (c : Code) : (s.reject c).outBits = s.outBits := rfl
@[simp] theorem State.inSamp_reject (s : State) (c : Code) : (s.reject c).inSamp = s.inSamp := rfl
@[simp] theorem State.outSamp_reject (s : State) (c : Code) : (s.reject c).outSamp = s.outSamp := rfl
@[simp] theorem State.params_reject (s : State) (c : Code) : (s.reject c).params = s.params := rfl
@[simp] theorem State.host_reject (s : State) (c : Code) : (s.reject c).host = s.host := rfl
@[simp] theorem State.rx_reject (s : State) (c : Code) : (s.reject c).rx = s.rx := rfl
@[simp] theorem State.tick_reject (s : State) (c : Code) : (s.reject c).tick = s.tick := rfl

/-! ## `State.accept` -/

@[simp] theorem State.inflight_accept (s : State) (e : Bool) : (s.accept e).inflight = none := rfl
@[simp] theorem State.err_accept (s : State) (e : Bool) : (s.accept e).err = e := rfl
@[simp] theorem State.code_accept (s : State) (e : Bool) : (s.accept e).code = Code.ok := rfl
@[simp] theorem State.inBlen_accept (s : State) (e : Bool) : (s.accept e).inBlen = s.inBlen := rfl
@[simp] theorem State.inSlen_accept (s : State) (e : Bool) : (s.accept e).inSlen = s.inSlen := rfl
@[simp] theorem State.outBlen_accept (s : State) (e : Bool) : (s.accept e).outBlen = s.outBlen := rfl
@[simp] theorem State.outSlen_accept (s : State) (e : Bool) : (s.accept e).outSlen = s.outSlen := rfl
@[simp] theorem State.spb_accept (s : State) (e : Bool) : (s.accept e).spb = s.spb := rfl
@[simp] theorem State.vpeak_accept (s : State) (e : Bool) : (s.accept e).vpeak = s.vpeak := rfl
@[simp] theorem State.fs_accept (s : State) (e : Bool) : (s.accept e).fs = s.fs := rfl
@[simp] theorem State.askCyc_accept (s : State) (e : Bool) : (s.accept e).askCyc = s.askCyc := rfl
@[simp] theorem State.fskCyc1_accept (s : State) (e : Bool) : (s.accept e).fskCyc1 = s.fskCyc1 := rfl
@[simp] theorem State.fskCyc2_accept (s : State) (e : Bool) : (s.accept e).fskCyc2 = s.fskCyc2 := rfl
@[simp] theorem State.iqCyc_accept (s : State) (e : Bool) : (s.accept e).iqCyc = s.iqCyc := rfl
@[simp] theorem State.amiPol_accept (s : State) (e : Bool) : (s.accept e).amiPol = s.amiPol := rfl
@[simp] theorem State.inBits_accept (s : State) (e : Bool) : (s.accept e).inBits = s.inBits := rfl
@[simp] theorem State.outBits_accept (s : State) (e : Bool) : (s.accept e).outBits = s.outBits := rfl
@[simp] theorem State.inSamp_accept (s : State) (e : Bool) : (s.accept e).inSamp = s.inSamp := rfl
@[simp] theorem State.outSamp_accept (s : State) (e : Bool) : (s.accept e).outSamp = s.outSamp := rfl
@[simp] theorem State.params_accept (s : State) (e : Bool) : (s.accept e).params = s.params := rfl
@[simp] theorem State.host_accept (s : State) (e : Bool) : (s.accept e).host = s.host := rfl
@[simp] theorem State.rx_accept (s : State) (e : Bool) : (s.accept e).rx = s.rx := rfl
@[simp] theorem State.tick_accept (s : State) (e : Bool) : (s.accept e).tick = s.tick := rfl

/-! ## `State.emitBits` -/

@[simp] theorem State.inflight_emitBits (s : State) (o : List Bit) : (s.emitBits o).inflight = s.inflight := rfl
@[simp] theorem State.err_emitBits (s : State) (o : List Bit) : (s.emitBits o).err = s.err := rfl
@[simp] theorem State.code_emitBits (s : State) (o : List Bit) : (s.emitBits o).code = s.code := rfl
@[simp] theorem State.inBlen_emitBits (s : State) (o : List Bit) : (s.emitBits o).inBlen = s.inBlen := rfl
@[simp] theorem State.inSlen_emitBits (s : State) (o : List Bit) : (s.emitBits o).inSlen = s.inSlen := rfl
@[simp] theorem State.outBlen_emitBits (s : State) (o : List Bit) : (s.emitBits o).outBlen = lengthWord o.length := rfl
@[simp] theorem State.outSlen_emitBits (s : State) (o : List Bit) : (s.emitBits o).outSlen = s.outSlen := rfl
@[simp] theorem State.spb_emitBits (s : State) (o : List Bit) : (s.emitBits o).spb = s.spb := rfl
@[simp] theorem State.vpeak_emitBits (s : State) (o : List Bit) : (s.emitBits o).vpeak = s.vpeak := rfl
@[simp] theorem State.fs_emitBits (s : State) (o : List Bit) : (s.emitBits o).fs = s.fs := rfl
@[simp] theorem State.askCyc_emitBits (s : State) (o : List Bit) : (s.emitBits o).askCyc = s.askCyc := rfl
@[simp] theorem State.fskCyc1_emitBits (s : State) (o : List Bit) : (s.emitBits o).fskCyc1 = s.fskCyc1 := rfl
@[simp] theorem State.fskCyc2_emitBits (s : State) (o : List Bit) : (s.emitBits o).fskCyc2 = s.fskCyc2 := rfl
@[simp] theorem State.iqCyc_emitBits (s : State) (o : List Bit) : (s.emitBits o).iqCyc = s.iqCyc := rfl
@[simp] theorem State.amiPol_emitBits (s : State) (o : List Bit) : (s.emitBits o).amiPol = s.amiPol := rfl
@[simp] theorem State.inBits_emitBits (s : State) (o : List Bit) : (s.emitBits o).inBits = s.inBits := rfl
@[simp] theorem State.outBits_emitBits (s : State) (o : List Bit) : (s.emitBits o).outBits = s.outBits.writeBlock o := rfl
@[simp] theorem State.inSamp_emitBits (s : State) (o : List Bit) : (s.emitBits o).inSamp = s.inSamp := rfl
@[simp] theorem State.outSamp_emitBits (s : State) (o : List Bit) : (s.emitBits o).outSamp = s.outSamp := rfl
@[simp] theorem State.params_emitBits (s : State) (o : List Bit) : (s.emitBits o).params = s.params := rfl
@[simp] theorem State.host_emitBits (s : State) (o : List Bit) : (s.emitBits o).host = s.host := rfl
@[simp] theorem State.rx_emitBits (s : State) (o : List Bit) : (s.emitBits o).rx = s.rx := rfl
@[simp] theorem State.tick_emitBits (s : State) (o : List Bit) : (s.emitBits o).tick = s.tick := rfl

/-! ## `State.emitSamp` -/

@[simp] theorem State.inflight_emitSamp (s : State) (o : List Sample) : (s.emitSamp o).inflight = s.inflight := rfl
@[simp] theorem State.err_emitSamp (s : State) (o : List Sample) : (s.emitSamp o).err = s.err := rfl
@[simp] theorem State.code_emitSamp (s : State) (o : List Sample) : (s.emitSamp o).code = s.code := rfl
@[simp] theorem State.inBlen_emitSamp (s : State) (o : List Sample) : (s.emitSamp o).inBlen = s.inBlen := rfl
@[simp] theorem State.inSlen_emitSamp (s : State) (o : List Sample) : (s.emitSamp o).inSlen = s.inSlen := rfl
@[simp] theorem State.outBlen_emitSamp (s : State) (o : List Sample) : (s.emitSamp o).outBlen = s.outBlen := rfl
@[simp] theorem State.outSlen_emitSamp (s : State) (o : List Sample) : (s.emitSamp o).outSlen = lengthWord o.length := rfl
@[simp] theorem State.spb_emitSamp (s : State) (o : List Sample) : (s.emitSamp o).spb = s.spb := rfl
@[simp] theorem State.vpeak_emitSamp (s : State) (o : List Sample) : (s.emitSamp o).vpeak = s.vpeak := rfl
@[simp] theorem State.fs_emitSamp (s : State) (o : List Sample) : (s.emitSamp o).fs = s.fs := rfl
@[simp] theorem State.askCyc_emitSamp (s : State) (o : List Sample) : (s.emitSamp o).askCyc = s.askCyc := rfl
@[simp] theorem State.fskCyc1_emitSamp (s : State) (o : List Sample) : (s.emitSamp o).fskCyc1 = s.fskCyc1 := rfl
@[simp] theorem State.fskCyc2_emitSamp (s : State) (o : List Sample) : (s.emitSamp o).fskCyc2 = s.fskCyc2 := rfl
@[simp] theorem State.iqCyc_emitSamp (s : State) (o : List Sample) : (s.emitSamp o).iqCyc = s.iqCyc := rfl
@[simp] theorem State.amiPol_emitSamp (s : State) (o : List Sample) : (s.emitSamp o).amiPol = s.amiPol := rfl
@[simp] theorem State.inBits_emitSamp (s : State) (o : List Sample) : (s.emitSamp o).inBits = s.inBits := rfl
@[simp] theorem State.outBits_emitSamp (s : State) (o : List Sample) : (s.emitSamp o).outBits = s.outBits := rfl
@[simp] theorem State.inSamp_emitSamp (s : State) (o : List Sample) : (s.emitSamp o).inSamp = s.inSamp := rfl
@[simp] theorem State.outSamp_emitSamp (s : State) (o : List Sample) : (s.emitSamp o).outSamp = s.outSamp.writeBlock o := rfl
@[simp] theorem State.params_emitSamp (s : State) (o : List Sample) : (s.emitSamp o).params = s.params := rfl
@[simp] theorem State.host_emitSamp (s : State) (o : List Sample) : (s.emitSamp o).host = s.host := rfl
@[simp] theorem State.rx_emitSamp (s : State) (o : List Sample) : (s.emitSamp o).rx = s.rx := rfl
@[simp] theorem State.tick_emitSamp (s : State) (o : List Sample) : (s.emitSamp o).tick = s.tick := rfl

/-! ## `State.setPol` -/

@[simp] theorem State.inflight_setPol (s : State) (p : Option Bool) : (s.setPol p).inflight = s.inflight := rfl
@[simp] theorem State.err_setPol (s : State) (p : Option Bool) : (s.setPol p).err = s.err := rfl
@[simp] theorem State.code_setPol (s : State) (p : Option Bool) : (s.setPol p).code = s.code := rfl
@[simp] theorem State.inBlen_setPol (s : State) (p : Option Bool) : (s.setPol p).inBlen = s.inBlen := rfl
@[simp] theorem State.inSlen_setPol (s : State) (p : Option Bool) : (s.setPol p).inSlen = s.inSlen := rfl
@[simp] theorem State.outBlen_setPol (s : State) (p : Option Bool) : (s.setPol p).outBlen = s.outBlen := rfl
@[simp] theorem State.outSlen_setPol (s : State) (p : Option Bool) : (s.setPol p).outSlen = s.outSlen := rfl
@[simp] theorem State.spb_setPol (s : State) (p : Option Bool) : (s.setPol p).spb = s.spb := rfl
@[simp] theorem State.vpeak_setPol (s : State) (p : Option Bool) : (s.setPol p).vpeak = s.vpeak := rfl
@[simp] theorem State.fs_setPol (s : State) (p : Option Bool) : (s.setPol p).fs = s.fs := rfl
@[simp] theorem State.askCyc_setPol (s : State) (p : Option Bool) : (s.setPol p).askCyc = s.askCyc := rfl
@[simp] theorem State.fskCyc1_setPol (s : State) (p : Option Bool) : (s.setPol p).fskCyc1 = s.fskCyc1 := rfl
@[simp] theorem State.fskCyc2_setPol (s : State) (p : Option Bool) : (s.setPol p).fskCyc2 = s.fskCyc2 := rfl
@[simp] theorem State.iqCyc_setPol (s : State) (p : Option Bool) : (s.setPol p).iqCyc = s.iqCyc := rfl
@[simp] theorem State.amiPol_setPol (s : State) (p : Option Bool) : (s.setPol p).amiPol = p.getD s.amiPol := rfl
@[simp] theorem State.inBits_setPol (s : State) (p : Option Bool) : (s.setPol p).inBits = s.inBits := rfl
@[simp] theorem State.outBits_setPol (s : State) (p : Option Bool) : (s.setPol p).outBits = s.outBits := rfl
@[simp] theorem State.inSamp_setPol (s : State) (p : Option Bool) : (s.setPol p).inSamp = s.inSamp := rfl
@[simp] theorem State.outSamp_setPol (s : State) (p : Option Bool) : (s.setPol p).outSamp = s.outSamp := rfl
@[simp] theorem State.params_setPol (s : State) (p : Option Bool) : (s.setPol p).params = s.params := rfl
@[simp] theorem State.host_setPol (s : State) (p : Option Bool) : (s.setPol p).host = s.host := rfl
@[simp] theorem State.rx_setPol (s : State) (p : Option Bool) : (s.setPol p).rx = s.rx := rfl
@[simp] theorem State.tick_setPol (s : State) (p : Option Bool) : (s.setPol p).tick = s.tick := rfl

/-! ## `State.startCommand` -/

@[simp] theorem State.inflight_startCommand (s : State) (w : Word) : (s.startCommand w).inflight = some ⟨w, Config.latency w s.inBlen s.inSlen s.tick⟩ := rfl
@[simp] theorem State.err_startCommand (s : State) (w : Word) : (s.startCommand w).err = s.err := rfl
@[simp] theorem State.code_startCommand (s : State) (w : Word) : (s.startCommand w).code = s.code := rfl
@[simp] theorem State.inBlen_startCommand (s : State) (w : Word) : (s.startCommand w).inBlen = s.inBlen := rfl
@[simp] theorem State.inSlen_startCommand (s : State) (w : Word) : (s.startCommand w).inSlen = s.inSlen := rfl
@[simp] theorem State.outBlen_startCommand (s : State) (w : Word) : (s.startCommand w).outBlen = s.outBlen := rfl
@[simp] theorem State.outSlen_startCommand (s : State) (w : Word) : (s.startCommand w).outSlen = s.outSlen := rfl
@[simp] theorem State.spb_startCommand (s : State) (w : Word) : (s.startCommand w).spb = s.spb := rfl
@[simp] theorem State.vpeak_startCommand (s : State) (w : Word) : (s.startCommand w).vpeak = s.vpeak := rfl
@[simp] theorem State.fs_startCommand (s : State) (w : Word) : (s.startCommand w).fs = s.fs := rfl
@[simp] theorem State.askCyc_startCommand (s : State) (w : Word) : (s.startCommand w).askCyc = s.askCyc := rfl
@[simp] theorem State.fskCyc1_startCommand (s : State) (w : Word) : (s.startCommand w).fskCyc1 = s.fskCyc1 := rfl
@[simp] theorem State.fskCyc2_startCommand (s : State) (w : Word) : (s.startCommand w).fskCyc2 = s.fskCyc2 := rfl
@[simp] theorem State.iqCyc_startCommand (s : State) (w : Word) : (s.startCommand w).iqCyc = s.iqCyc := rfl
@[simp] theorem State.amiPol_startCommand (s : State) (w : Word) : (s.startCommand w).amiPol = s.amiPol := rfl
@[simp] theorem State.inBits_startCommand (s : State) (w : Word) : (s.startCommand w).inBits = s.inBits := rfl
@[simp] theorem State.outBits_startCommand (s : State) (w : Word) : (s.startCommand w).outBits = s.outBits := rfl
@[simp] theorem State.inSamp_startCommand (s : State) (w : Word) : (s.startCommand w).inSamp = s.inSamp := rfl
@[simp] theorem State.outSamp_startCommand (s : State) (w : Word) : (s.startCommand w).outSamp = s.outSamp := rfl
@[simp] theorem State.params_startCommand (s : State) (w : Word) : (s.startCommand w).params = s.params := rfl
@[simp] theorem State.host_startCommand (s : State) (w : Word) : (s.startCommand w).host = s.host := rfl
@[simp] theorem State.rx_startCommand (s : State) (w : Word) : (s.startCommand w).rx = s.rx := rfl
@[simp] theorem State.tick_startCommand (s : State) (w : Word) : (s.startCommand w).tick = s.tick + 1 := rfl

/-! ## `State.withCommand` -/

@[simp] theorem State.inflight_withCommand (s : State) (w : Word) : (s.withCommand w).inflight = some ⟨w, 0⟩ := rfl
@[simp] theorem State.err_withCommand (s : State) (w : Word) : (s.withCommand w).err = s.err := rfl
@[simp] theorem State.code_withCommand (s : State) (w : Word) : (s.withCommand w).code = s.code := rfl
@[simp] theorem State.inBlen_withCommand (s : State) (w : Word) : (s.withCommand w).inBlen = s.inBlen := rfl
@[simp] theorem State.inSlen_withCommand (s : State) (w : Word) : (s.withCommand w).inSlen = s.inSlen := rfl
@[simp] theorem State.outBlen_withCommand (s : State) (w : Word) : (s.withCommand w).outBlen = s.outBlen := rfl
@[simp] theorem State.outSlen_withCommand (s : State) (w : Word) : (s.withCommand w).outSlen = s.outSlen := rfl
@[simp] theorem State.spb_withCommand (s : State) (w : Word) : (s.withCommand w).spb = s.spb := rfl
@[simp] theorem State.vpeak_withCommand (s : State) (w : Word) : (s.withCommand w).vpeak = s.vpeak := rfl
@[simp] theorem State.fs_withCommand (s : State) (w : Word) : (s.withCommand w).fs = s.fs := rfl
@[simp] theorem State.askCyc_withCommand (s : State) (w : Word) : (s.withCommand w).askCyc = s.askCyc := rfl
@[simp] theorem State.fskCyc1_withCommand (s : State) (w : Word) : (s.withCommand w).fskCyc1 = s.fskCyc1 := rfl
@[simp] theorem State.fskCyc2_withCommand (s : State) (w : Word) : (s.withCommand w).fskCyc2 = s.fskCyc2 := rfl
@[simp] theorem State.iqCyc_withCommand (s : State) (w : Word) : (s.withCommand w).iqCyc = s.iqCyc := rfl
@[simp] theorem State.amiPol_withCommand (s : State) (w : Word) : (s.withCommand w).amiPol = s.amiPol := rfl
@[simp] theorem State.inBits_withCommand (s : State) (w : Word) : (s.withCommand w).inBits = s.inBits := rfl
@[simp] theorem State.outBits_withCommand (s : State) (w : Word) : (s.withCommand w).outBits = s.outBits := rfl
@[simp] theorem State.inSamp_withCommand (s : State) (w : Word) : (s.withCommand w).inSamp = s.inSamp := rfl
@[simp] theorem State.outSamp_withCommand (s : State) (w : Word) : (s.withCommand w).outSamp = s.outSamp := rfl
@[simp] theorem State.params_withCommand (s : State) (w : Word) : (s.withCommand w).params = s.params := rfl
@[simp] theorem State.host_withCommand (s : State) (w : Word) : (s.withCommand w).host = s.host := rfl
@[simp] theorem State.rx_withCommand (s : State) (w : Word) : (s.withCommand w).rx = s.rx := rfl
@[simp] theorem State.tick_withCommand (s : State) (w : Word) : (s.withCommand w).tick = s.tick := rfl

/-! ## `State.received` -/

@[simp] theorem State.inflight_received (s : State) (d : HostData) : (s.received d).inflight = s.inflight := rfl
@[simp] theorem State.err_received (s : State) (d : HostData) : (s.received d).err = s.err := rfl
@[simp] theorem State.code_received (s : State) (d : HostData) : (s.received d).code = s.code := rfl
@[simp] theorem State.inBlen_received (s : State) (d : HostData) : (s.received d).inBlen = s.inBlen := rfl
@[simp] theorem State.inSlen_received (s : State) (d : HostData) : (s.received d).inSlen = s.inSlen := rfl
@[simp] theorem State.outBlen_received (s : State) (d : HostData) : (s.received d).outBlen = s.outBlen := rfl
@[simp] theorem State.outSlen_received (s : State) (d : HostData) : (s.received d).outSlen = s.outSlen := rfl
@[simp] theorem State.spb_received (s : State) (d : HostData) : (s.received d).spb = s.spb := rfl
@[simp] theorem State.vpeak_received (s : State) (d : HostData) : (s.received d).vpeak = s.vpeak := rfl
@[simp] theorem State.fs_received (s : State) (d : HostData) : (s.received d).fs = s.fs := rfl
@[simp] theorem State.askCyc_received (s : State) (d : HostData) : (s.received d).askCyc = s.askCyc := rfl
@[simp] theorem State.fskCyc1_received (s : State) (d : HostData) : (s.received d).fskCyc1 = s.fskCyc1 := rfl
@[simp] theorem State.fskCyc2_received (s : State) (d : HostData) : (s.received d).fskCyc2 = s.fskCyc2 := rfl
@[simp] theorem State.iqCyc_received (s : State) (d : HostData) : (s.received d).iqCyc = s.iqCyc := rfl
@[simp] theorem State.amiPol_received (s : State) (d : HostData) : (s.received d).amiPol = s.amiPol := rfl
@[simp] theorem State.inBits_received (s : State) (d : HostData) : (s.received d).inBits = s.inBits := rfl
@[simp] theorem State.outBits_received (s : State) (d : HostData) : (s.received d).outBits = s.outBits := rfl
@[simp] theorem State.inSamp_received (s : State) (d : HostData) : (s.received d).inSamp = s.inSamp := rfl
@[simp] theorem State.outSamp_received (s : State) (d : HostData) : (s.received d).outSamp = s.outSamp := rfl
@[simp] theorem State.params_received (s : State) (d : HostData) : (s.received d).params = s.params := rfl
@[simp] theorem State.host_received (s : State) (d : HostData) : (s.received d).host = s.host := rfl
@[simp] theorem State.rx_received (s : State) (d : HostData) : (s.received d).rx = d :: s.rx := rfl
@[simp] theorem State.tick_received (s : State) (d : HostData) : (s.received d).tick = s.tick := rfl

/-! ## `State.tookFree` -/

@[simp] theorem State.inflight_tookFree (s : State) : s.tookFree.inflight = s.inflight := rfl
@[simp] theorem State.err_tookFree (s : State) : s.tookFree.err = s.err := rfl
@[simp] theorem State.code_tookFree (s : State) : s.tookFree.code = s.code := rfl
@[simp] theorem State.inBlen_tookFree (s : State) : s.tookFree.inBlen = s.inBlen := rfl
@[simp] theorem State.inSlen_tookFree (s : State) : s.tookFree.inSlen = s.inSlen := rfl
@[simp] theorem State.outBlen_tookFree (s : State) : s.tookFree.outBlen = s.outBlen := rfl
@[simp] theorem State.outSlen_tookFree (s : State) : s.tookFree.outSlen = s.outSlen := rfl
@[simp] theorem State.spb_tookFree (s : State) : s.tookFree.spb = s.spb := rfl
@[simp] theorem State.vpeak_tookFree (s : State) : s.tookFree.vpeak = s.vpeak := rfl
@[simp] theorem State.fs_tookFree (s : State) : s.tookFree.fs = s.fs := rfl
@[simp] theorem State.askCyc_tookFree (s : State) : s.tookFree.askCyc = s.askCyc := rfl
@[simp] theorem State.fskCyc1_tookFree (s : State) : s.tookFree.fskCyc1 = s.fskCyc1 := rfl
@[simp] theorem State.fskCyc2_tookFree (s : State) : s.tookFree.fskCyc2 = s.fskCyc2 := rfl
@[simp] theorem State.iqCyc_tookFree (s : State) : s.tookFree.iqCyc = s.iqCyc := rfl
@[simp] theorem State.amiPol_tookFree (s : State) : s.tookFree.amiPol = s.amiPol := rfl
@[simp] theorem State.inBits_tookFree (s : State) : s.tookFree.inBits = s.inBits := rfl
@[simp] theorem State.outBits_tookFree (s : State) : s.tookFree.outBits = s.outBits := rfl
@[simp] theorem State.inSamp_tookFree (s : State) : s.tookFree.inSamp = s.inSamp := rfl
@[simp] theorem State.outSamp_tookFree (s : State) : s.tookFree.outSamp = s.outSamp := rfl
@[simp] theorem State.params_tookFree (s : State) : s.tookFree.params = s.params := rfl
@[simp] theorem State.host_tookFree (s : State) : s.tookFree.host = s.host := rfl
@[simp] theorem State.rx_tookFree (s : State) : s.tookFree.rx = s.rx := rfl
@[simp] theorem State.tick_tookFree (s : State) : s.tookFree.tick = s.tick + 1 := rfl

end Sys2Proof.Machine
end

