-- ==== Sys2Proof/Laws/Commands.lean ====
section
/-! SUPPORT. What each shared operation of a command can do, said once (R77, R233). -/

namespace Sys2Proof.Machine

/-! ## Lengths and inputs -/

@[simp] theorem lengthWord_toNat {n : Nat} (h : n < 2 ^ 32) : (lengthWord n).toNat = n := by
  rw [lengthWord, if_pos h, BitVec.toNat_ofNat, Nat.mod_eq_of_lt h]

theorem lengthWord_toNat_le (n : Nat) : (lengthWord n).toNat ≤ n := by
  by_cases h : n < 2 ^ 32
  · rw [lengthWord_toNat h]
  · have := (lengthWord n).isLt; omega

theorem bitAt_eq_getElem {b : List Bit} {i : Nat} (h : i < b.length) : bitAt b i = b[i] := by
  simp [bitAt, List.getD_eq_getElem?_getD, h]

theorem getElem?_eq_bitAt {b : List Bit} {i : Nat} (h : i < b.length) : b[i]? = some (bitAt b i) := by
  rw [bitAt_eq_getElem h, List.getElem?_eq_getElem h]

@[simp] theorem bitAt_of_le {b : List Bit} {i : Nat} (h : b.length ≤ i) : bitAt b i = false := by
  simp [bitAt, List.getD_eq_getElem?_getD, h]

/-- A loaded bit input is what the command reads. -/
theorem readSeq_of_bitsLoaded {s : State} {b : List Bit} (h : BitsLoaded s b) :
    s.inBits.readSeq 0 s.inBlen.toNat = .ok b := by
  rw [← h.1]
  refine Buf.readSeq_eq_ok fun k hk => ?_
  rw [Nat.zero_add, h.2.2 k hk, getElem?_eq_bitAt hk]

/-- A loaded waveform is what the command reads. -/
theorem readSeq_of_sampLoaded {s : State} {r : List Sample} (h : SampLoaded s r) :
    s.inSamp.readSeq 0 s.inSlen.toNat = .ok r := by
  rw [← h.1]
  refine Buf.readSeq_eq_ok fun k hk => ?_
  rw [Nat.zero_add, h.2.2 k hk, List.getD_eq_getElem?_getD, List.getElem?_eq_getElem hk]
  rfl

/-! ## The input checks -/

/-- What `withInBits` can answer. -/
theorem withInBits_cases (s : State) (least capacity : Nat) (finish : List Bit → State) :
    (s.params.maxBits < s.inBlen.toNat ∧
      withInBits s least capacity finish = .next (s.reject .inRange)) ∨
    (s.inBlen.toNat ≤ s.params.maxBits ∧ ∃ b, s.inBits.readSeq 0 s.inBlen.toNat = .ok b ∧
      b.length = s.inBlen.toNat ∧ withInBits s least capacity finish = .next (finish b)) ∨
    (s.inBlen.toNat ≤ s.params.maxBits ∧ capacity < least ∧
      withInBits s least capacity finish = .next (s.reject .outOverflow)) ∨
    (s.inBlen.toNat ≤ s.params.maxBits ∧ least ≤ capacity ∧ ∃ j, j < s.inBlen.toNat ∧
      s.inBits.read j = none ∧ withInBits s least capacity finish = .fault (.unwrittenInBit j)) := by
  unfold withInBits
  split
  · rename_i h; exact .inl ⟨h, rfl⟩
  · rename_i h
    rcases s.inBits.readSeq_cases 0 s.inBlen.toNat with ⟨b, e, hl, -⟩ | ⟨j, e, -, h2, h3, -⟩
    · exact .inr (.inl ⟨by omega, b, e, hl, by rw [e]⟩)
    · rw [e]
      simp only
      split
      · rename_i hc; exact .inr (.inr (.inl ⟨by omega, hc, rfl⟩))
      · rename_i hc; exact .inr (.inr (.inr ⟨by omega, by omega, j, by omega, h3, rfl⟩))

/-- What `withInSamp` can answer. -/
theorem withInSamp_cases (s : State) (least capacity : Nat) (finish : List Sample → State) :
    (s.params.maxSamples < s.inSlen.toNat ∧
      withInSamp s least capacity finish = .next (s.reject .inRange)) ∨
    (s.inSlen.toNat ≤ s.params.maxSamples ∧ ∃ r, s.inSamp.readSeq 0 s.inSlen.toNat = .ok r ∧
      r.length = s.inSlen.toNat ∧ withInSamp s least capacity finish = .next (finish r)) ∨
    (s.inSlen.toNat ≤ s.params.maxSamples ∧ capacity < least ∧
      withInSamp s least capacity finish = .next (s.reject .outOverflow)) ∨
    (s.inSlen.toNat ≤ s.params.maxSamples ∧ least ≤ capacity ∧ ∃ j, j < s.inSlen.toNat ∧
      s.inSamp.read j = none ∧ withInSamp s least capacity finish = .fault (.unwrittenInSample j)) := by
  unfold withInSamp
  split
  · rename_i h; exact .inl ⟨h, rfl⟩
  · rename_i h
    rcases s.inSamp.readSeq_cases 0 s.inSlen.toNat with ⟨r, e, hl, -⟩ | ⟨j, e, -, h2, h3, -⟩
    · exact .inr (.inl ⟨by omega, r, e, hl, by rw [e]⟩)
    · rw [e]
      simp only
      split
      · rename_i hc; exact .inr (.inr (.inl ⟨by omega, hc, rfl⟩))
      · rename_i hc; exact .inr (.inr (.inr ⟨by omega, by omega, j, by omega, h3, rfl⟩))

theorem withInBits_inRange {s : State} {least capacity : Nat} {finish : List Bit → State}
    (h : s.params.maxBits < s.inBlen.toNat) :
    withInBits s least capacity finish = .next (s.reject .inRange) := by
  unfold withInBits; rw [if_pos h]

theorem withInSamp_inRange {s : State} {least capacity : Nat} {finish : List Sample → State}
    (h : s.params.maxSamples < s.inSlen.toNat) :
    withInSamp s least capacity finish = .next (s.reject .inRange) := by
  unfold withInSamp; rw [if_pos h]

theorem withInBits_loaded {s : State} {least capacity : Nat} {finish : List Bit → State} {b : List Bit}
    (h : BitsLoaded s b) : withInBits s least capacity finish = .next (finish b) := by
  have := h.1; have := h.2.1
  unfold withInBits; rw [if_neg (by omega), readSeq_of_bitsLoaded h]

theorem withInSamp_loaded {s : State} {least capacity : Nat} {finish : List Sample → State}
    {r : List Sample} (h : SampLoaded s r) : withInSamp s least capacity finish = .next (finish r) := by
  have := h.1; have := h.2.1
  unfold withInSamp; rw [if_neg (by omega), readSeq_of_sampLoaded h]

/-! ## The output checks -/

/-- What the end of a cycle with bit output can leave. -/
theorem finishBits_cases (s : State) (r : Produced Bit) :
    (s.params.maxBits < r.out.length ∧ s.finishBits r = s.reject .outOverflow) ∨
    (r.out.length ≤ s.params.maxBits ∧
      s.finishBits r = ((s.emitBits r.out).setPol r.pol).accept r.err) := by
  unfold State.finishBits
  split
  · rename_i h; exact .inl ⟨h, rfl⟩
  · rename_i h; exact .inr ⟨by omega, rfl⟩

/-- What the end of a cycle with sample output can leave. -/
theorem finishSamples_cases (s : State) (r : Produced Sample) :
    (s.params.maxSamples < r.out.length ∧ s.finishSamples r = s.reject .outOverflow) ∨
    (r.out.length ≤ s.params.maxSamples ∧
      s.finishSamples r = ((s.emitSamp r.out).setPol r.pol).accept r.err) := by
  unfold State.finishSamples
  split
  · rename_i h; exact .inl ⟨h, rfl⟩
  · rename_i h; exact .inr ⟨by omega, rfl⟩

/-- The state after an accepted sample output, element by element. -/
theorem samplesOut_accept (s : State) (r : Produced Sample) (he : r.err = false) :
    SamplesOut s (((s.emitSamp r.out).setPol r.pol).accept r.err) r.out.length
      (r.pol.getD s.amiPol) (sampleAt r.out) := by
  refine ⟨?_, fun h => ?_, fun j hj => ⟨r.out[j], ?_, ?_⟩, fun j hj => ?_⟩
  · rw [he]; rfl
  · exact lengthWord_toNat h
  · show (s.outSamp.writeBlock r.out).read j = _
    rw [Buf.read_writeBlock, if_pos hj, List.getElem?_eq_getElem hj]
  · simp [sampleAt, List.getD_eq_getElem?_getD, hj]
  · show (s.outSamp.writeBlock r.out).read j = _
    rw [Buf.read_writeBlock, if_neg (by omega)]

/-- The state after an accepted bit output, element by element. -/
theorem bitsOut_accept (s : State) (r : Produced Bit) (hp : r.pol = none) :
    BitsOut s (((s.emitBits r.out).setPol r.pol).accept r.err) r.out.length r.err
      fun j => bitAt r.out j = true := by
  refine ⟨?_, fun h => ?_, fun j hj => ⟨r.out[j], ?_, ?_⟩, fun j hj => ?_⟩
  · rw [hp]; rfl
  · exact lengthWord_toNat h
  · show (s.outBits.writeBlock r.out).read j = _
    rw [Buf.read_writeBlock, if_pos hj, List.getElem?_eq_getElem hj]
  · simp only [bitAt_eq_getElem hj]
  · show (s.outBits.writeBlock r.out).read j = _
    rw [Buf.read_writeBlock, if_neg (by omega)]

/-! ## The configuration checks (R232) -/

theorem waveOk_iff (s : State) : s.waveOk = true ↔ 4 ≤ s.spb.toNat ∧ 0 < s.vpeak.toReal := by
  simp only [State.waveOk, Bool.and_eq_true, decide_eq_true_eq, Sample.isPos_iff]; rfl

theorem askOk_iff (s : State) : s.askOk = true ↔
    4 ≤ s.spb.toNat ∧ 0 < s.vpeak.toReal ∧ 1 ≤ s.askCyc.toNat := by
  simp only [State.askOk, Bool.and_eq_true, decide_eq_true_eq, waveOk_iff, and_assoc]; rfl

theorem fskOk_iff (s : State) : s.fskOk = true ↔
    4 ≤ s.spb.toNat ∧ 0 < s.vpeak.toReal ∧ 1 ≤ s.fskCyc1.toNat ∧ 1 ≤ s.fskCyc2.toNat := by
  simp only [State.fskOk, Bool.and_eq_true, decide_eq_true_eq, waveOk_iff, and_assoc]; rfl

theorem iqOk_iff (s : State) : s.iqOk = true ↔
    4 ≤ s.spb.toNat ∧ 0 < s.vpeak.toReal ∧ 1 ≤ s.iqCyc.toNat ∧
      ¬ s.spb.toNat ∣ 2 * s.iqCyc.toNat := by
  simp only [State.iqOk, Bool.and_eq_true, decide_eq_true_eq, waveOk_iff, and_assoc, ne_eq,
    Nat.dvd_iff_mod_eq_zero]; rfl

/-- What `checkConfig` can answer. -/
theorem checkConfig_cases (s : State) (ok : Bool) (rest : Result) :
    (ok = true ∧ checkConfig s ok rest = rest) ∨
    (ok = false ∧ checkConfig s ok rest = .next (s.reject .badConfig)) := by
  cases ok
  · exact .inr ⟨rfl, rfl⟩
  · exact .inl ⟨rfl, rfl⟩

/-! ## Lengths of the outputs (R78) -/

@[simp] theorem length_seg {α : Type} (w : List α) (i n : Nat) (h : (i + 1) * n ≤ w.length) :
    (seg w i n).length = n := by
  rw [seg, List.length_take, List.length_drop]
  have : (i + 1) * n = i * n + n := by ring
  omega

@[simp] theorem length_intervals {α : Type} (n : Nat) (w : List α) :
    (intervals n w).length = w.length / n := by
  simp [intervals, nInt]

theorem length_flatMap_const {α β : Type} (f : α → List β) (n : Nat) (h : ∀ a, (f a).length = n)
    (l : List α) : (l.flatMap f).length = l.length * n := by
  induction l with
  | nil => simp
  | cons a l ih => simp [ih, h, Nat.add_mul, Nat.add_comm]

/-- Element `j` of a list of equal blocks is element `j mod n` of block `j div n`. -/
theorem getElem?_flatMap_const {α β : Type} (f : α → List β) (n : Nat) (hn : 0 < n)
    (h : ∀ a, (f a).length = n) (l : List α) (j : Nat) :
    (l.flatMap f)[j]? = (l[j / n]?).bind fun a => (f a)[j % n]? := by
  induction l generalizing j with
  | nil => simp
  | cons a l ih =>
    rw [List.flatMap_cons, List.getElem?_append, h a]
    split
    · rename_i hj
      rw [Nat.div_eq_of_lt hj, Nat.mod_eq_of_lt hj]; rfl
    · rename_i hj
      obtain ⟨k, rfl⟩ : ∃ k, j = n + k := ⟨j - n, by omega⟩
      rw [ih, Nat.add_sub_cancel_left, Nat.add_div_left _ hn, Nat.add_mod_left]; rfl

@[simp] theorem length_nrzEncode (n : Nat) (v : Sample) (b : List Bit) :
    (nrzEncode n v b).length = b.length * n :=
  length_flatMap_const _ n (by intro a; simp) b

@[simp] theorem length_manEncode (n : Nat) (v : Sample) (b : List Bit) :
    (manEncode n v b).length = b.length * n :=
  length_flatMap_const _ n (by intro a; simp only [List.length_append, List.length_replicate]; omega) b

@[simp] theorem length_amiEncode (n : Nat) (v : Sample) (p : Bool) (b : List Bit) :
    (amiEncode n v p b).1.length = b.length * n := by
  induction b generalizing p with
  | nil => simp [amiEncode]
  | cons x b ih => cases x <;> simp [amiEncode, ih, Nat.add_mul, Nat.add_comm]

@[simp] theorem length_askModulate (n c : Nat) (v : Sample) (b : List Bit) :
    (askModulate n c v b).length = b.length * n :=
  length_flatMap_const _ n (by intro a; simp) b

@[simp] theorem length_fskModulate (n c1 c2 : Nat) (v : Sample) (b : List Bit) :
    (fskModulate n c1 c2 v b).length = b.length * n :=
  length_flatMap_const _ n (by intro a; simp) b

@[simp] theorem length_iqSymbol (n c : Nat) (i q : Sample) : (iqSymbol n c i q).length = n := by
  simp [iqSymbol]

@[simp] theorem length_padz (b : List Bit) (m : Nat) :
    (padz b m).length = b.length + padCount b.length m := by
  simp [padz]

/-- Padding reaches the next multiple of `m`. -/
theorem length_padz_div (b : List Bit) {m : Nat} (hm : 0 < m) :
    (padz b m).length / m = (b.length + (m - 1)) / m ∧ m * ((padz b m).length / m) = (padz b m).length := by
  rw [length_padz]
  generalize b.length = l
  have h0 := Nat.div_add_mod l m
  have hlt := Nat.mod_lt l hm
  generalize l / m = q at h0
  unfold padCount
  generalize hr : l % m = r at h0 hlt ⊢
  obtain rfl | hr0 := Nat.eq_zero_or_pos r
  · have e : l = m * q := by omega
    rw [Nat.sub_zero, Nat.mod_self, Nat.add_zero, e, Nat.mul_div_cancel_left _ hm]
    refine ⟨?_, rfl⟩
    rw [Nat.mul_add_div hm, Nat.div_eq_of_lt (by omega), Nat.add_zero]
  · rw [Nat.mod_eq_of_lt (show m - r < m by omega)]
    have e : l + (m - r) = m * (q + 1) := by rw [Nat.mul_succ]; omega
    have e2 : l + (m - 1) = m * (q + 1) + (r - 1) := by rw [Nat.mul_succ]; omega
    rw [e, e2, Nat.mul_div_cancel_left _ hm]
    refine ⟨?_, rfl⟩
    rw [Nat.mul_add_div hm, Nat.div_eq_of_lt (by omega), Nat.add_zero]

@[simp] theorem bitAt_padz (b : List Bit) (m i : Nat) : bitAt (padz b m) i = bitAt b i := by
  unfold bitAt padz
  simp only [List.getD_eq_getElem?_getD, List.getElem?_append]
  split
  · rfl
  · rename_i h
    have e : b[i]? = none := List.getElem?_eq_none (by omega)
    rw [e, List.getElem?_replicate]
    split <;> rfl

@[simp] theorem length_qpskModulate (n c : Nat) (v : Sample) (b : List Bit) :
    (qpskModulate n c v b).length = qpskLength n b.length := by
  unfold qpskModulate qpskLength
  rw [length_flatMap_const _ n (by intro a; simp), List.length_range, (length_padz_div b (by norm_num)).1]

@[simp] theorem length_qam16Modulate (n c : Nat) (v : Sample) (b : List Bit) :
    (qam16Modulate n c v b).length = qam16Length n b.length := by
  unfold qam16Modulate qam16Length
  rw [length_flatMap_const _ n (by intro a; simp), List.length_range, (length_padz_div b (by norm_num)).1]

@[simp] theorem length_qpskDemodulate (n c : Nat) (r : List Sample) :
    (qpskDemodulate n c r).length = 2 * (r.length / n) := by
  unfold qpskDemodulate
  rw [length_flatMap_const _ 2 (by intro a; simp), length_intervals]; ring

theorem nearestOf_mem (x : Sample) (best : Sample × List Bit) (l : List (Sample × List Bit)) :
    nearestOf x best l = best ∨ nearestOf x best l ∈ l := by
  induction l generalizing best with
  | nil => exact .inl rfl
  | cons e l ih =>
    unfold nearestOf
    split
    · rcases ih e with h | h
      · exact .inr (by rw [h]; exact List.mem_cons_self)
      · exact .inr (List.mem_cons_of_mem _ h)
    · exact (ih best).imp_right (List.mem_cons_of_mem _)

@[simp] theorem length_nearestBits (v x : Sample) : (nearestBits v x).length = 2 := by
  unfold nearestBits
  rcases nearestOf_mem x ((levelA3 v).neg, [false, false]) (qamLevels v) with h | h
  · rw [h]; rfl
  · simp only [qamLevels, List.mem_cons, List.not_mem_nil, or_false] at h
    change nearestOf x _ (qamLevels v) = _ ∨ nearestOf x _ (qamLevels v) = _ ∨
      nearestOf x _ (qamLevels v) = _ ∨ nearestOf x _ (qamLevels v) = _ at h
    rcases h with h | h | h | h <;> rw [h] <;> rfl

@[simp] theorem length_qam16Demodulate (n c : Nat) (v : Sample) (r : List Sample) :
    (qam16Demodulate n c v r).length = 4 * (r.length / n) := by
  unfold qam16Demodulate
  rw [length_flatMap_const _ 4 (by intro a; simp), length_intervals]; ring

theorem le_length_stuff (run : Nat) (b : List Bit) : b.length ≤ (stuff run b).length := by
  induction b generalizing run with
  | nil => simp
  | cons x b ih =>
    cases x
    · have := ih 0; simp only [stuff, List.length_cons]; omega
    · unfold stuff
      split
      · have := ih 0; simp only [List.length_cons]; omega
      · have := ih (run + 1); simp only [List.length_cons]; omega

theorem le_length_bstEncode (b : List Bit) : 16 + b.length ≤ (bstEncode b).length := by
  have := le_length_stuff 0 b
  simp only [bstEncode, stuffFlag, List.length_append, List.length_cons, List.length_nil]
  omega

@[simp] theorem length_crcTrailer (c : Word) : (crcTrailer c).length = 32 := by simp [crcTrailer]

theorem length_crcCheck (f : List Bit) : (crcCheck f).out.length = f.length - 32 := by
  unfold crcCheck
  split
  · simp only [List.length_nil]; omega
  · simp only [List.length_take]; omega

@[simp] theorem length_hamEncode (b : List Bit) : (hamEncode b).length = 7 * ((b.length + 3) / 4) := by
  unfold hamEncode
  rw [length_flatMap_const _ 7 (by intro a; rfl), List.length_range, (length_padz_div b (by norm_num)).1]
  ring

@[simp] theorem length_hamDecode (c : List Bit) : (hamDecode c).length = 4 * ((c.length + 6) / 7) := by
  unfold hamDecode
  rw [length_flatMap_const _ 4 (by intro a; rfl), length_intervals, (length_padz_div c (by norm_num)).1]
  ring

/-! ## Everything a command can do -/

/-- A bit-input command with a legal configuration is its cycle from the IN_RANGE check on (R77, R78). -/
theorem exec_bitInput {i : Instr} {s : State} (h : ConfigOk i s) (hb : bitInput i = true) :
    ∃ finish, exec i s = withInBits s (leastOutput i s) (outputCapacity i s) finish := by
  cases i <;> first
    | exact absurd hb (by decide)
    | exact ⟨_, if_pos ((waveOk_iff s).2 h)⟩
    | exact ⟨_, if_pos ((askOk_iff s).2 h)⟩
    | exact ⟨_, if_pos ((fskOk_iff s).2 h)⟩
    | exact ⟨_, if_pos ((iqOk_iff s).2 h)⟩
    | exact ⟨_, rfl⟩

/-- A sample-input command with a legal configuration is its cycle from the IN_RANGE check on (R77, R78). -/
theorem exec_sampleInput {i : Instr} {s : State} (h : ConfigOk i s) (hb : sampleInput i = true) :
    ∃ finish, exec i s = withInSamp s (leastOutput i s) (outputCapacity i s) finish := by
  cases i <;> first
    | exact absurd hb (by decide)
    | exact ⟨_, if_pos ((waveOk_iff s).2 h)⟩
    | exact ⟨_, if_pos ((fskOk_iff s).2 h)⟩
    | exact ⟨_, if_pos ((iqOk_iff s).2 h)⟩


/-- What a command answers when it answers a next state: a rejection, an accepted sample output, an
accepted bit output, or AMI_RST. -/
theorem exec_next_cases {i : Instr} {s t : State} (h : exec i s = .next t) :
    (∃ c, c ≠ .ok ∧ t = s.reject c) ∨
    (sampleOutput i = true ∧ ∃ out pol, out.length ≤ s.params.maxSamples ∧
      (i ≠ .amiEnc → pol = none) ∧ t = ((s.emitSamp out).setPol pol).accept false) ∨
    (bitOutput i = true ∧ ∃ out err, out.length ≤ s.params.maxBits ∧
      (i ≠ .crcChk → err = false) ∧ t = ((s.emitBits out).setPol none).accept err) ∨
    (i = .amiRst ∧ t = (s.setPol (some true)).accept false) := by
  have bits : ∀ {least cap : Nat} {f : List Bit → Produced Bit},
      withInBits s least cap (fun b => s.finishBits (f b)) = .next t → (∀ b, (f b).pol = none) →
      (∀ b, i ≠ .crcChk → (f b).err = false) → bitOutput i = true →
      (∃ c, c ≠ .ok ∧ t = s.reject c) ∨
      (bitOutput i = true ∧ ∃ out err, out.length ≤ s.params.maxBits ∧
        (i ≠ .crcChk → err = false) ∧ t = ((s.emitBits out).setPol none).accept err) := by
    intro least cap f h hp he ho
    rcases withInBits_cases s least cap fun b => s.finishBits (f b) with
      ⟨-, e⟩ | ⟨-, b, -, -, e⟩ | ⟨-, -, e⟩ | ⟨-, -, j, -, -, e⟩ <;> rw [e] at h
    · cases h; exact .inl ⟨_, by simp, rfl⟩
    · cases h
      rcases finishBits_cases s (f b) with ⟨-, e2⟩ | ⟨hl, e2⟩
      · exact .inl ⟨_, by simp, e2⟩
      · rw [hp] at e2; exact .inr ⟨ho, _, _, hl, he b, e2⟩
    · cases h; exact .inl ⟨_, by simp, rfl⟩
    · cases h
  have sampBits : ∀ {least cap : Nat} {f : List Sample → List Bit},
      withInSamp s least cap (fun b => s.finishBits (plain (f b))) = .next t → bitOutput i = true →
      (∃ c, c ≠ .ok ∧ t = s.reject c) ∨
      (bitOutput i = true ∧ ∃ out err, out.length ≤ s.params.maxBits ∧
        (i ≠ .crcChk → err = false) ∧ t = ((s.emitBits out).setPol none).accept err) := by
    intro least cap f h ho
    rcases withInSamp_cases s least cap fun b => s.finishBits (plain (f b)) with
      ⟨-, e⟩ | ⟨-, b, -, -, e⟩ | ⟨-, -, e⟩ | ⟨-, -, j, -, -, e⟩ <;> rw [e] at h
    · cases h; exact .inl ⟨_, by simp, rfl⟩
    · cases h
      rcases finishBits_cases s (plain (f b)) with ⟨-, e2⟩ | ⟨hl, e2⟩
      · exact .inl ⟨_, by simp, e2⟩
      · exact .inr ⟨ho, _, _, hl, fun _ => rfl, e2⟩
    · cases h; exact .inl ⟨_, by simp, rfl⟩
    · cases h
  have samps : ∀ {least cap : Nat} {f : List Bit → Produced Sample},
      withInBits s least cap (fun b => s.finishSamples (f b)) = .next t →
      (∀ b, i ≠ .amiEnc → (f b).pol = none) → (∀ b, (f b).err = false) → sampleOutput i = true →
      (∃ c, c ≠ .ok ∧ t = s.reject c) ∨
      (sampleOutput i = true ∧ ∃ out pol, out.length ≤ s.params.maxSamples ∧
        (i ≠ .amiEnc → pol = none) ∧ t = ((s.emitSamp out).setPol pol).accept false) := by
    intro least cap f h hp he ho
    rcases withInBits_cases s least cap fun b => s.finishSamples (f b) with
      ⟨-, e⟩ | ⟨-, b, -, -, e⟩ | ⟨-, -, e⟩ | ⟨-, -, j, -, -, e⟩ <;> rw [e] at h
    · cases h; exact .inl ⟨_, by simp, rfl⟩
    · cases h
      rcases finishSamples_cases s (f b) with ⟨-, e2⟩ | ⟨hl, e2⟩
      · exact .inl ⟨_, by simp, e2⟩
      · rw [he] at e2; exact .inr ⟨ho, _, _, hl, hp b, e2⟩
    · cases h; exact .inl ⟨_, by simp, rfl⟩
    · cases h
  have config : ∀ {ok : Bool} {rest : Result}, checkConfig s ok rest = .next t →
      (∃ c, c ≠ .ok ∧ t = s.reject c) ∨ rest = .next t := by
    intro ok rest h
    rcases checkConfig_cases s ok rest with ⟨-, e⟩ | ⟨-, e⟩ <;> rw [e] at h
    · exact .inr h
    · cases h; exact .inl ⟨_, by simp, rfl⟩
  have left : ∀ {A B C D : Prop}, A ∨ B → A ∨ B ∨ C ∨ D := fun h => h.imp_right .inl
  have mid : ∀ {A B C D : Prop}, A ∨ C → A ∨ B ∨ C ∨ D := fun h => h.imp_right (.inr ∘ .inl)
  cases i
  case amiRst => cases h; exact .inr (.inr (.inr ⟨rfl, rfl⟩))
  case nrzEnc | manEnc | amiEnc | askMod | fskMod | qpskMod | qam16Mod =>
    rcases config h with h | h
    · exact .inl h
    · exact left (samps h (by simp [plain]) (by simp [plain]) rfl)
  case nrzDec | manDec | amiDec | askDem | fskDem | qpskDem | qam16Dem =>
    rcases config h with h | h
    · exact .inl h
    · exact mid (sampBits h rfl)
  case bstEnc | bstDec | crcGen | hamEnc | hamDec =>
    exact mid (bits h (by simp [plain]) (by simp [plain]) rfl)
  case crcChk =>
    refine mid (bits h ?_ (by simp) rfl)
    intro b; unfold crcCheck; split <;> rfl

end Sys2Proof.Machine
end

