-- ==== Sys2Proof/Laws/Cycles.lean ====
section
/-! SUPPORT. From a command's function to its whole cycle (R77), and the elements and decision statistics
of waveforms as real numbers (R13, R130, R135, R138). -/

namespace Sys2Proof.Machine

/-! ## Cycles -/

theorem samplesOut_congr {s t : State} {len : Nat} {pol : Bool} {w w' : Nat → ℝ}
    (h : SamplesOut s t len pol w) (e : ∀ j, j < len → w j = w' j) : SamplesOut s t len pol w' := by
  obtain ⟨h1, h2, h3, h4⟩ := h
  refine ⟨h1, h2, fun j hj => ?_, h4⟩
  obtain ⟨x, hx, hv⟩ := h3 j hj
  exact ⟨x, hx, hv.trans (e j hj)⟩

theorem bitsOut_congr {s t : State} {len : Nat} {err : Bool} {one one' : Nat → Prop}
    (h : BitsOut s t len err one) (e : ∀ j, j < len → (one j ↔ one' j)) : BitsOut s t len err one' := by
  obtain ⟨h1, h2, h3, h4⟩ := h
  refine ⟨h1, h2, fun j hj => ?_, h4⟩
  obtain ⟨x, hx, hv⟩ := h3 j hj
  exact ⟨x, hx, hv.trans (e j hj)⟩

/-- The whole cycle of a command from bits to samples, from what its function gives on the input bits. -/
theorem sampleCycle_of {i : Instr} {s : State} {ok : Bool} {least : Nat → Nat} {len : Nat}
    {pol : List Bit → Bool} {w : List Bit → Nat → ℝ} {f : List Bit → Produced Sample}
    (he : exec i s = checkConfig s ok (runBitsToSamples s least f)) (hok : ok = true ↔ ConfigOk i s)
    (hlen : least s.inBlen.toNat = len) (hl : ∀ b, b.length = s.inBlen.toNat → (f b).out.length = len)
    (herr : ∀ b, (f b).err = false) (hpol : ∀ b, (f b).pol.getD s.amiPol = pol b)
    (hw : ConfigOk i s → ∀ b, b.length = s.inBlen.toNat → ∀ j, j < len → sampleAt (f b).out j = w b j) :
    SampleCycle i s len pol w := by
  refine ⟨fun h => ?_, fun h h1 => ?_, fun h h1 h2 => ?_, fun b h h1 h2 => ?_⟩
  · have : ok = false := by rw [← hok] at h; simpa using h
    rw [he, this]; rfl
  · rw [he, hok.2 h]; exact withInBits_inRange h1
  · rw [he, hok.2 h]
    show withInBits _ _ _ _ = _
    unfold withInBits
    rw [if_neg (by omega)]
    rcases s.inBits.readSeq_cases 0 s.inBlen.toNat with ⟨b, e, hb, -⟩ | ⟨j, e, -⟩ <;> rw [e]
    · simp only [State.finishSamples, hl b hb, if_pos h2]; rfl
    · simp only [hlen, if_pos h2]; rfl
  · rw [he, hok.2 h]
    refine ⟨_, withInBits_loaded h1, ?_⟩
    have e := hl b h1.1
    have hs := samplesOut_accept s (f b) (herr b)
    rw [e, hpol] at hs
    simp only [State.finishSamples]
    rw [e, if_neg (by omega)]
    exact samplesOut_congr hs (hw h b h1.1)

/-- The whole cycle of a command from samples to bits, from what its function gives on the waveform. -/
theorem decisionCycle_of {i : Instr} {s : State} {ok : Bool} {least : Nat → Nat} {len : Nat}
    {one : (Nat → ℝ) → Nat → Prop} {f : List Sample → List Bit}
    (he : exec i s = checkConfig s ok (runSamplesToBits s least fun r => plain (f r)))
    (hok : ok = true ↔ ConfigOk i s) (hlen : least s.inSlen.toNat = len)
    (hl : ∀ r, r.length = s.inSlen.toNat → (f r).length = len)
    (hw : ConfigOk i s → ∀ r, r.length = s.inSlen.toNat → ∀ j, j < len →
      (bitAt (f r) j = true ↔ one (sampleAt r) j)) :
    DecisionCycle i s len one := by
  refine ⟨fun h => ?_, fun h h1 => ?_, fun h h1 h2 => ?_, fun r h h1 h2 => ?_⟩
  · have : ok = false := by rw [← hok] at h; simpa using h
    rw [he, this]; rfl
  · rw [he, hok.2 h]; exact withInSamp_inRange h1
  · rw [he, hok.2 h]
    show withInSamp _ _ _ _ = _
    unfold withInSamp
    rw [if_neg (by omega)]
    rcases s.inSamp.readSeq_cases 0 s.inSlen.toNat with ⟨r, e, hr, -⟩ | ⟨j, e, -⟩ <;> rw [e]
    · simp only [State.finishBits, plain, hl r hr, if_pos h2]; rfl
    · simp only [hlen, if_pos h2]; rfl
  · rw [he, hok.2 h]
    refine ⟨_, withInSamp_loaded h1, ?_⟩
    have e : (plain (f r)).out.length = len := hl r h1.1
    have hs := bitsOut_accept s (plain (f r)) rfl
    rw [e] at hs
    simp only [State.finishBits]
    rw [e, if_neg (by omega)]
    exact bitsOut_congr hs (hw h r h1.1)

/-- The whole cycle of a command from bits to bits whose output length follows from the input length, from
what its function gives on the input bits. -/
theorem fixedBitCycle_of {i : Instr} {s : State} {least : Nat → Nat} {len : Nat} {out f : List Bit → List Bit}
    (he : exec i s = runBitsToBits s least fun b => plain (f b)) (hlen : least s.inBlen.toNat = len)
    (hl : ∀ b, b.length = s.inBlen.toNat → (f b).length = len)
    (hf : ∀ b, b.length = s.inBlen.toNat → f b = out b) : FixedBitCycle i s len out fun _ => false := by
  refine ⟨fun h => ?_, fun h1 h2 => ?_, fun b h1 h2 => ⟨hf b h1.1 ▸ hl b h1.1, ?_⟩⟩
  · rw [he]; exact withInBits_inRange h
  · rw [he]
    unfold runBitsToBits withInBits
    rw [if_neg (by omega)]
    rcases s.inBits.readSeq_cases 0 s.inBlen.toNat with ⟨b, e, hb, -⟩ | ⟨j, e, -⟩ <;> rw [e]
    · simp only [State.finishBits, plain, hl b hb, if_pos h2]; rfl
    · simp only [hlen, if_pos h2]; rfl
  · rw [he]
    refine ⟨_, withInBits_loaded h1, ?_⟩
    have e : (plain (f b)).out.length = len := hl b h1.1
    have hs := bitsOut_accept s (plain (f b)) rfl
    rw [e] at hs
    simp only [State.finishBits]
    rw [e, if_neg (by omega), ← hf b h1.1]
    exact hs

/-! ## The samples of a waveform -/

/-- Element `j` of a waveform made of equal blocks, one for each bit. -/
theorem sampleAt_flatMap (f : Bit → List Sample) (n : Nat) (hn : 0 < n) (h : ∀ a, (f a).length = n)
    (b : List Bit) (j : Nat) (hj : j < b.length * n) :
    sampleAt (b.flatMap f) j = sampleAt (f (bitAt b (j / n))) (j % n) := by
  have h1 : j / n < b.length := by rw [Nat.div_lt_iff_lt_mul hn]; exact hj
  unfold sampleAt
  rw [List.getD_eq_getElem?_getD, getElem?_flatMap_const f n hn h, getElem?_eq_bitAt h1,
    List.getD_eq_getElem?_getD]
  rfl

/-- Element `j` of a waveform made of equal blocks, one for each symbol number below `m`. -/
theorem sampleAt_flatMap_range (f : Nat → List Sample) (n m : Nat) (hn : 0 < n)
    (h : ∀ a, (f a).length = n) (j : Nat) (hj : j < m * n) :
    sampleAt ((List.range m).flatMap f) j = sampleAt (f (j / n)) (j % n) := by
  have h1 : j / n < m := by rw [Nat.div_lt_iff_lt_mul hn]; exact hj
  unfold sampleAt
  rw [List.getD_eq_getElem?_getD, getElem?_flatMap_const f n hn h, List.getElem?_range h1,
    List.getD_eq_getElem?_getD]
  rfl

theorem sampleAt_replicate (n : Nat) (x : Sample) {k : Nat} (h : k < n) :
    sampleAt (List.replicate n x) k = x.toReal := by
  unfold sampleAt
  rw [List.getD_eq_getElem?_getD, List.getElem?_replicate, if_pos h]
  rfl

theorem sampleAt_map_range (n : Nat) (f : Nat → Sample) {k : Nat} (h : k < n) :
    sampleAt ((List.range n).map f) k = (f k).toReal := by
  unfold sampleAt
  rw [List.getD_eq_getElem?_getD]
  simp [h]

theorem sampleAt_append_left {a : List Sample} (b : List Sample) {j : Nat} (h : j < a.length) :
    sampleAt (a ++ b) j = sampleAt a j := by
  unfold sampleAt
  rw [List.getD_eq_getElem?_getD, List.getD_eq_getElem?_getD, List.getElem?_append_left h]

theorem sampleAt_append_right {a : List Sample} (b : List Sample) {j : Nat} (h : a.length ≤ j) :
    sampleAt (a ++ b) j = sampleAt b (j - a.length) := by
  unfold sampleAt
  rw [List.getD_eq_getElem?_getD, List.getD_eq_getElem?_getD, List.getElem?_append_right h]

/-- The turns of a carrier's phase are its `theta` (R13). -/
theorem theta_of_turn (c k n : Nat) : 2 * Real.pi * ((thetaTurn c k n : ℚ) : ℝ) = theta c k n := by
  unfold thetaTurn theta
  push_cast
  ring

@[simp] theorem toReal_carrierSin (c k n : Nat) : (carrierSin c k n).toReal = Real.sin (theta c k n) := by
  unfold carrierSin
  rw [Sample.toReal_sinTurn, theta_of_turn]

@[simp] theorem toReal_carrierCos (c k n : Nat) : (carrierCos c k n).toReal = Real.cos (theta c k n) := by
  unfold carrierCos
  rw [Sample.toReal_cosTurn, theta_of_turn]

/-- Sample `k` of an I/Q symbol (R137, R141). -/
theorem sampleAt_iqSymbol (n c : Nat) (i q : Sample) {k : Nat} (h : k < n) :
    sampleAt (iqSymbol n c i q) k =
      i.toReal * Real.cos (theta c k n) + q.toReal * Real.sin (theta c k n) := by
  unfold iqSymbol
  rw [sampleAt_map_range _ _ h]
  simp

/-- The level of a pair of bits (R140). -/
theorem toReal_gray2 (v : Sample) (b0 b1 : Bit) : (gray2 v b0 b1).toReal = gray2Real v.toReal b0 b1 := by
  cases b0 <;> cases b1 <;> simp [gray2, gray2Real, levelA3, levelA1] <;> ring

/-! ## Intervals and their statistics -/

theorem length_seg_of_lt (w : List Sample) {n j : Nat} (hj : j < w.length / n) :
    (seg w j n).length = n := by
  apply length_seg
  calc (j + 1) * n ≤ (w.length / n) * n := Nat.mul_le_mul_right _ hj
    _ ≤ _ := Nat.div_mul_le_self _ _

theorem sampleAt_seg (w : List Sample) (i n : Nat) {k : Nat} (h : k < n) :
    sampleAt (seg w i n) k = sampleAt w (i * n + k) := by
  unfold sampleAt seg
  rw [List.getD_eq_getElem?_getD, List.getD_eq_getElem?_getD, List.getElem?_take, if_pos h,
    List.getElem?_drop]

/-- Bit `j` of a decoder that decides once for each interval. -/
theorem bitAt_map_intervals (f : List Sample → Bit) (w : List Sample) (n : Nat) {j : Nat}
    (hj : j < w.length / n) : bitAt ((intervals n w).map f) j = f (seg w j n) := by
  unfold bitAt intervals nInt
  rw [List.getD_eq_getElem?_getD]
  simp [hj]

/-- Bit `j` of a decoder that gives `m` bits for each interval. -/
theorem bitAt_flatMap_intervals (f : List Sample → List Bit) (m : Nat) (w : List Sample) (n : Nat) {j : Nat}
    (hm : 0 < m) (hf : ∀ a, (f a).length = m) (hj : j < m * (w.length / n)) :
    bitAt ((intervals n w).flatMap f) j = bitAt (f (seg w (j / m) n)) (j % m) := by
  have h1 : j / m < w.length / n := by
    rw [Nat.div_lt_iff_lt_mul hm, Nat.mul_comm]; exact hj
  unfold bitAt
  rw [List.getD_eq_getElem?_getD, getElem?_flatMap_const f m hm hf]
  unfold intervals nInt
  simp [h1]

theorem toReal_sum_eq (l : List Sample) :
    (Sample.sum l).toReal = ∑ k ∈ Finset.range l.length, sampleAt l k := by
  rw [Sample.toReal_sum]
  induction l with
  | nil => simp
  | cons x l ih =>
    rw [List.map_cons, List.sum_cons, List.length_cons, Finset.sum_range_succ', ih, add_comm]
    congr 1

theorem toReal_mean_eq (l : List Sample) :
    (Sample.mean l).toReal = (∑ k ∈ Finset.range l.length, sampleAt l k) / l.length := by
  rw [Sample.toReal_mean, ← Sample.toReal_sum, toReal_sum_eq]

/-- The mean of an interval (R13). -/
theorem toReal_mean_seg (w : List Sample) {n j : Nat} (hj : j < w.length / n) :
    (Sample.mean (seg w j n)).toReal = meanOf (sampleAt w) (j * n) n := by
  rw [toReal_mean_eq, length_seg_of_lt w hj, meanOf]
  congr 1
  exact Finset.sum_congr rfl fun k hk => sampleAt_seg _ _ _ (Finset.mem_range.1 hk)

/-- The correlation of an interval with a reference (R135, R138). -/
theorem toReal_correlateWith (ref : Nat → Sample) (w : List Sample) {n j : Nat} (hj : j < w.length / n) :
    (correlateWith ref (seg w j n)).toReal = corrOf (sampleAt w) n j fun k => (ref k).toReal := by
  have hl := length_seg_of_lt w hj
  unfold correlateWith
  rw [toReal_sum_eq, corrOf, List.length_map, List.length_zipIdx, hl]
  refine Finset.sum_congr rfl fun k hk => ?_
  have hk := Finset.mem_range.1 hk
  rw [← sampleAt_seg w j n hk]
  unfold sampleAt
  simp [List.getD_eq_getElem?_getD, hl, hk]

end Sys2Proof.Machine
end

