-- ==== Sys2Proof/Laws/HostPort.lean ====
section
/-! SUPPORT. What each access of the host can do, said once (R50 to R62, R238), and the octets of IN_BITS
(R53). -/

namespace Sys2Proof.Machine

/-! ## Octets -/

theorem writeOctet_zero (cap j : Nat) (v : Octet) (b : Buf Bit) : writeOctet cap j v 0 b = b := rfl

theorem writeOctet_succ (cap j : Nat) (v : Octet) (n : Nat) (b : Buf Bit) :
    writeOctet cap j v (n + 1) b = writeOctet cap j v n
      (if 8 * j + (7 - n) < cap then b.write (8 * j + (7 - n)) (v.getLsbD n) else b) := rfl

/-- Writing an octet keeps the form of a buffer. -/
theorem wf_writeOctet {cap j : Nat} {v : Octet} {n : Nat} {b : Buf Bit} (h : b.wf = true) :
    (writeOctet cap j v n b).wf = true := by
  induction n generalizing b with
  | zero => exact h
  | succ n ih =>
    rw [writeOctet_succ]
    apply ih
    split
    · exact Buf.wf_write h _ _
    · exact h

/-- Writing an octet keeps a buffer within its capacity. -/
theorem within_writeOctet {cap j : Nat} {v : Octet} {n : Nat} {b : Buf Bit} (h : b.within cap) :
    (writeOctet cap j v n b).within cap := by
  induction n generalizing b with
  | zero => exact h
  | succ n ih =>
    rw [writeOctet_succ]
    apply ih
    split
    · intro c hc
      rcases Buf.mem_write hc with rfl | hc
      · assumption
      · exact h c hc
    · exact h

/-- A read after an octet write (R53): the low `n` bits of the octet stand at the last `n` indices of its
eight; an index beyond the capacity, or of another octet, is left alone. -/
theorem read_writeOctet {cap j : Nat} {v : Octet} {n : Nat} (hn : n ≤ 8) {b : Buf Bit} (h : b.wf = true)
    (i : Nat) :
    (writeOctet cap j v n b).read i =
      if 8 * j + (8 - n) ≤ i ∧ i < 8 * j + 8 ∧ i < cap then some (v.getLsbD (7 - i % 8))
      else b.read i := by
  induction n generalizing b with
  | zero => rw [writeOctet_zero, if_neg (by omega)]
  | succ n ih =>
    rw [writeOctet_succ]
    by_cases hc : 8 * j + (7 - n) < cap
    · rw [if_pos hc, ih (by omega) (Buf.wf_write h _ _), Buf.read_write h]
      by_cases h1 : 8 * j + (8 - n) ≤ i ∧ i < 8 * j + 8 ∧ i < cap
      · rw [if_pos h1, if_pos (by omega)]
      · rw [if_neg h1]
        by_cases h2 : i = 8 * j + (7 - n)
        · rw [if_pos h2, if_pos (by omega), show 7 - i % 8 = n by omega]
        · rw [if_neg h2, if_neg (by omega)]
    · rw [if_neg hc, ih (by omega) h]
      by_cases h1 : 8 * j + (8 - n) ≤ i ∧ i < 8 * j + 8 ∧ i < cap
      · rw [if_pos h1, if_pos (by omega)]
      · rw [if_neg h1, if_neg (by omega)]

/-- Bit `7 - t` of an octet read is the bit the buffer shows at index `8j + t`, free where it shows
none (R53, R54). -/
theorem getLsbD_octetOf (s : State) (sp : BitSpace) (j : Nat) {t : Nat} (ht : t < 8) :
    (s.octetOf sp j).getLsbD (7 - t) =
      (s.bitOf sp (8 * j + t)).getD ((Config.freeOctet s.tick).getLsbD (7 - t)) := by
  unfold State.octetOf
  generalize hf : (fun t => (s.bitOf sp (8 * j + t)).getD ((Config.freeOctet s.tick).getLsbD (7 - t))) = f
  rw [show (s.bitOf sp (8 * j + t)).getD ((Config.freeOctet s.tick).getLsbD (7 - t)) = f t from
    congrFun hf t]
  clear hf
  show BitVec.getLsbD (BitVec.ofBoolListBE [f 0, f 1, f 2, f 3, f 4, f 5, f 6, f 7]) (7 - t) = f t
  interval_cases t <;> simp [BitVec.ofBoolListBE, BitVec.getElem_cons]

/-! ## One access -/

@[simp] theorem perform_wr (s : State) (off : Nat) (v : HostData) : s.perform (.wr off v) = s.doWr off v := rfl
@[simp] theorem perform_rd (s : State) (off : Nat) : s.perform (.rd off) = s.doRd off := rfl
@[simp] theorem perform_wb (s : State) (sp : BitSpace) (j : Nat) (v : Octet) :
    s.perform (.wb sp j v) = s.doWb sp j v := rfl
@[simp] theorem perform_rb (s : State) (sp : BitSpace) (j : Nat) : s.perform (.rb sp j) = s.doRb sp j := rfl
@[simp] theorem perform_ws (s : State) (sp : SampSpace) (i : Nat) (x : Sample) :
    s.perform (.ws sp i x) = s.doWs sp i x := rfl
@[simp] theorem perform_rs (s : State) (sp : SampSpace) (i : Nat) : s.perform (.rs sp i) = s.doRs sp i := rfl
@[simp] theorem perform_wbLast (s : State) (sp : BitSpace) (j : Nat) :
    s.perform (.wbLast sp j) = s.doWbLast sp j := rfl
@[simp] theorem perform_wsLast (s : State) (sp : SampSpace) (i : Nat) :
    s.perform (.wsLast sp i) = s.doWsLast sp i := rfl
@[simp] theorem perform_wait (s : State) : s.perform .wait = s.doWait := rfl
@[simp] theorem perform_mvb (s : State) : s.perform .mvb = s.doMvb := rfl
@[simp] theorem perform_mvs (s : State) : s.perform .mvs = s.doMvs := rfl
@[simp] theorem perform_reset (s : State) : s.perform .reset = s.resetBlock := rfl

theorem sameBlock_refl (s : State) : SameBlock s s := rfl

theorem sameBlock_trans {s t u : State} (h1 : SameBlock s t) (h2 : SameBlock t u) : SameBlock s u := by
  unfold SameBlock at *
  rw [h2, h1]

theorem sameBlock_doRd (s : State) (off : Nat) : SameBlock s (s.doRd off) := rfl

theorem doWb_cases (s : State) (sp : BitSpace) (j : Nat) (v : Octet) :
    s.doWb sp j v = s ∨ (s.inflight = none ∧
      s.doWb sp j v = { s with inBits := writeOctet s.params.maxBits j v 8 s.inBits }) := by
  unfold State.doWb State.busy
  cases h : s.inflight with
  | some c => exact .inl rfl
  | none =>
    cases sp
    · exact .inr ⟨rfl, rfl⟩
    · exact .inl rfl

theorem doWs_cases (s : State) (sp : SampSpace) (i : Nat) (x : Sample) :
    s.doWs sp i x = s ∨ (s.inflight = none ∧ i < s.params.maxSamples ∧
      s.doWs sp i x = { s with inSamp := s.inSamp.write i x }) := by
  unfold State.doWs State.busy
  cases h : s.inflight with
  | some c => exact .inl rfl
  | none =>
    cases sp
    · by_cases hi : i < s.params.maxSamples
      · exact .inr ⟨rfl, hi, by simp [hi]⟩
      · exact .inl (by simp [hi])
    · exact .inl rfl

/-- What one access does: it is a reset; or it changes nothing but what the model keeps of the host; or
the block is idle and it writes one register, octet or sample. -/
theorem perform_cases (s : State) (a : Access) :
    (a = .reset ∧ s.perform a = s.resetBlock) ∨
    (a ≠ .reset ∧ (s.perform a).inflight = s.inflight ∧ SameBlock s (s.perform a)) ∨
    (s.inflight = none ∧
      ((∃ r v, a = .wr r.offset v ∧ s.perform a = s.writeReg r v) ∨
        (∃ j v, s.perform a = { s with inBits := writeOctet s.params.maxBits j v 8 s.inBits }) ∨
        ∃ i x, i < s.params.maxSamples ∧ s.perform a = { s with inSamp := s.inSamp.write i x })) := by
  have hwb : ∀ sp j v, (s.doWb sp j v).inflight = s.inflight ∧ SameBlock s (s.doWb sp j v) ∨
      (s.inflight = none ∧
        s.doWb sp j v = { s with inBits := writeOctet s.params.maxBits j v 8 s.inBits }) := by
    intro sp j v
    rcases doWb_cases s sp j v with h | h
    · exact .inl (by rw [h]; exact ⟨rfl, rfl⟩)
    · exact .inr h
  have hws : ∀ sp i x, (s.doWs sp i x).inflight = s.inflight ∧ SameBlock s (s.doWs sp i x) ∨
      (s.inflight = none ∧ i < s.params.maxSamples ∧
        s.doWs sp i x = { s with inSamp := s.inSamp.write i x }) := by
    intro sp i x
    rcases doWs_cases s sp i x with h | h
    · exact .inl (by rw [h]; exact ⟨rfl, rfl⟩)
    · exact .inr h
  cases a with
  | reset => exact .inl ⟨rfl, rfl⟩
  | rd off => exact .inr (.inl ⟨by simp, rfl, rfl⟩)
  | rb sp j => exact .inr (.inl ⟨by simp, rfl, rfl⟩)
  | rs sp i => exact .inr (.inl ⟨by simp, rfl, rfl⟩)
  | mvb => exact .inr (.inl ⟨by simp, rfl, rfl⟩)
  | mvs => exact .inr (.inl ⟨by simp, rfl, rfl⟩)
  | wait =>
    refine .inr (.inl ⟨by simp, ?_⟩)
    show s.doWait.inflight = _ ∧ SameBlock s s.doWait
    unfold State.doWait
    split <;> exact ⟨rfl, rfl⟩
  | wr off v =>
    show _ ∨ (_ ∧ (s.doWr off v).inflight = _ ∧ SameBlock s (s.doWr off v)) ∨
      (_ ∧ ((∃ r v', _ ∧ s.doWr off v = _) ∨ _))
    unfold State.doWr State.busy
    cases h : s.inflight with
    | some c => exact .inr (.inl ⟨by simp, h, rfl⟩)
    | none =>
      cases hr : Reg.ofOffset off with
      | none => exact .inr (.inl ⟨by simp, h, rfl⟩)
      | some r =>
        refine .inr (.inr ⟨rfl, .inl ⟨r, v, ?_, rfl⟩⟩)
        congr 1
        unfold Reg.ofOffset at hr
        split at hr <;> first | (cases hr; rfl) | cases hr
  | wb sp j v =>
    rcases hwb sp j v with h | ⟨h, e⟩
    · exact .inr (.inl ⟨by simp, h⟩)
    · exact .inr (.inr ⟨h, .inr (.inl ⟨j, v, e⟩)⟩)
  | ws sp i x =>
    rcases hws sp i x with h | ⟨h, hi, e⟩
    · exact .inr (.inl ⟨by simp, h⟩)
    · exact .inr (.inr ⟨h, .inr (.inr ⟨i, x, hi, e⟩)⟩)
  | wbLast sp j =>
    have e : s.perform (.wbLast sp j) = s ∨ ∃ v, s.perform (.wbLast sp j) = s.doWb sp j v := by
      show s.doWbLast sp j = s ∨ ∃ v, s.doWbLast sp j = _
      unfold State.doWbLast
      split
      · exact .inr ⟨_, rfl⟩
      · exact .inl rfl
    rcases e with e | ⟨v, e⟩ <;> rw [e]
    · exact .inr (.inl ⟨by simp, rfl, rfl⟩)
    · rcases hwb sp j v with h | ⟨h, e⟩
      · exact .inr (.inl ⟨by simp, h⟩)
      · exact .inr (.inr ⟨h, .inr (.inl ⟨j, v, e⟩)⟩)
  | wsLast sp i =>
    have e : s.perform (.wsLast sp i) = s ∨ ∃ x, s.perform (.wsLast sp i) = s.doWs sp i x := by
      show s.doWsLast sp i = s ∨ ∃ x, s.doWsLast sp i = _
      unfold State.doWsLast
      split
      · exact .inr ⟨_, rfl⟩
      · exact .inl rfl
    rcases e with e | ⟨x, e⟩ <;> rw [e]
    · exact .inr (.inl ⟨by simp, rfl, rfl⟩)
    · rcases hws sp i x with h | ⟨h, hi, e⟩
      · exact .inr (.inl ⟨by simp, h⟩)
      · exact .inr (.inr ⟨h, .inr (.inr ⟨i, x, hi, e⟩)⟩)

/-- A turn in which no command runs changes nothing of the block before the host's access. -/
theorem sameBlock_countDown (s : State) : SameBlock s s.countDown := by
  unfold State.countDown
  split <;> rfl

/-! ## Steps -/

/-- The first of several steps, taken apart. -/
theorem run_next {n : Nat} {s t : State} (h : step s = .next t) :
    Sys2Proof.core.run (n + 1) s = Sys2Proof.core.run n t := by
  have h' : Sys2Proof.core.step s = .next t := h
  simp only [Host.Core.run, h']

/-- A turn in which no command runs is the host's. -/
theorem step_host {s : State} (h : s.fetchCommand = none) : step s = .next s.hostTurn := by
  unfold step; rw [h]

/-- A turn in which a command runs. -/
theorem step_command {s : State} {w : Word} (h : s.fetchCommand = some w) :
    step s = match decode w with
      | .ok i => exec i s
      | .error _ => .next (s.reject .illegalCmd) := by
  cases hd : decode w <;> simp only [step, h, hd]

/-- With the block idle, a turn is the next access of the host. -/
theorem step_idle {s : State} {a : Access} {rest : List Access} (h : s.inflight = none)
    (hh : s.host = a :: rest) : step s = .next (({ s with host := rest } : State).perform a) := by
  have hf : s.fetchCommand = none := by unfold State.fetchCommand; rw [h]
  have hc : s.countDown = s := by unfold State.countDown; rw [h]
  rw [step_host hf]
  unfold State.hostTurn
  rw [hh, hc]

/-- With a command in progress that is not due, a turn counts its latency down and is otherwise the next
access of the host. -/
theorem step_busy {s : State} {w : Word} {n : Nat} {a : Access} {rest : List Access}
    (h : s.inflight = some ⟨w, n + 1⟩) (hh : s.host = a :: rest) :
    step s = .next (({ s with host := rest, inflight := some ⟨w, n⟩ } : State).perform a) := by
  have hf : s.fetchCommand = none := by unfold State.fetchCommand; rw [h]; rfl
  have hc : s.countDown = { s with inflight := some ⟨w, n⟩ } := by unfold State.countDown; rw [h]
  rw [step_host hf]
  unfold State.hostTurn
  rw [hh, hc]

/-- A write to a register while the block is idle. -/
theorem doWr_idle {s : State} {off : Nat} {v : HostData} {r : Reg} (h : s.inflight = none)
    (hr : Reg.ofOffset off = some r) : s.doWr off v = s.writeReg r v := by
  unfold State.doWr State.busy; rw [h, hr]; rfl

/-- A read of a register while the block is idle. -/
theorem rdData_idle {s : State} {off : Nat} {r : Reg} (h : s.inflight = none)
    (hr : Reg.ofOffset off = some r) : s.rdData off = s.readReg r := by
  unfold State.rdData State.busy; rw [h, hr]; cases r <;> rfl

/-- A command runs exactly when it is in progress and its latency has passed. -/
theorem fetchCommand_eq_some {s : State} {w : Word} :
    s.fetchCommand = some w ↔ s.inflight = some ⟨w, 0⟩ := by
  unfold State.fetchCommand
  split
  · rename_i v h; rw [h]; simp
  · rename_i h
    exact ⟨fun e => (by cases e), fun e => absurd e (h w)⟩

end Sys2Proof.Machine
end

