-- ==== Sys2Proof/Laws/PerInstr.lean ====
section
/-! SUPPORT. What holds of every command as syntax, command by command (R70 to R74). -/

namespace Sys2Proof.Laws.EncodeWellFormed

/-- The command is well formed and its word is a legal command word. -/
def Statement (i : Instr) : Prop := i.wellFormed = true ∧ wordWellFormed (encode i) = true

theorem nrzEnc : Statement .nrzEnc := by unfold Statement; decide
theorem nrzDec : Statement .nrzDec := by unfold Statement; decide
theorem manEnc : Statement .manEnc := by unfold Statement; decide
theorem manDec : Statement .manDec := by unfold Statement; decide
theorem amiEnc : Statement .amiEnc := by unfold Statement; decide
theorem amiDec : Statement .amiDec := by unfold Statement; decide
theorem amiRst : Statement .amiRst := by unfold Statement; decide
theorem askMod : Statement .askMod := by unfold Statement; decide
theorem askDem : Statement .askDem := by unfold Statement; decide
theorem fskMod : Statement .fskMod := by unfold Statement; decide
theorem fskDem : Statement .fskDem := by unfold Statement; decide
theorem qpskMod : Statement .qpskMod := by unfold Statement; decide
theorem qpskDem : Statement .qpskDem := by unfold Statement; decide
theorem qam16Mod : Statement .qam16Mod := by unfold Statement; decide
theorem qam16Dem : Statement .qam16Dem := by unfold Statement; decide
theorem bstEnc : Statement .bstEnc := by unfold Statement; decide
theorem bstDec : Statement .bstDec := by unfold Statement; decide
theorem crcGen : Statement .crcGen := by unfold Statement; decide
theorem crcChk : Statement .crcChk := by unfold Statement; decide
theorem hamEnc : Statement .hamEnc := by unfold Statement; decide
theorem hamDec : Statement .hamDec := by unfold Statement; decide

end Sys2Proof.Laws.EncodeWellFormed
end

