-- ==== Sys2Proof/Tests/Slice0.lean ====
section
/-! SUPPORT. Tests of the model against the spec's own encodings and vectors (30_encoding.md, 43_crc32.md
R198, 95_test_vectors.md), and for every statement with hypotheses a state that meets them. -/

namespace Sys2Proof.Tests

open Sys2Proof.Machine

-- One theorem at a time: run side by side, these many small kernel evaluations need too many threads.
set_option Elab.async false

/-! ## Helpers -/

/-- The state after reset with 64-bit and 256-sample buffers and `SPB = 4`. -/
def base : State := { State.reset with params := ⟨64, 256⟩, spb := 4 }

/-- A bit sequence from digits. -/
def bits (l : List Nat) : List Bit := l.map fun x => x == 1

/-- The same waveform from rationals. -/
def wave (l : List ℚ) : List Sample := l.map Sample.ofRat

/-- `s` with a bit input. -/
def loadBits (s : State) (l : List Bit) : State :=
  { s with inBits := numbered 0 l, inBlen := BitVec.ofNat 32 l.length }

/-- `s` with a waveform as input. -/
def loadWave (s : State) (l : List Sample) : State :=
  { s with inSamp := numbered 0 l, inSlen := BitVec.ofNat 32 l.length }

/-- The bits, ERR and CODE a command leaves. -/
def bitResult : Result → Option (List Bit × Bool × Code)
  | .next t =>
    match t.outBits.readSeq 0 t.outBlen.toNat with
    | .ok l => some (l, t.err, t.code)
    | .error _ => none
  | _ => none

/-- A command leaves these bits with ERR = 0 and CODE = OK. -/
def gives (r : Result) (l : List Nat) : Bool := bitResult r == some (bits l, false, .ok)

/-- A command leaves a waveform equal to this one as real numbers, this polarity, and CODE = OK. -/
def givesWave (r : Result) (l : List Sample) (pol : Bool) : Bool :=
  match r with
  | .next t =>
    match t.outSamp.readSeq 0 t.outSlen.toNat with
    | .ok m => m.length == l.length && (m.zip l).all (fun x => x.1.sameValue x.2) && t.amiPol == pol &&
        t.code == .ok
    | .error _ => false
  | _ => false

/-- STATUS after a step. -/
def statusOf : Result → Option Word
  | .next t => some t.statusWord
  | _ => none

/-- `A3` and `A1` for `V = 1` (R140). -/
def a3 : Sample := Sample.invSqrtTwo
def a1 : Sample := a3.scale (1 / 3)

/-- The bits of some octets, each most significant bit first (R53). -/
def octetBits (l : List Nat) : List Bit :=
  l.flatMap fun v => (List.range 8).map fun t => v.testBit (7 - t)

/-! ## Well-formed words (R70, R71, R73, R74): one ill-formed word for each check -/

theorem test_rsvOk_refuses_a_reserved_bit : rsvOk 0x00000110#32 = false ∧ rsvOk 0x80000010#32 = false := by decide
theorem test_famOk_refuses_other_families : famOk 0x00000000#32 = false ∧ famOk 0x00000060#32 = false := by decide
theorem test_fnOk_refuses_missing_functions : fnOk 0x00000017#32 = false ∧ fnOk 0x00000028#32 = false := by decide
theorem test_wordWellFormed_accepts : wordWellFormed 0x00000027#32 = true := by decide

/-! ## Every row of the opcode map (R73), its word written out -/

theorem test_decode_line_coder :
    decode 0x00000010#32 = .ok .nrzEnc ∧ decode 0x00000011#32 = .ok .nrzDec ∧
    decode 0x00000012#32 = .ok .manEnc ∧ decode 0x00000013#32 = .ok .manDec ∧
    decode 0x00000014#32 = .ok .amiEnc ∧ decode 0x00000015#32 = .ok .amiDec ∧
    decode 0x00000016#32 = .ok .amiRst := by decide
theorem test_decode_carrier :
    decode 0x00000020#32 = .ok .askMod ∧ decode 0x00000021#32 = .ok .askDem ∧
    decode 0x00000022#32 = .ok .fskMod ∧ decode 0x00000023#32 = .ok .fskDem ∧
    decode 0x00000024#32 = .ok .qpskMod ∧ decode 0x00000025#32 = .ok .qpskDem ∧
    decode 0x00000026#32 = .ok .qam16Mod ∧ decode 0x00000027#32 = .ok .qam16Dem := by decide
theorem test_decode_bit_stuffing :
    decode 0x00000030#32 = .ok .bstEnc ∧ decode 0x00000031#32 = .ok .bstDec := by decide
theorem test_decode_crc :
    decode 0x00000040#32 = .ok .crcGen ∧ decode 0x00000041#32 = .ok .crcChk := by decide
theorem test_decode_hamming :
    decode 0x00000050#32 = .ok .hamEnc ∧ decode 0x00000051#32 = .ok .hamDec := by decide
theorem test_decode_refuses :
    decode 0x00000100#32 = .error .reservedNotZero ∧ decode 0x00000060#32 = .error .unknownFamily ∧
    decode 0x00000052#32 = .error .unknownFunction ∧ decode 0x00000017#32 = .error .unknownFunction := by decide
theorem test_decodeTableWord : decodeTableWord 32 0x26 = some .qam16Mod ∧ decodeTableWord 32 0x17 = none := by
  decide

/-! ## The vectors of 95_test_vectors.md, L2.1 -/

theorem test_nrzEnc_scales_to_vpeak :
    givesWave (exec .nrzEnc (loadBits { base with vpeak := .ofRat (5 / 2) } (bits [1, 0])))
      (wave [5/2, 5/2, 5/2, 5/2, -5/2, -5/2, -5/2, -5/2]) true = true := by decide +kernel
theorem test_nrzDec_ignores_partial_interval :
    gives (exec .nrzDec (loadWave base (wave [1, 1, 1, 1, -1, -1, -1]))) [1] = true := by decide +kernel
theorem test_nrzDec_zero_mean_is_zero :
    gives (exec .nrzDec (loadWave base (wave [1, -1, 1, -1]))) [0] = true := by decide +kernel
theorem test_manEnc_odd_interval :
    givesWave (exec .manEnc (loadBits { base with spb := 5 } (bits [1]))) (wave [1, 1, -1, -1, -1]) true =
      true := by decide +kernel
theorem test_manEnc_two_bits :
    givesWave (exec .manEnc (loadBits base (bits [1, 0]))) (wave [1, 1, -1, -1, -1, -1, 1, 1]) true = true := by
  decide +kernel
theorem test_manDec_compares_halves :
    gives (exec .manDec (loadWave base (wave [-1/5, -1/5, -9/10, -9/10]))) [1] = true := by decide +kernel
theorem test_manDec_equal_halves :
    gives (exec .manDec (loadWave base (wave [0, 0, 0, 0]))) [0] = true := by decide +kernel
theorem test_amiEnc_alternates :
    givesWave (exec .amiEnc (loadBits base (bits [1, 1, 0, 1])))
      (wave [1, 1, 1, 1, -1, -1, -1, -1, 0, 0, 0, 0, 1, 1, 1, 1]) false = true := by decide +kernel
theorem test_amiEnc_keeps_polarity_without_marks :
    givesWave (exec .amiEnc (loadBits { base with amiPol := false } (bits [0])))
      (wave [0, 0, 0, 0]) false = true := by decide +kernel
theorem test_amiDec_threshold :
    gives (exec .amiDec (loadWave base (wave [-2/5, -2/5, -2/5, -2/5, 39/100, 39/100, 39/100, 39/100])))
      [1, 0] = true := by decide +kernel
theorem test_amiDec_scales_with_vpeak :
    gives (exec .amiDec (loadWave { base with vpeak := .ofRat 2 } (wave [4/5, 4/5, 4/5, 4/5]))) [1] = true := by
  decide +kernel
theorem test_amiRst_sets_polarity :
    exec .amiRst { base with amiPol := false, err := true } = .next base := rfl

/-! ## L2.2 -/

theorem test_askMod_one_cycle :
    givesWave (exec .askMod (loadBits base (bits [1, 0]))) (wave [0, 1, 0, -1, 0, 0, 0, 0]) true = true := by
  decide +kernel
theorem test_askMod_whole_half_turns_are_zero :
    givesWave (exec .askMod (loadBits { base with askCyc := 2 } (bits [1]))) (wave [0, 0, 0, 0]) true = true := by
  decide +kernel
theorem test_askDem_threshold_is_zero :
    gives (exec .askDem (loadWave base (wave [1/2, 1/2, -1/2, -1/2, 3/5, 3/5, 3/5, 3/5]))) [0, 1] = true := by
  decide +kernel
theorem test_askDem_ignores_askCyc :
    gives (exec .askDem (loadWave { base with askCyc := 0 } (wave [0, 1, 0, -1]))) [1] = true := by
  decide +kernel
theorem test_fskMod_two_carriers :
    givesWave (exec .fskMod (loadBits { base with spb := 8 } (bits [1, 0])))
      (wave [0, 1, 0, -1, 0, 1, 0, -1] ++
        [.zero, a3, .ofRat 1, a3, .zero, a3.neg, .ofRat (-1), a3.neg]) true = true := by decide +kernel
theorem test_fskDem_two_carriers :
    gives (exec .fskDem (loadWave { base with spb := 8 }
      (wave [0, 1, 0, -1, 0, 1, 0, -1] ++
        [.zero, a3, .ofRat 1, a3, .zero, a3.neg, .ofRat (-1), a3.neg]))) [1, 0] = true := by decide +kernel
theorem test_fskDem_equal_energies :
    gives (exec .fskDem (loadWave base (wave [0, 0, 0, 0]))) [0] = true := by decide +kernel
theorem test_qpskMod_symbols :
    givesWave (exec .qpskMod (loadBits base (bits [0, 0, 1, 1, 1, 0])))
      (wave [1, 1, -1, -1, -1, -1, 1, 1, 1, -1, -1, 1]) true = true := by decide +kernel
theorem test_qpskMod_pads :
    givesWave (exec .qpskMod (loadBits base (bits [1, 0, 1])))
      (wave [1, -1, -1, 1, 1, -1, -1, 1]) true = true := by decide +kernel
theorem test_qpskDem_symbols :
    gives (exec .qpskDem (loadWave base (wave [1, 1, -1, -1, -1, -1, 1, 1, 1, -1, -1, 1])))
      [0, 0, 1, 1, 1, 0] = true := by decide +kernel
theorem test_qpskDem_zero_is_positive :
    gives (exec .qpskDem (loadWave base (wave [0, 0, 0, 0, 1, 1]))) [0, 0] = true := by decide +kernel
theorem test_qam16Mod_symbols :
    givesWave (exec .qam16Mod (loadBits base (bits [0, 0, 1, 0, 1, 1, 0, 1])))
      [a3.neg, a3, a3, a3.neg, a1, a1.neg, a1.neg, a1] true = true := by decide +kernel
theorem test_qam16Mod_pads :
    givesWave (exec .qam16Mod (loadBits base (bits [0, 1, 1]))) [a1.neg, a3, a1, a3.neg] true = true := by
  decide +kernel
theorem test_qam16Dem_midpoint_goes_to_the_lower_level :
    gives (exec .qam16Dem (loadWave base
      (wave [0, 0, 0, 0] ++ [a1.scale 2, a1.scale 2, a1.scale (-2), a1.scale (-2)])))
      [0, 1, 0, 1, 1, 1, 1, 1] = true := by decide +kernel
theorem test_qam16Dem_symbols :
    gives (exec .qam16Dem (loadWave base ([a3.neg, a3, a3, a3.neg] ++ wave [5, 5, -5, -5])))
      [0, 0, 1, 0, 1, 0, 1, 0] = true := by decide +kernel

/-! ## Samples of any real value (R10, R58): two named reals, of which nothing is known -/

theorem test_manDec_equal_halves_of_any_reals :
    gives (exec .manDec (loadWave base [.ofName 0, .ofName 1, .ofName 1, .ofName 0])) [0] = true := by
  decide +kernel
theorem test_products_of_any_reals :
    (((Sample.ofName 0).add (.ofName 1)).mul ((Sample.ofName 0).sub (.ofName 1))).sub
      (((Sample.ofName 0).mul (.ofName 0)).sub ((Sample.ofName 1).mul (.ofName 1))) = .zero := by decide +kernel

/-! ## L2.3 -/

theorem test_bstEnc_flag_pattern :
    gives (exec .bstEnc (loadBits base (bits [0, 1, 1, 1, 1, 1, 1, 0])))
      [0, 1, 1, 1, 1, 1, 1, 0, 0, 1, 1, 1, 1, 1, 0, 1, 0, 0, 1, 1, 1, 1, 1, 1, 0] = true := by decide +kernel
theorem test_bstEnc_empty :
    gives (exec .bstEnc (loadBits base [])) [0, 1, 1, 1, 1, 1, 1, 0, 0, 1, 1, 1, 1, 1, 1, 0] = true := by
  decide +kernel
theorem test_bstDec_keeps_sixth_one :
    gives (exec .bstDec (loadBits base (bits
      [0, 1, 1, 1, 1, 1, 1, 0, 1, 1, 1, 1, 1, 1, 0, 0, 1, 1, 1, 1, 1, 1, 0]))) [1, 1, 1, 1, 1, 1, 0] = true := by
  decide +kernel
theorem test_bstDec_short :
    gives (exec .bstDec (loadBits base (bits [0, 1, 1, 1, 1, 1, 1, 0, 1, 1, 1, 1, 1, 1, 0]))) [] = true := by
  decide +kernel

/-! ## L2.4 and R198 -/

theorem test_crc32_check_value :
    crc32 (octetBits [0x31, 0x32, 0x33, 0x34, 0x35, 0x36, 0x37, 0x38, 0x39]) = 0xFC891918#32 := by decide +kernel
theorem test_crc32_empty : crc32 [] = 0x00000000#32 := by decide +kernel
theorem test_crcGen_hi :
    bitResult (exec .crcGen (loadBits base (octetBits [0x48, 0x49]))) =
      some (octetBits [0x48, 0x49, 0x22, 0x09, 0x34, 0xE4], false, .ok) := by decide +kernel
theorem test_crcGen_overflow :
    (∃ t, exec .crcGen (loadBits base (List.replicate 33 true)) = .next t ∧ t.code = .outOverflow) :=
  ⟨_, rfl, rfl⟩
theorem test_crcChk_bad_trailer :
    bitResult (exec .crcChk (loadBits base (octetBits [0x48, 0x49, 0x22, 0x09, 0x34, 0xE5]))) =
      some (octetBits [0x48, 0x49], true, .ok) := by decide +kernel
theorem test_crcChk_short_frame :
    bitResult (exec .crcChk (loadBits base (List.replicate 31 false))) = some ([], true, .ok) := by
  decide +kernel

/-! ## L2.5 -/

theorem test_hamEnc_pads :
    gives (exec .hamEnc (loadBits base (bits [1, 0, 0, 1, 1, 0])))
      [0, 0, 1, 1, 0, 0, 1, 1, 1, 1, 0, 0, 0, 0] = true := by decide +kernel
theorem test_hamEnc_block :
    gives (exec .hamEnc (loadBits base (bits [1, 0, 1, 1]))) [0, 1, 1, 0, 0, 1, 1] = true := by decide +kernel
theorem test_hamDec_corrects :
    gives (exec .hamDec (loadBits base (bits [0, 1, 1, 0, 1, 1, 1]))) [1, 0, 1, 1] = true := by decide +kernel
theorem test_hamDec_pads :
    gives (exec .hamDec (loadBits base (bits [1, 0, 1, 1, 0]))) [1, 0, 1, 0] = true := by decide +kernel

/-! ## L2.6 and the port -/

theorem test_illegal_word_keeps_err :
    statusOf (step ({ base with err := true }.withCommand 0x00000100#32)) = some 0x00000012#32 := by
  decide +kernel
theorem test_bad_config_comes_first :
    statusOf (step ({ base with spb := 3, inBlen := 65 }.withCommand 0x00000010#32)) = some 0x00000020#32 := by
  decide +kernel
theorem test_in_range :
    statusOf (step ({ base with inBlen := 65 }.withCommand 0x00000050#32)) = some 0x00000030#32 := by
  decide +kernel
theorem test_unwritten_input_faults :
    exec .crcGen { base with inBlen := 1 } = .fault (.unwrittenInBit 0) := rfl
theorem test_reset_runs_a_placed_word :
    ∃ t, step (State.reset.withFetchWord 32 0x51) = .next t ∧ t.code = .ok := ⟨_, rfl, rfl⟩
theorem test_octet_order :
    (writeOctet 64 1 0x80#8 8 []).read 8 = some true ∧ (writeOctet 64 1 0x80#8 8 []).read 15 = some false ∧
    (writeOctet 12 1 0xFF#8 8 []).read 12 = none := by decide
theorem test_status_layout :
    ({ base with err := true, code := .outOverflow, inflight := some ⟨0, 0⟩ } : State).statusWord =
      0x00000043#32 := by decide
theorem test_register_write_drops_reserved_bits :
    (base.perform (.wr 12 (.word 0xABCD0002#32))).iqCyc = 2#16 ∧
    (base.perform (.wr 13 (.word 0xFFFFFFFE#32))).amiPol = false := by decide +kernel

/-! ## The statements' hypotheses: states and words that meet them -/

/-- `base` with the bits 10110111 and with 8 samples as input. -/
def loaded : State :=
  loadWave (loadBits base (bits [1, 0, 1, 1, 0, 1, 1, 1])) (wave [1, 2, -3, 4, 5, 6, 7, 8])

theorem loaded_bits : BitsLoaded loaded (bits [1, 0, 1, 1, 0, 1, 1, 1]) :=
  ⟨by decide +kernel, by decide +kernel, by decide +kernel⟩

theorem loaded_samples : SampLoaded loaded (wave [1, 2, -3, 4, 5, 6, 7, 8]) :=
  ⟨by decide +kernel, by decide +kernel, by decide +kernel⟩

/-- Every command accepts a state with these configuration registers. -/
theorem configOk_of {s : State} (h : s.askOk = true) (h1 : s.fskOk = true) (h2 : s.iqOk = true)
    (i : Instr) : ConfigOk i s := by
  have a := (askOk_iff s).1 h
  have b := (fskOk_iff s).1 h1
  have c := (iqOk_iff s).1 h2
  cases i <;>
    first
    | exact trivial
    | exact a
    | exact b
    | exact c
    | exact ⟨a.1, a.2.1⟩

theorem loaded_configOk (i : Instr) : ConfigOk i loaded :=
  configOk_of (by decide +kernel) (by decide +kernel) (by decide +kernel) i

/-- The commands whose acceptance reads configuration registers (R232). -/
def checked : List Instr :=
  [.nrzEnc, .nrzDec, .manEnc, .manDec, .amiEnc, .amiDec, .askMod, .askDem, .fskMod, .fskDem, .qpskMod,
    .qpskDem, .qam16Mod, .qam16Dem]

/-- SPB one below its least legal value. -/
theorem lowSpb_not_configOk (i : Instr) (hi : i ∈ checked) : ¬ ConfigOk i { loaded with spb := 3 } := by
  have h3 : ¬ (4 ≤ (3 : Word).toNat) := by decide
  cases i <;> first | exact fun h => h3 h.1 | exact absurd hi (by decide)

theorem witness_DecodeSelectsExactWords :
    Instr.wellFormed .hamDec = true ∧ decode 0x00000051#32 = .ok .hamDec := by decide

theorem witness_IllegalWordsAreRejected :
    (base.withCommand 0x00000100#32).inflight = some ⟨0x00000100#32, 0⟩ ∧
    (0x00000100#32 : Word).toNat / 256 ≠ 0 ∧
    (base.withCommand 0x00000017#32).inflight = some ⟨0x00000017#32, 0⟩ ∧
    (0x00000017#32 : Word).toNat % 256 ∉ [0x10, 0x11, 0x12, 0x13, 0x14, 0x15, 0x16, 0x20, 0x21, 0x22,
      0x23, 0x24, 0x25, 0x26, 0x27, 0x30, 0x31, 0x40, 0x41, 0x50, 0x51] := by decide +kernel

theorem witness_StepRunsTheDecodedCommand :
    (loaded.withCommand 0x00000010#32).inflight = some ⟨0x00000010#32, 0⟩ ∧
    decode 0x00000010#32 = .ok .nrzEnc := by decide +kernel

/-- The host's turn, with the block idle or busy. -/
def idleBefore (a : Access) : State := { loaded with host := [a, .rd 1] }
def busyBefore (a : Access) : State := { loaded with host := [a, .rd 1], inflight := some ⟨0x10#32, 1⟩ }

/-- Used for CmdRegister, IdleReads, StatusLayout, RegisterWrites, ReservedSpace, OutputsAreReadOnly,
OctetPacking, SampleWrites and MvsCopiesTheOutput: for every access, the block idle before it. -/
theorem witness_idle_access (a : Access) :
    (idleBefore a).inflight = none ∧ (idleBefore a).host = a :: [.rd 1] := ⟨rfl, rfl⟩

/-- Used for CmdRegister and BusyPort: for every access, a command in progress before it. -/
theorem witness_busy_access (a : Access) :
    (busyBefore a).inflight = some ⟨0x10#32, 0 + 1⟩ ∧ (busyBefore a).host = a :: [.rd 1] := ⟨rfl, rfl⟩

theorem witness_BusyPort_other_reads :
    (∃ off, off ≠ 1 ∧ Access.rd 2 = .rd off) ∧ (∃ sp j, Access.rb .outBits 0 = .rb sp j) ∧
    ∃ sp i, Access.rs .inSamp 7 = .rs sp i := ⟨⟨2, by decide, rfl⟩, ⟨_, _, rfl⟩, ⟨_, _, rfl⟩⟩

theorem witness_BusyCommandReachesItsRun :
    ({ loaded with host := [.rd 5, .wait], inflight := some ⟨0x10#32, 3⟩ } : State).inflight = some ⟨0x10#32, 3⟩ ∧
    ∀ a ∈ [Access.rd 5, .wait], a ≠ .reset := by decide +kernel

theorem witness_IdleReads :
    7 < loaded.params.maxSamples ∧ loaded.inSamp.read 7 = some (.ofRat 8) ∧
    ({ loaded with outSamp := [(0, .zero)], outSlen := 1 } : State).outSamp.read 0 = some .zero ∧
    0 < ({ loaded with outSamp := [(0, .zero)], outSlen := 1 } : State).outSlen.toNat := by decide +kernel

theorem witness_ResetInput : HostDoes (busyBefore .reset) .reset [.rd 1] ∧
    HostDoes (idleBefore .reset) .reset [.rd 1] := ⟨⟨rfl, rfl⟩, ⟨rfl, rfl⟩⟩

/-- `loaded` with one output bit and one output sample. -/
def withOutputs : State :=
  { loaded with outBits := [(0, true)], outBlen := 1, outSamp := [(0, .zero)], outSlen := 1 }

theorem witness_invariant : Invariant withOutputs := by
  refine ⟨by decide +kernel, by decide +kernel, by decide +kernel, by decide +kernel, ?_, ?_, ?_, ?_, ?_, ?_,
    by decide +kernel, by decide +kernel⟩
  · unfold Buf.within; decide +kernel
  · unfold Buf.within; decide +kernel
  · unfold Buf.within; decide +kernel
  · unfold Buf.within; decide +kernel
  · intro i hi
    obtain rfl : i = 0 := Nat.lt_one_iff.1 hi
    rfl
  · intro i hi
    obtain rfl : i = 0 := Nat.lt_one_iff.1 hi
    rfl

theorem witness_StepKeepsInvariant : Invariant withOutputs ∧ ∃ t, step withOutputs = .next t :=
  ⟨witness_invariant, _, rfl⟩

/-- For OctetPacking, SampleWrites and MvsCopiesTheOutput: the invariant, the block idle, and the access. -/
theorem witness_port_with_invariant (a : Access) :
    Invariant { withOutputs with host := [a] } ∧ ({ withOutputs with host := [a] } : State).inflight = none ∧
    ({ withOutputs with host := [a] } : State).host = a :: [] :=
  ⟨⟨witness_invariant.1, witness_invariant.2, witness_invariant.3, witness_invariant.4, witness_invariant.5,
    witness_invariant.6, witness_invariant.7, witness_invariant.8, witness_invariant.9, witness_invariant.10,
    witness_invariant.11, witness_invariant.12⟩, rfl, rfl⟩

theorem witness_OctetPacking : 7 / 8 = 0 ∧ loaded.inBits.read 7 = some true ∧
    0 < withOutputs.outBlen.toNat ∧ withOutputs.outBits.read 0 = some true := by decide +kernel

theorem witness_ReservedSpace : (14 ≤ 14 ∧ 14 ≤ 1023) ∧ (9 ≤ 9 ∧ 9 ≤ 12) ∧ 9 ≤ 12 ∧ 12 ≤ 12 := by decide

theorem witness_RejectionWritesOnlyStatus :
    ∃ t, step ({ loaded with spb := 3 }.withCommand 0x00000010#32) = .next t ∧ t.code ≠ .ok :=
  ⟨_, by rfl, by decide⟩

theorem witness_AcceptanceFollowsTheTable (i : Instr) :
    ConfigOk i { loaded with inBlen := 0, inSlen := 0, params := ⟨32, 1⟩ } ∧
    (32 ≤ (⟨32, 1⟩ : Params).maxBits) ∧ (∃ t, exec .nrzEnc loaded = .next t) ∧
    ¬ ConfigOk .qam16Dem { loaded with spb := 3 } :=
  ⟨configOk_of (by decide +kernel) (by decide +kernel) (by decide +kernel) i, by decide, ⟨_, by rfl⟩,
    lowSpb_not_configOk _ (by decide)⟩

theorem witness_FirstCauseIsReported :
    (∃ t, step (loaded.withCommand 0x00000052#32) = .next t) ∧ (∀ i, decode 0x00000052#32 ≠ .ok i) ∧
    (∃ t, step ({ loaded with spb := 3 }.withCommand 0x00000010#32) = .next t) ∧
    ¬ ConfigOk .nrzEnc { loaded with spb := 3 } ∧
    (∃ t, step ({ loaded with params := ⟨7, 256⟩ }.withCommand 0x00000010#32) = .next t) ∧
    (bitInput .nrzEnc = true ∧ 7 < loaded.inBlen.toNat) ∧
    (∃ t, step ({ loaded with params := ⟨64, 7⟩ }.withCommand 0x00000011#32) = .next t) ∧
    (sampleInput .nrzDec = true ∧ 7 < loaded.inSlen.toNat) ∧
    (∃ t, step (loaded.withCommand 0x00000010#32) = .next t) ∧ loaded.inBlen.toNat ≤ 64 :=
  ⟨⟨_, rfl⟩,
    (fun i h => by
      rw [show decode 0x00000052#32 = .error .unknownFunction by decide] at h
      cases h),
    ⟨_, rfl⟩, lowSpb_not_configOk _ (by decide), ⟨_, rfl⟩, by decide +kernel, ⟨_, rfl⟩,
    by decide +kernel, ⟨_, rfl⟩, by decide +kernel⟩

/-- For CommandsLeaveTheRest and ErrWriters: an accepted and a rejected command. -/
theorem witness_CommandsLeaveTheRest :
    (∃ t, exec .hamEnc loaded = .next t ∧ t.code = .ok) ∧
    (∃ t, exec .nrzEnc { loaded with spb := 3 } = .next t ∧ t.code ≠ .ok) ∧
    sampleOutput .hamEnc = false ∧ bitOutput .nrzEnc = false := 
  ⟨⟨_, by rfl, rfl⟩, ⟨_, by rfl, by decide⟩, rfl, rfl⟩

theorem witness_ErrWriters :
    ∃ t, (idleBefore .reset).fetchCommand = none ∧
      step { idleBefore .reset with err := true } = .next t ∧ t.err ≠ true := ⟨_, rfl, rfl, by decide⟩

theorem witness_PolarityWriters :
    (∃ t, step (({ loaded with amiPol := false } : State).withCommand 0x00000016#32) = .next t ∧ t.amiPol ≠ false) ∧
    (∃ t, step (idleBefore (.wr 13 (.word 0#32))) = .next t ∧ t.amiPol ≠ true) :=
  ⟨⟨_, rfl, by decide⟩, ⟨_, rfl, by decide⟩⟩

/-- A command from bits with another waveform, and a command from samples with other bits. -/
theorem witness_CommandsArePure :
    SameOperands .hamEnc loaded
      { loaded with inSamp := [], inSlen := 3, fs := .zero, outBlen := 5, err := true, amiPol := false } ∧
    (∃ t, exec .hamEnc loaded = .next t ∧ t.code = .ok) ∧
    SameOperands .nrzDec loaded { loaded with inBits := [], inBlen := 3, outSlen := 5 } ∧
    ∃ t, exec .nrzDec loaded = .next t ∧ t.code = .ok :=
  ⟨⟨rfl, rfl, rfl, rfl, rfl, rfl, rfl, fun _ => ⟨rfl, fun _ _ => rfl⟩, fun h => (by cases h), fun h => (by cases h)⟩,
    ⟨_, rfl, by decide +kernel⟩,
    ⟨rfl, rfl, rfl, rfl, rfl, rfl, rfl, fun h => (by cases h), fun _ => ⟨rfl, fun _ _ => rfl⟩, fun h => (by cases h)⟩,
    _, rfl, by decide +kernel⟩

/-- `loaded` with capacities of its own. -/
def sized (b m : Nat) : State := { loaded with params := ⟨b, m⟩ }

theorem sized_configOk (b m : Nat) (i : Instr) : ConfigOk i (sized b m) := loaded_configOk i

/-- An unwritten bit, and then an unwritten sample, with the capacity at the output length and one below. -/
theorem witness_StopsOnlyOnUnwrittenInput :
    (∃ s, s = ({ base with inBlen := 1, params := ⟨33, 1⟩ } : State) ∧ ConfigOk .crcGen s ∧
      bitInput .crcGen = true ∧ s.inBlen.toNat ≤ s.params.maxBits ∧ leastOutput .crcGen s = 33 ∧
      outputCapacity .crcGen s = 33 ∧ ∃ j, j < s.inBlen.toNat ∧ s.inBits.read j = none) ∧
    (∃ s, s = ({ base with inBlen := 1, params := ⟨32, 1⟩ } : State) ∧ ConfigOk .crcGen s ∧
      s.inBlen.toNat ≤ s.params.maxBits ∧ leastOutput .crcGen s = 33 ∧ outputCapacity .crcGen s = 32 ∧
      ∃ j, j < s.inBlen.toNat ∧ s.inBits.read j = none) ∧
    (∃ s, s = ({ sized 2 8 with inSamp := [] } : State) ∧ ConfigOk .nrzDec s ∧ sampleInput .nrzDec = true ∧
      s.inSlen.toNat ≤ s.params.maxSamples ∧ leastOutput .nrzDec s = 2 ∧ outputCapacity .nrzDec s = 2 ∧
      ∃ j, j < s.inSlen.toNat ∧ s.inSamp.read j = none) ∧
    (∃ s, s = ({ sized 1 8 with inSamp := [] } : State) ∧ ConfigOk .nrzDec s ∧
      s.inSlen.toNat ≤ s.params.maxSamples ∧ leastOutput .nrzDec s = 2 ∧ outputCapacity .nrzDec s = 1 ∧
      ∃ j, j < s.inSlen.toNat ∧ s.inSamp.read j = none) :=
  ⟨⟨_, rfl, trivial, rfl, by decide +kernel, by decide +kernel, by decide +kernel, 0, by decide +kernel, rfl⟩,
    ⟨_, rfl, trivial, by decide +kernel, by decide +kernel, by decide +kernel, 0, by decide +kernel, rfl⟩,
    ⟨_, rfl, loaded_configOk .nrzDec, rfl, by decide +kernel, by decide +kernel, by decide +kernel, 7,
      by decide +kernel, rfl⟩,
    ⟨_, rfl, loaded_configOk .nrzDec, by decide +kernel, by decide +kernel, by decide +kernel, 7,
      by decide +kernel, rfl⟩⟩

/-- The seven commands from bits to samples: each clause of SampleCycle at a boundary, `len` being the
output length of the 8 bits of `loaded` (32 at one bit to 4 samples, 16 and 8 where 2 and 4 bits make a
symbol). -/
theorem witness_SampleCycle (i : Instr) (hi : i ∈ checked) (len : Nat) (hl : len ∈ [32, 16, 8]) :
    ¬ ConfigOk i { loaded with spb := 3 } ∧
    (ConfigOk i (sized 7 len) ∧ (sized 7 len).params.maxBits < (sized 7 len).inBlen.toNat) ∧
    (ConfigOk i (sized 8 (len - 1)) ∧ (sized 8 (len - 1)).inBlen.toNat ≤ (sized 8 (len - 1)).params.maxBits ∧
      (sized 8 (len - 1)).params.maxSamples < len) ∧
    ConfigOk i (sized 8 len) ∧ BitsLoaded (sized 8 len) (bits [1, 0, 1, 1, 0, 1, 1, 1]) ∧
    len ≤ (sized 8 len).params.maxSamples ∧
    loaded.inBlen.toNat * loaded.spb.toNat = 32 ∧ (loaded.inBlen.toNat + 1) / 2 * loaded.spb.toNat = 16 ∧
    (loaded.inBlen.toNat + 3) / 4 * loaded.spb.toNat = 8 := by
  refine ⟨lowSpb_not_configOk i hi, ⟨loaded_configOk i, (by decide : 7 < 8)⟩,
    ⟨loaded_configOk i, (by decide : 8 ≤ 8), ?_⟩, loaded_configOk i,
    ⟨loaded_bits.1, (by decide : 8 ≤ 8), loaded_bits.2.2⟩, le_refl len, by decide +kernel, by decide +kernel,
    by decide +kernel⟩
  show len - 1 < len
  simp only [List.mem_cons, List.not_mem_nil, or_false] at hl
  omega

/-- The seven commands from samples to bits: each clause of DecisionCycle at a boundary, `len` being the
output length of the 8 samples of `loaded`. -/
theorem witness_DecisionCycle (i : Instr) (hi : i ∈ checked) (len : Nat) (hl : len ∈ [2, 4, 8]) :
    ¬ ConfigOk i { loaded with spb := 3 } ∧
    (ConfigOk i (sized len 7) ∧ (sized len 7).params.maxSamples < (sized len 7).inSlen.toNat) ∧
    (ConfigOk i (sized (len - 1) 8) ∧ (sized (len - 1) 8).inSlen.toNat ≤ (sized (len - 1) 8).params.maxSamples ∧
      (sized (len - 1) 8).params.maxBits < len) ∧
    ConfigOk i (sized len 8) ∧ SampLoaded (sized len 8) (wave [1, 2, -3, 4, 5, 6, 7, 8]) ∧
    len ≤ (sized len 8).params.maxBits ∧
    loaded.inSlen.toNat / loaded.spb.toNat = 2 ∧ 2 * (loaded.inSlen.toNat / loaded.spb.toNat) = 4 ∧
    4 * (loaded.inSlen.toNat / loaded.spb.toNat) = 8 := by
  refine ⟨lowSpb_not_configOk i hi, ⟨loaded_configOk i, (by decide : 7 < 8)⟩,
    ⟨loaded_configOk i, (by decide : 8 ≤ 8), ?_⟩, loaded_configOk i,
    ⟨loaded_samples.1, (by decide : 8 ≤ 8), loaded_samples.2.2⟩, le_refl len, by decide +kernel,
    by decide +kernel, by decide +kernel⟩
  show len - 1 < len
  simp only [List.mem_cons, List.not_mem_nil, or_false] at hl
  omega

/-- One bit loaded, with `cap` bits of capacity. -/
def oneBit (cap : Nat) : State := loadBits { base with params := ⟨cap, 256⟩ } [true]

theorem oneBit_loaded (cap : Nat) (h : 1 ≤ cap) : BitsLoaded (oneBit cap) [true] :=
  ⟨rfl, h, fun i hi => by obtain rfl : i = 0 := Nat.lt_one_iff.1 hi; rfl⟩

/-- The commands from bits to bits: IN_RANGE one above the capacity. -/
theorem witness_BitCycle_inRange :
    ({ base with inBlen := 65 } : State).params.maxBits < ({ base with inBlen := 65 } : State).inBlen.toNat := by
  decide +kernel

theorem witness_BstEncCycle :
    BitsLoaded (oneBit 16) [true] ∧ (bstEncode [true]).length = 16 + 1 ∧ BitsLoaded (oneBit 17) [true] ∧
    BitsLoaded (oneBit 64) [true] :=
  ⟨oneBit_loaded _ (by decide), by decide, oneBit_loaded _ (by decide), oneBit_loaded _ (by decide)⟩

/-- One bit of input, not written, with `cap` bits of capacity. -/
def oneUnwritten (cap : Nat) : State := { base with inBlen := 1, params := ⟨cap, 256⟩ }

/-- OUT_OVERFLOW with the capacity one below the output length (also where the input is not written), and
an accepted input with the capacity at the output length. -/
theorem witness_CrcGenCycle :
    ((oneUnwritten 32).inBlen.toNat ≤ (oneUnwritten 32).params.maxBits ∧
      (oneUnwritten 32).params.maxBits < (oneUnwritten 32).inBlen.toNat + 32) ∧
    BitsLoaded (oneBit 33) [true] ∧ (oneBit 33).inBlen.toNat + 32 ≤ (oneBit 33).params.maxBits :=
  ⟨by decide +kernel, oneBit_loaded _ (by decide), by decide +kernel⟩

theorem witness_HamEncCycle :
    ((oneUnwritten 6).inBlen.toNat ≤ (oneUnwritten 6).params.maxBits ∧
      (oneUnwritten 6).params.maxBits < 7 * (((oneUnwritten 6).inBlen.toNat + 3) / 4)) ∧
    BitsLoaded (oneBit 7) [true] ∧ 7 * (((oneBit 7).inBlen.toNat + 3) / 4) ≤ (oneBit 7).params.maxBits :=
  ⟨by decide +kernel, oneBit_loaded _ (by decide), by decide +kernel⟩

theorem witness_HamDecCycle :
    ((oneUnwritten 3).inBlen.toNat ≤ (oneUnwritten 3).params.maxBits ∧
      (oneUnwritten 3).params.maxBits < 4 * (((oneUnwritten 3).inBlen.toNat + 6) / 7)) ∧
    BitsLoaded (oneBit 4) [true] ∧ 4 * (((oneBit 4).inBlen.toNat + 6) / 7) ≤ (oneBit 4).params.maxBits :=
  ⟨by decide +kernel, oneBit_loaded _ (by decide), by decide +kernel⟩

theorem witness_BstDecCycle_and_CrcChkCycle : BitsLoaded (oneBit 1) [true] := oneBit_loaded 1 (by decide)

/-- The state after a step that goes on. -/
def after : Result → State
  | .next t => t
  | _ => base

/-- The host's copy of the output samples to the input. -/
def copySamples (t : State) : State := { t with inSamp := t.outSamp, inSlen := t.outSlen }

theorem copySamples_copied (t : State) : SamplesCopied t (copySamples t) :=
  ⟨rfl, fun _ _ => rfl, rfl, rfl, rfl, rfl, rfl, rfl, rfl⟩

/-- The host's copy of the output bits to the input, some of them inverted. -/
def copyBits (flip : Nat → Bool) (t : State) : State :=
  { t with inBits := t.outBits.map fun c => (c.1, Bool.xor c.2 (flip c.1)), inBlen := t.outBlen }

theorem copyBits_copied (flip : Nat → Bool) (t : State)
    (h : ∀ j, j < t.outBlen.toNat → (t.outBits.read j).isSome = true) :
    BitsCopiedFlipping flip t (copyBits flip t) := by
  refine ⟨rfl, rfl, fun j hj => ?_⟩
  obtain ⟨x, hx⟩ := Option.isSome_iff_exists.1 (h j hj)
  refine ⟨x, hx, ?_⟩
  have e : ∀ b : Buf Bit, Buf.read (b.map fun c => (c.1, Bool.xor c.2 (flip c.1))) j =
      (b.read j).map fun y => Bool.xor y (flip j) := by
    intro b
    induction b with
    | nil => rfl
    | cons c b ih =>
      rw [List.map_cons, Buf.read_cons, Buf.read_cons, ih]
      split
      · rename_i hc; rw [hc]; rfl
      · rfl
  exact (e t.outBits).trans (by rw [hx]; rfl)

theorem loaded_at_8 : BitsLoaded { loaded with spb := 8 } (bits [1, 0, 1, 1, 0, 1, 1, 1]) :=
  ⟨loaded_bits.1, loaded_bits.2.1, loaded_bits.2.2⟩

/-- For the round trips over waveforms: an accepted encoder, and its output copied to the input. -/
theorem witness_LineCodesRoundTrip :
    BitsLoaded loaded (bits [1, 0, 1, 1, 0, 1, 1, 1]) ∧
    (bits [1, 0, 1, 1, 0, 1, 1, 1]).length * loaded.spb.toNat < 2 ^ 32 ∧
    (∀ i ∈ [Instr.nrzEnc, .manEnc, .amiEnc], exec i loaded = .next (after (exec i loaded)) ∧
      (after (exec i loaded)).code = .ok ∧
      SamplesCopied (after (exec i loaded)) (copySamples (after (exec i loaded)))) := by
  refine ⟨loaded_bits, by decide +kernel, fun i hi => ?_⟩
  simp only [List.mem_cons, List.not_mem_nil, or_false] at hi
  rcases hi with rfl | rfl | rfl <;> exact ⟨rfl, by decide +kernel, copySamples_copied _⟩

theorem witness_AskRoundTrip_and_IqRoundTrip :
    (bits [1, 0, 1, 1, 0, 1, 1, 1]).length * loaded.spb.toNat < 2 ^ 32 ∧
    ((bits [1, 0, 1, 1, 0, 1, 1, 1]).length + 1) * loaded.spb.toNat < 2 ^ 32 ∧
    (¬ loaded.spb.toNat ∣ 2 * loaded.askCyc.toNat) ∧
    2 * ((8 + 1) / 2) ≤ loaded.params.maxBits ∧ 4 * ((8 + 3) / 4) ≤ loaded.params.maxBits ∧
    (∀ i ∈ [Instr.askMod, .qpskMod, .qam16Mod], exec i loaded = .next (after (exec i loaded)) ∧
      (after (exec i loaded)).code = .ok ∧
      SamplesCopied (after (exec i loaded)) (copySamples (after (exec i loaded)))) := by
  refine ⟨by decide +kernel, by decide +kernel, by decide +kernel, by decide +kernel, by decide +kernel,
    fun i hi => ?_⟩
  simp only [List.mem_cons, List.not_mem_nil, or_false] at hi
  rcases hi with rfl | rfl | rfl <;> exact ⟨rfl, by decide +kernel, copySamples_copied _⟩

/-- `loaded` with the reset value of SPB, with which the reset FSK carriers round-trip (R144). -/
def loaded8 : State := { loaded with spb := 8 }

theorem witness_FskRoundTrip :
    BitsLoaded loaded8 (bits [1, 0, 1, 1, 0, 1, 1, 1]) ∧
    (bits [1, 0, 1, 1, 0, 1, 1, 1]).length * loaded8.spb.toNat < 2 ^ 32 ∧
    (¬ loaded8.spb.toNat ∣ 2 * loaded8.fskCyc1.toNat) ∧ (¬ loaded8.spb.toNat ∣ 2 * loaded8.fskCyc2.toNat) ∧
    (¬ (loaded8.spb.toNat : Int) ∣ (loaded8.fskCyc1.toNat : Int) - loaded8.fskCyc2.toNat) ∧
    (¬ loaded8.spb.toNat ∣ loaded8.fskCyc1.toNat + loaded8.fskCyc2.toNat) ∧
    exec .fskMod loaded8 = .next (after (exec .fskMod loaded8)) ∧
    (after (exec .fskMod loaded8)).code = .ok ∧
    SamplesCopied (after (exec .fskMod loaded8)) (copySamples (after (exec .fskMod loaded8))) :=
  ⟨loaded_at_8, by decide +kernel, by decide +kernel, by decide +kernel, by decide +kernel, by decide +kernel,
    rfl, by decide +kernel, copySamples_copied _⟩

/-- `11` and then `1`, sent as one transmission of `111` and as two. -/
theorem witness_AmiSplitTransmission :
    BitsLoaded (loadBits base (bits [1, 1, 1])) (bits [1, 1] ++ bits [1]) ∧
    BitsLoaded (loadBits base (bits [1, 1])) (bits [1, 1]) ∧ BitsLoaded (loadBits base (bits [1])) (bits [1]) ∧
    (exec .amiEnc (loadBits base (bits [1, 1, 1])) =
        .next (after (exec .amiEnc (loadBits base (bits [1, 1, 1])))) ∧
      (after (exec .amiEnc (loadBits base (bits [1, 1, 1])))).code = .ok) ∧
    (exec .amiEnc (loadBits base (bits [1, 1])) = .next (after (exec .amiEnc (loadBits base (bits [1, 1])))) ∧
      (after (exec .amiEnc (loadBits base (bits [1, 1])))).code = .ok) ∧
    (loadBits base (bits [1])).amiPol = (after (exec .amiEnc (loadBits base (bits [1, 1])))).amiPol ∧
    exec .amiEnc (loadBits base (bits [1])) = .next (after (exec .amiEnc (loadBits base (bits [1])))) ∧
    (after (exec .amiEnc (loadBits base (bits [1])))).code = .ok :=
  ⟨⟨by decide +kernel, by decide +kernel, by decide +kernel⟩,
    ⟨by decide +kernel, by decide +kernel, by decide +kernel⟩,
    ⟨by decide +kernel, by decide +kernel, by decide +kernel⟩, ⟨rfl, by decide +kernel⟩,
    ⟨rfl, by decide +kernel⟩, by decide +kernel, rfl, by decide +kernel⟩

/-- For BitStuffingRoundTrip, StuffedPayloadBounds, CrcDetectsSingleBitErrors, and the two statements on
Hamming errors: an accepted encoder, and its output copied to the input with a bit inverted or none. -/
theorem witness_bit_round_trips (i : Instr) (hi : i ∈ [Instr.bstEnc, .crcGen, .hamEnc]) (flip : Nat → Bool) :
    BitsLoaded loaded (bits [1, 0, 1, 1, 0, 1, 1, 1]) ∧ exec i loaded = .next (after (exec i loaded)) ∧
    (after (exec i loaded)).code = .ok ∧
    BitsCopiedFlipping flip (after (exec i loaded)) (copyBits flip (after (exec i loaded))) := by
  simp only [List.mem_cons, List.not_mem_nil, or_false] at hi
  rcases hi with rfl | rfl | rfl <;>
    exact ⟨loaded_bits, rfl, by decide +kernel, copyBits_copied _ _ (by decide +kernel)⟩

theorem witness_bit_round_trip_lengths :
    16 + 8 + 8 / 5 < 2 ^ 32 ∧ 8 + 32 < 2 ^ 32 ∧ 7 * ((8 + 3) / 4) < 2 ^ 32 ∧ 39 < 8 + 32 ∧
    (8 ≤ 8 ∧ 8 + 6 + 8 ≤ (after (exec .bstEnc loaded)).outBlen.toNat) := by decide +kernel

theorem witness_TrailerIsInverse : (List.replicate 32 true).length = 32 ∧ 31 < 32 := by decide

/-- One inverted bit in the first block and one in the second. -/
theorem witness_HammingCorrectsOneErrorPerBlock :
    ∀ j p q, p < 7 → q < 7 → decide (7 * j + p = 4 ∨ 7 * j + p = 13) = true →
      decide (7 * j + q = 4 ∨ 7 * j + q = 13) = true → p = q := by
  intro j p q _ _ h1 h2
  simp only [decide_eq_true_eq] at h1 h2
  omega

theorem witness_HammingMiscorrectsTwoErrors :
    BitsLoaded (loadBits base (bits [1, 0, 1, 1])) (bits [1, 0, 1, 1]) ∧ (bits [1, 0, 1, 1]).length = 4 ∧
    (0 < 1 ∧ 1 < 7) ∧ (5 < 6 ∧ 6 < 7) ∧
    exec .hamEnc (loadBits base (bits [1, 0, 1, 1])) =
      .next (after (exec .hamEnc (loadBits base (bits [1, 0, 1, 1])))) ∧
    (after (exec .hamEnc (loadBits base (bits [1, 0, 1, 1])))).code = .ok ∧
    BitsCopiedFlipping (fun j => decide (j = 0 ∨ j = 1))
      (after (exec .hamEnc (loadBits base (bits [1, 0, 1, 1]))))
      (copyBits (fun j => decide (j = 0 ∨ j = 1)) (after (exec .hamEnc (loadBits base (bits [1, 0, 1, 1]))))) :=
  ⟨⟨by decide +kernel, by decide +kernel, by decide +kernel⟩, by decide, by decide, by decide, rfl,
    by decide +kernel, copyBits_copied _ _ (by decide +kernel)⟩

end Sys2Proof.Tests
end

section
/-! The outputs of a command are a function of its operands (R4): two states with the same operands run
through the same checks, the same function and the same output, step by step along the cycle of R77. -/

namespace Sys2Proof.Machine

/-! ## What two runs give alike -/

/-- The states `t` and `t'` after a run of the command `i` hold the same code, and if it was accepted the
same ERR, the same polarity where the command writes it, and the same outputs (R4). -/
def GivesAlike (i : Instr) (t t' : State) : Prop :=
  t'.code = t.code ∧
    (t.code = .ok → t'.err = t.err ∧ (i = .amiEnc ∨ i = .amiRst → t'.amiPol = t.amiPol) ∧
      (bitOutput i = true → t'.outBlen = t.outBlen ∧
        ∀ j, j < t.outBlen.toNat → t'.outBits.read j = t.outBits.read j) ∧
      (sampleOutput i = true → t'.outSlen = t.outSlen ∧
        ∀ j, j < t.outSlen.toNat → t'.outSamp.read j = t.outSamp.read j))

/-- Where the first run answers a next state, the second does too, and the two states are alike. -/
def AnswersAlike (i : Instr) (r r' : Result) : Prop :=
  ∀ t, r = .next t → ∃ t', r' = .next t' ∧ GivesAlike i t t'

theorem answersAlike_next {i : Instr} {t t' : State} (h : GivesAlike i t t') :
    AnswersAlike i (.next t) (.next t') := by
  rintro _ ⟨⟩
  exact ⟨t', rfl, h⟩

theorem answersAlike_fault {i : Instr} (r : Fault) (r' : Result) : AnswersAlike i (.fault r) r' := nofun

theorem givesAlike_reject {i : Instr} (s s' : State) {c : Code} (hc : c ≠ .ok) :
    GivesAlike i (s.reject c) (s'.reject c) :=
  ⟨rfl, fun h => absurd h hc⟩

theorem answersAlike_reject {i : Instr} (s s' : State) {c : Code} (hc : c ≠ .ok) :
    AnswersAlike i (.next (s.reject c)) (.next (s'.reject c)) :=
  answersAlike_next (givesAlike_reject s s' hc)

/-! ## The output -/

/-- The elements that a written block shows below its length register do not depend on what the buffer
held; a length of `2^32` or more shows only a part of the block. -/
theorem read_writeBlock_below_lengthWord {α : Type} (b c : Buf α) (xs : List α) {j : Nat}
    (h : j < (lengthWord xs.length).toNat) : (c.writeBlock xs).read j = (b.writeBlock xs).read j := by
  have hj : j < xs.length := h.trans_le (lengthWord_toNat_le _)
  rw [Buf.read_writeBlock, Buf.read_writeBlock, if_pos hj, if_pos hj]

/-- No command writes both output buffers (R76). -/
theorem sampleOutput_of_bitOutput {i : Instr} : bitOutput i = true → sampleOutput i = false := by
  cases i <;> decide

theorem finishBits_givesAlike {i : Instr} {s s' : State} (hp : s'.params = s.params)
    (ho : bitOutput i = true) (r : Produced Bit) : GivesAlike i (s.finishBits r) (s'.finishBits r) := by
  unfold State.finishBits
  rw [hp]
  split
  · exact givesAlike_reject s s' (by decide)
  · refine ⟨rfl, fun _ => ⟨rfl, ?_, fun _ => ⟨rfl, fun j hj => ?_⟩, fun hs => ?_⟩⟩
    · rintro (rfl | rfl) <;> cases ho
    · exact read_writeBlock_below_lengthWord s.outBits s'.outBits r.out hj
    · rw [sampleOutput_of_bitOutput ho] at hs
      cases hs

theorem finishSamples_givesAlike {i : Instr} {s s' : State} (hp : s'.params = s.params)
    (hpol : i = .amiEnc → s'.amiPol = s.amiPol) (ho : sampleOutput i = true) (r : Produced Sample) :
    GivesAlike i (s.finishSamples r) (s'.finishSamples r) := by
  unfold State.finishSamples
  rw [hp]
  split
  · exact givesAlike_reject s s' (by decide)
  · refine ⟨rfl, fun _ => ⟨rfl, ?_, fun hb => ?_, fun _ => ⟨rfl, fun j hj => ?_⟩⟩⟩
    · rintro (hi | rfl)
      · exact congrArg r.pol.getD (hpol hi)
      · cases ho
    · rw [sampleOutput_of_bitOutput hb] at ho
      cases ho
    · exact read_writeBlock_below_lengthWord s.outSamp s'.outSamp r.out hj

/-! ## The input -/

/-- Reading a sequence depends on the elements it covers alone. -/
theorem Buf.readSeq_congr {α : Type} {b c : Buf α} {i n : Nat}
    (h : ∀ j, i ≤ j → j < i + n → c.read j = b.read j) : c.readSeq i n = b.readSeq i n := by
  induction n generalizing i with
  | zero => rfl
  | succ n ih =>
    unfold Buf.readSeq
    rw [h i le_rfl (by omega), ih fun j hj hjn => h j (by omega) (by omega)]

theorem withInBits_answersAlike {i : Instr} {s s' : State} {least capacity : Nat}
    {finish finish' : List Bit → State} (hp : s'.params = s.params)
    (hin : s'.inBlen = s.inBlen ∧ ∀ j, j < s.inBlen.toNat → s'.inBits.read j = s.inBits.read j)
    (hf : ∀ b, GivesAlike i (finish b) (finish' b)) :
    AnswersAlike i (withInBits s least capacity finish) (withInBits s' least capacity finish') := by
  obtain ⟨hlen, hread⟩ := hin
  have hseq : s'.inBits.readSeq 0 s.inBlen.toNat = s.inBits.readSeq 0 s.inBlen.toNat :=
    Buf.readSeq_congr fun j _ hj => hread j (by omega)
  unfold withInBits
  rw [hp, hlen, hseq]
  split
  · exact answersAlike_reject s s' (by decide)
  · split
    · exact answersAlike_next (hf _)
    · split
      · exact answersAlike_reject s s' (by decide)
      · exact answersAlike_fault _ _

theorem withInSamp_answersAlike {i : Instr} {s s' : State} {least capacity : Nat}
    {finish finish' : List Sample → State} (hp : s'.params = s.params)
    (hin : s'.inSlen = s.inSlen ∧ ∀ j, j < s.inSlen.toNat → s'.inSamp.read j = s.inSamp.read j)
    (hf : ∀ r, GivesAlike i (finish r) (finish' r)) :
    AnswersAlike i (withInSamp s least capacity finish) (withInSamp s' least capacity finish') := by
  obtain ⟨hlen, hread⟩ := hin
  have hseq : s'.inSamp.readSeq 0 s.inSlen.toNat = s.inSamp.readSeq 0 s.inSlen.toNat :=
    Buf.readSeq_congr fun j _ hj => hread j (by omega)
  unfold withInSamp
  rw [hp, hlen, hseq]
  split
  · exact answersAlike_reject s s' (by decide)
  · split
    · exact answersAlike_next (hf _)
    · split
      · exact answersAlike_reject s s' (by decide)
      · exact answersAlike_fault _ _

/-! ## The three kinds of cycle -/

theorem runBitsToSamples_answersAlike {i : Instr} {s s' : State} {least : Nat → Nat}
    {f : List Bit → Produced Sample} (hp : s'.params = s.params)
    (hin : s'.inBlen = s.inBlen ∧ ∀ j, j < s.inBlen.toNat → s'.inBits.read j = s.inBits.read j)
    (hpol : i = .amiEnc → s'.amiPol = s.amiPol) (ho : sampleOutput i = true) :
    AnswersAlike i (runBitsToSamples s least f) (runBitsToSamples s' least f) := by
  unfold runBitsToSamples
  rw [hin.1, hp]
  exact withInBits_answersAlike hp hin fun b => finishSamples_givesAlike hp hpol ho (f b)

theorem runSamplesToBits_answersAlike {i : Instr} {s s' : State} {least : Nat → Nat}
    {f : List Sample → Produced Bit} (hp : s'.params = s.params)
    (hin : s'.inSlen = s.inSlen ∧ ∀ j, j < s.inSlen.toNat → s'.inSamp.read j = s.inSamp.read j)
    (ho : bitOutput i = true) :
    AnswersAlike i (runSamplesToBits s least f) (runSamplesToBits s' least f) := by
  unfold runSamplesToBits
  rw [hin.1, hp]
  exact withInSamp_answersAlike hp hin fun r => finishBits_givesAlike hp ho (f r)

theorem runBitsToBits_answersAlike {i : Instr} {s s' : State} {least : Nat → Nat}
    {f : List Bit → Produced Bit} (hp : s'.params = s.params)
    (hin : s'.inBlen = s.inBlen ∧ ∀ j, j < s.inBlen.toNat → s'.inBits.read j = s.inBits.read j)
    (ho : bitOutput i = true) :
    AnswersAlike i (runBitsToBits s least f) (runBitsToBits s' least f) := by
  unfold runBitsToBits
  rw [hin.1, hp]
  exact withInBits_answersAlike hp hin fun b => finishBits_givesAlike hp ho (f b)

/-! ## The configuration -/

theorem checkConfig_answersAlike {i : Instr} {s s' : State} {ok : Bool} {rest rest' : Result}
    (h : AnswersAlike i rest rest') :
    AnswersAlike i (checkConfig s ok rest) (checkConfig s' ok rest') := by
  cases ok
  · exact answersAlike_reject s s' (by decide)
  · exact h

/-- The state `t` with the configuration registers but FS, and the capacities, of `s`.  What the checks and
the functions of the commands take from it reduces to what they take from `s`. -/
def State.withConfigOf (t s : State) : State :=
  { t with
    spb := s.spb
    vpeak := s.vpeak
    askCyc := s.askCyc
    fskCyc1 := s.fskCyc1
    fskCyc2 := s.fskCyc2
    iqCyc := s.iqCyc
    params := s.params }

theorem SameOperands.eq_withConfigOf {i : Instr} {s s' : State} (h : SameOperands i s s') :
    s' = s'.withConfigOf s := by
  obtain ⟨hspb, hvpeak, hask, hfsk1, hfsk2, hiq, hparams, -⟩ := h
  rw [State.withConfigOf, ← hspb, ← hvpeak, ← hask, ← hfsk1, ← hfsk2, ← hiq, ← hparams]

/-! ## The commands -/

/-- A command run on the same operands answers alike: the configuration is the same one, so the check, the
least output length and the function of the command are, and the cycle of its kind does the rest. -/
theorem exec_answersAlike {i : Instr} {s s' : State} (h : SameOperands i s s') :
    AnswersAlike i (exec i s) (exec i s') := by
  obtain ⟨x, rfl⟩ : ∃ x : State, s' = x.withConfigOf s := ⟨s', h.eq_withConfigOf⟩
  obtain ⟨-, -, -, -, -, -, hp, hbits, hsamp, hpol⟩ := h
  cases i
  case amiRst => exact answersAlike_next ⟨rfl, fun _ => ⟨rfl, fun _ => rfl, nofun, nofun⟩⟩
  case amiEnc =>
    unfold exec execAmiEnc
    rw [hpol rfl]
    exact checkConfig_answersAlike (runBitsToSamples_answersAlike hp (hbits rfl) hpol rfl)
  case nrzEnc | manEnc | askMod | fskMod | qpskMod | qam16Mod =>
    exact checkConfig_answersAlike (runBitsToSamples_answersAlike hp (hbits rfl) hpol rfl)
  case nrzDec | manDec | amiDec | askDem | fskDem | qpskDem | qam16Dem =>
    exact checkConfig_answersAlike (runSamplesToBits_answersAlike hp (hsamp rfl) rfl)
  case bstEnc | bstDec | crcGen | crcChk | hamEnc | hamDec =>
    unfold exec
    exact runBitsToBits_answersAlike hp (hbits rfl) rfl

/-- Settles O19: the command run on the same operands, step by step along its cycle. -/
theorem commandsArePure : Obligations.CommandsArePure :=
  fun _ _ _ t h ht => exec_answersAlike h t ht

end Sys2Proof.Machine
end

section
/-! The registers on the host port (R22 to R40), the state after reset (R44), and the progress of a command
up to the turn in which it runs (R25, R61, R270). -/

namespace Sys2Proof.Machine

/-! ## Reads and writes of registers while the block is idle -/

/-- A read of a register while the block is idle, as a whole turn. -/
theorem step_rd_idle {s : State} {off : Nat} {r : Reg} {rest : List Access} (h : s.inflight = none)
    (hr : Reg.ofOffset off = some r) (hh : s.host = .rd off :: rest) :
    step s = .next { s with host := rest, rx := s.readReg r :: s.rx, tick := s.tick + 1 } := by
  have hread : ({ s with host := rest } : State).rdData off = s.readReg r := by
    rw [rdData_idle (s := { s with host := rest }) h hr]
    cases r <;> rfl
  rw [step_idle h hh, perform_rd, State.doRd, hread]
  rfl

/-- A write to a register while the block is idle, as a whole turn. -/
theorem step_wr_idle {s : State} {off : Nat} {v : HostData} {r : Reg} {rest : List Access}
    (h : s.inflight = none) (hr : Reg.ofOffset off = some r) (hh : s.host = .wr off v :: rest) :
    step s = .next (({ s with host := rest } : State).writeReg r v) := by
  rw [step_idle h hh, perform_wr, doWr_idle (s := { s with host := rest }) h hr]

/-- A write while a command is in progress and not due is ignored (R238). -/
theorem step_wr_busy {s : State} {w : Word} {n off : Nat} {v : HostData} {rest : List Access}
    (h : s.inflight = some ⟨w, n + 1⟩) (hh : s.host = .wr off v :: rest) :
    step s = .next { s with host := rest, inflight := some ⟨w, n⟩ } := by
  rw [step_busy h hh]
  rfl

@[simp] theorem host_writeReg (s : State) (r : Reg) (v : HostData) : (s.writeReg r v).host = s.host := by
  cases r <;> rfl

@[simp] theorem rx_writeReg (s : State) (r : Reg) (v : HostData) : (s.writeReg r v).rx = s.rx := by
  cases r <;> rfl

theorem inflight_writeReg (s : State) {r : Reg} (v : HostData) (hr : r ≠ .cmd) :
    (s.writeReg r v).inflight = s.inflight := by
  cases r
  case cmd => exact absurd rfl hr
  all_goals rfl

/-- A register other than CMD written and then read, the block being idle: the host receives what the
register reads after the write. -/
theorem run_wr_rd_idle {s : State} {off : Nat} {v : HostData} {r : Reg} {rest : List Access}
    (h : s.inflight = none) (hr : Reg.ofOffset off = some r) (hcmd : r ≠ .cmd)
    (hh : s.host = .wr off v :: .rd off :: rest) :
    ∃ t, Sys2Proof.core.run 2 s = .next t ∧
      t.rx = (({ s with host := .rd off :: rest } : State).writeReg r v).readReg r :: s.rx := by
  have hidle : (({ s with host := .rd off :: rest } : State).writeReg r v).inflight = none :=
    (inflight_writeReg _ v hcmd).trans h
  have hread := step_rd_idle hidle hr (host_writeReg _ r v)
  rw [run_next (step_wr_idle h hr hh), run_next hread]
  exact ⟨_, rfl, by rw [rx_writeReg]⟩

/-! ## Reserved offsets and bits (R40) -/

theorem ofOffset_reserved {off : Nat} (h : 14 ≤ off) : Reg.ofOffset off = none := by
  obtain ⟨k, rfl⟩ := Nat.exists_eq_add_of_le' h
  rfl

theorem doWr_reserved (s : State) {off : Nat} (v : HostData) (h : Reg.ofOffset off = none) :
    s.doWr off v = s := by
  unfold State.doWr
  rw [h, ite_self]

theorem rdData_reserved {s : State} {off : Nat} (hi : s.inflight = none) (h : Reg.ofOffset off = none) :
    s.rdData off = .word 0 := by
  unfold State.rdData State.busy
  rw [hi, h]
  rfl

/-- The four cycle registers of R35 to R38. -/
theorem ofOffset_cycles {off : Nat} (h9 : 9 ≤ off) (h12 : off ≤ 12) :
    ∃ r ∈ [Reg.askCyc, .fskCyc1, .fskCyc2, .iqCyc], Reg.ofOffset off = some r := by
  interval_cases off
  · exact ⟨.askCyc, by simp, rfl⟩
  · exact ⟨.fskCyc1, by simp, rfl⟩
  · exact ⟨.fskCyc2, by simp, rfl⟩
  · exact ⟨.iqCyc, by simp, rfl⟩

/-- A word cut to a 16-bit field and read back has its upper half cleared. -/
theorem setWidth_setWidth_eq_and (w : Word) : (w.setWidth 16).setWidth 32 = w &&& 0x0000FFFF#32 := by
  apply BitVec.eq_of_toNat_eq
  rw [BitVec.toNat_setWidth_of_le (by decide), BitVec.toNat_setWidth, BitVec.toNat_and]
  exact (Nat.and_two_pow_sub_one_eq_mod w.toNat 16).symm

theorem readReg_writeReg_cycles (s : State) (w : Word) {r : Reg}
    (hr : r ∈ [Reg.askCyc, .fskCyc1, .fskCyc2, .iqCyc]) :
    (s.writeReg r (.word w)).readReg r = .word (w &&& 0x0000FFFF#32) := by
  rw [← setWidth_setWidth_eq_and]
  simp only [List.mem_cons, List.not_mem_nil, or_false] at hr
  rcases hr with rfl | rfl | rfl | rfl <;> rfl

theorem readReg_writeReg_amiState (s : State) (w : Word) :
    (s.writeReg .amiState (.word w)).readReg .amiState = .word (w &&& 0x00000001#32) :=
  congrArg HostData.word BitVec.and_one_eq_setWidth_ofBool_getLsbD.symm

/-- The mask of the reserved bits is 0 at every field of STATUS, and 1 only where STATUS reads 0 (R24). -/
theorem statusWord_reserved (s : State) : s.statusWord &&& 0xFFFFFF0C#32 = 0 := by
  have hfields : ∀ (code : BitVec 4) (err busy : BitVec 1),
      (0#24 ++ (code ++ (0#2 ++ (err ++ busy)))) &&& (0xFFFFFF#24 ++ (0#4 ++ (3#2 ++ (0#1 ++ 0#1)))) = 0 := by
    intro code err busy
    simp only [BitVec.and_append, BitVec.zero_and, BitVec.and_zero]
    rfl
  exact hfields _ _ _

/-- Settles O23: a reserved offset names no register, a field keeps its own bits of a written word, and the
mask of STATUS meets only fields that read 0. -/
theorem reservedSpace : Obligations.ReservedSpace := by
  intro s off rest hidle
  refine ⟨fun h14 hh => ?_, fun v h14 hh => ?_, fun w h9 h12 hh => ?_, fun w h13 hh => ?_, fun hh => ?_⟩
  · refine ⟨s.tick + 1, ?_⟩
    rw [step_idle hidle hh, perform_rd, State.doRd,
      rdData_reserved (s := { s with host := rest }) hidle (ofOffset_reserved h14)]
    rfl
  · rw [step_idle hidle hh, perform_wr, doWr_reserved _ _ (ofOffset_reserved h14)]
  · obtain ⟨r, hcyc, hr⟩ := ofOffset_cycles h9 h12
    obtain ⟨t, hrun, hrx⟩ := run_wr_rd_idle hidle hr (by rintro rfl; simp at hcyc) hh
    exact ⟨t, hrun, by rw [hrx, readReg_writeReg_cycles _ _ hcyc]⟩
  · subst h13
    obtain ⟨t, hrun, hrx⟩ := run_wr_rd_idle hidle (r := .amiState) rfl (by decide) hh
    exact ⟨t, hrun, by rw [hrx, readReg_writeReg_amiState]⟩
  · exact ⟨s.statusWord, s.tick + 1, step_rd_idle hidle (r := .status) rfl hh, statusWord_reserved s⟩

/-! ## CMD (R23) -/

/-- Settles O5: CMD written with the block idle starts the command, written with the block busy does
nothing, and reads 0. -/
theorem cmdRegister : Obligations.CmdRegister := by
  intro s w rest
  refine ⟨fun hidle hh => ?_, fun v n hbusy hh => step_wr_busy hbusy hh, fun hidle hh => ?_⟩
  · exact ⟨Config.latency w s.inBlen s.inSlen s.tick, s.tick + 1, step_wr_idle hidle (r := .cmd) rfl hh⟩
  · exact ⟨s.tick + 1, step_rd_idle hidle (r := .cmd) rfl hh⟩

/-! ## The state after reset (R44) -/

/-- A sample with one term of turn 0 and no named real is the rational number that is its coefficient. -/
theorem toReal_constant (q : ℚ) : (Sample.mk [⟨q, 0, []⟩]).toReal = q := by
  simp [Term.toReal, Term.valueWith]

/-- Settles O9: VPEAK and FS are the rational numbers 1 and 8; every other value stands in `State.reset`
as R44 has it. -/
theorem resetValues : Obligations.ResetValues := by
  have hvpeak : State.reset.vpeak.toReal = 1 := (toReal_constant 1).trans Rat.cast_one
  have hfs : State.reset.fs.toReal = 8 := (toReal_constant 8).trans (Rat.cast_ofNat 8)
  exact ⟨rfl, rfl, rfl, rfl, rfl, rfl, rfl, rfl, hvpeak, hfs, rfl, rfl, rfl, rfl, rfl, rfl,
    fun _ => ⟨rfl, rfl, rfl, rfl⟩⟩

/-! ## The progress of a command (R25, R61, R270) -/

@[simp] theorem host_doWr (s : State) (off : Nat) (v : HostData) : (s.doWr off v).host = s.host := by
  unfold State.doWr
  split
  · rfl
  · cases Reg.ofOffset off with
    | none => rfl
    | some r => exact host_writeReg s r v

@[simp] theorem host_doWb (s : State) (sp : BitSpace) (j : Nat) (v : Octet) :
    (s.doWb sp j v).host = s.host := by
  rcases doWb_cases s sp j v with h | ⟨-, h⟩ <;> rw [h]

@[simp] theorem host_doWs (s : State) (sp : SampSpace) (i : Nat) (x : Sample) :
    (s.doWs sp i x).host = s.host := by
  rcases doWs_cases s sp i x with h | ⟨-, -, h⟩ <;> rw [h]

@[simp] theorem host_doWbLast (s : State) (sp : BitSpace) (j : Nat) : (s.doWbLast sp j).host = s.host := by
  unfold State.doWbLast
  split
  · exact host_doWb s sp j _
  · rfl

@[simp] theorem host_doWsLast (s : State) (sp : SampSpace) (i : Nat) : (s.doWsLast sp i).host = s.host := by
  unfold State.doWsLast
  split
  · exact host_doWs s sp i _
  · rfl

theorem reset_notMem_mvbBody (n : Word) : .reset ∉ mvbBody n := by
  simp [mvbBody]

theorem reset_notMem_mvsBody (n : Word) : .reset ∉ mvsBody n := by
  simp [mvsBody]

/-- No access puts a reset into what the host will still do: the pseudo-accesses expand into reads and
writes alone (R80). -/
theorem reset_mem_of_mem_host_perform {s : State} {a : Access} (h : .reset ∈ (s.perform a).host) :
    .reset ∈ s.host := by
  cases a with
  | rd off | rb sp j | rs sp i | reset => exact h
  | wr off v => rwa [perform_wr, host_doWr] at h
  | wb sp j v => rwa [perform_wb, host_doWb] at h
  | ws sp i x => rwa [perform_ws, host_doWs] at h
  | wbLast sp j => rwa [perform_wbLast, host_doWbLast] at h
  | wsLast sp i => rwa [perform_wsLast, host_doWsLast] at h
  | wait =>
    rw [perform_wait, State.doWait] at h
    split at h
    · exact (List.mem_cons.1 h).resolve_left (by decide)
    · exact h
  | mvb => exact (List.mem_append.1 h).resolve_left (reset_notMem_mvbBody _)
  | mvs => exact (List.mem_append.1 h).resolve_left (reset_notMem_mvsBody _)

/-- While a command is in progress, an access other than reset changes nothing but what the model keeps of
the host. -/
theorem perform_busy {s : State} {c : InFlight} {a : Access} (h : s.inflight = some c) (ha : a ≠ .reset) :
    (s.perform a).inflight = s.inflight ∧ SameBlock s (s.perform a) := by
  rcases perform_cases s a with ⟨hreset, -⟩ | ⟨-, hsame⟩ | ⟨hidle, -⟩
  · exact absurd hreset ha
  · exact hsame
  · cases h.symm.trans hidle

/-- With a command in progress that is not due and a host that does nothing, a turn counts the latency
down. -/
theorem step_busy_no_access {s : State} {w : Word} {n : Nat} (h : s.inflight = some ⟨w, n + 1⟩)
    (hh : s.host = []) : step s = .next { s with inflight := some ⟨w, n⟩ } := by
  have hf : s.fetchCommand = none := by unfold State.fetchCommand; rw [h]; rfl
  rw [step_host hf]
  unfold State.hostTurn State.countDown
  rw [hh, h]

/-- One turn of a command in progress that is not due, the host having no reset in its script: one turn of
the latency passes, and the block is as it was. -/
theorem step_counts_down {s : State} {w : Word} {n : Nat} (h : s.inflight = some ⟨w, n + 1⟩)
    (hr : .reset ∉ s.host) :
    ∃ t, step s = .next t ∧ t.inflight = some ⟨w, n⟩ ∧ SameBlock s t ∧ .reset ∉ t.host := by
  cases hh : s.host with
  | nil => exact ⟨{ s with inflight := some ⟨w, n⟩ }, step_busy_no_access h hh, rfl, rfl, hr⟩
  | cons a rest =>
    rw [hh, List.mem_cons, not_or] at hr
    obtain ⟨ha, hrest⟩ := hr
    obtain ⟨hin, hsame⟩ :=
      perform_busy (s := { s with host := rest, inflight := some ⟨w, n⟩ }) rfl (Ne.symm ha)
    have hcount : SameBlock s { s with host := rest, inflight := some ⟨w, n⟩ } := rfl
    exact ⟨_, step_busy h hh, hin, sameBlock_trans hcount hsame,
      fun hmem => hrest (reset_mem_of_mem_host_perform hmem)⟩

/-- Settles O6, by induction on the remaining latency: every turn counts it down and keeps the block. -/
theorem busyCommandReachesItsRun : Obligations.BusyCommandReachesItsRun := by
  intro s w n h hr
  replace hr : .reset ∉ s.host := fun hmem => hr _ hmem rfl
  induction n generalizing s with
  | zero => exact ⟨s, rfl, fetchCommand_eq_some.2 h, sameBlock_refl s⟩
  | succ n ih =>
    obtain ⟨t, hstep, ht, hst, htr⟩ := step_counts_down h hr
    obtain ⟨u, hrun, hu, htu⟩ := ih t ht htr
    exact ⟨u, (run_next hstep).trans hrun, hu, sameBlock_trans hst htu⟩

end Sys2Proof.Machine
end


section
/-! The bit buffers on the host port: an octet access as a whole turn, and the packing of bits into octets
(R50, R53, R54, R56). -/

namespace Sys2Proof.Machine

/-- An element that a buffer holds lies below its capacity. -/
theorem Buf.lt_of_read {α : Type} {b : Buf α} {cap i : Nat} {x : α} (hb : b.within cap)
    (h : b.read i = some x) : i < cap :=
  hb _ (Buf.exists_of_read h)

/-! ## The bits a buffer shows -/

/-- Under the invariant the host sees every bit that IN_BITS holds. -/
theorem bitOf_inBits {s : State} {i : Nat} {x : Bit} (hs : Invariant s)
    (h : s.inBits.read i = some x) : s.bitOf .inBits i = some x := by
  have hcap : i < s.params.maxBits := Buf.lt_of_read hs.inBits_within h
  rw [State.bitOf, if_pos hcap, h]

/-- Under the invariant the host sees every bit that OUT_BITS holds below OUT_BLEN. -/
theorem bitOf_outBits {s : State} {i : Nat} {x : Bit} (hs : Invariant s) (hlen : i < s.outBlen.toNat)
    (h : s.outBits.read i = some x) : s.bitOf .outBits i = some x := by
  have hcap : i < s.params.maxBits := Buf.lt_of_read hs.outBits_within h
  rw [State.bitOf, if_pos ⟨hcap, hlen⟩, h]

/-- The bit shown at index `i` stands in octet `i / 8`, at the place R53 gives it. -/
theorem getLsbD_octetOf_of_bitOf {s : State} {sp : BitSpace} {i j : Nat} {x : Bit} (hj : i / 8 = j)
    (h : s.bitOf sp i = some x) : (s.octetOf sp j).getLsbD (7 - i % 8) = x := by
  have hi : 8 * j + i % 8 = i := hj ▸ Nat.div_add_mod i 8
  rw [getLsbD_octetOf s sp j (Nat.mod_lt i (by decide)), hi, h, Option.getD_some]

/-! ## Octet accesses while the block is idle -/

/-- A write of a whole octet: it sets the eight bits of its indices that lie below the capacity. -/
theorem read_writeOctet_whole {cap j : Nat} {v : Octet} {b : Buf Bit} (h : b.wf = true) (i : Nat) :
    (writeOctet cap j v 8 b).read i =
      if i / 8 = j ∧ i < cap then some (v.getLsbD (7 - i % 8)) else b.read i := by
  have hplace : (8 * j + (8 - 8) ≤ i ∧ i < 8 * j + 8 ∧ i < cap) ↔ (i / 8 = j ∧ i < cap) := by omega
  rw [read_writeOctet (Nat.le_refl 8) h, if_congr hplace rfl rfl]

/-- A write of an octet to IN_BITS while the block is idle, as a whole turn. -/
theorem step_wb_inBits_idle {s : State} {j : Nat} {v : Octet} {rest : List Access} (h : s.inflight = none)
    (hh : s.host = .wb .inBits j v :: rest) :
    step s = .next { s with host := rest, inBits := writeOctet s.params.maxBits j v 8 s.inBits } := by
  rw [step_idle h hh, perform_wb, State.doWb, State.busy, h]
  rfl

/-- A read of an octet while the block is idle, as a whole turn. -/
theorem step_rb_idle {s : State} {sp : BitSpace} {j : Nat} {rest : List Access} (h : s.inflight = none)
    (hh : s.host = .rb sp j :: rest) :
    step s = .next { s with host := rest, rx := .octet (s.octetOf sp j) :: s.rx, tick := s.tick + 1 } := by
  rw [step_idle h hh, perform_rb, State.doRb, State.busy, h]
  rfl

/-- Settles O25: an octet written sets the eight bits of its indices below the capacity, and an octet read
shows every bit held, which the invariant puts below the capacity. -/
theorem octetPacking : Obligations.OctetPacking := by
  intro s j rest hidle hs
  refine ⟨fun v hh => ?_, fun hh => ?_, fun hh => ?_⟩
  · exact ⟨_, step_wb_inBits_idle hidle hh, rfl, fun i => read_writeOctet_whole hs.inBits_wf i⟩
  · exact ⟨s.octetOf .inBits j, s.tick + 1, step_rb_idle hidle hh,
      fun i x hj hx => getLsbD_octetOf_of_bitOf hj (bitOf_inBits hs hx)⟩
  · exact ⟨s.octetOf .outBits j, s.tick + 1, step_rb_idle hidle hh,
      fun i x hj hlen hx => getLsbD_octetOf_of_bitOf hj (bitOf_outBits hs hlen hx)⟩

end Sys2Proof.Machine
end

section
/-! The decoder (R70 to R75): a word is its three fields, each family's functions bear the numbers of the
opcode map, and so a command is selected by its one word; every other word is rejected with ILLEGAL_CMD. -/

namespace Sys2Proof

/-! ## A command word and its fields -/

theorem toNat_rsvField (w : Word) : (rsvField w).toNat = w.toNat / 256 := by
  have hw : w.toNat < 2 ^ 32 := w.isLt
  rw [rsvField, BitVec.extractLsb'_toNat, Nat.shiftRight_eq_div_pow]
  omega

theorem toNat_famField (w : Word) : (famField w).toNat = w.toNat / 16 % 16 := by
  rw [famField, BitVec.extractLsb'_toNat, Nat.shiftRight_eq_div_pow]

theorem toNat_fnField (w : Word) : (fnField w).toNat = w.toNat % 16 := by
  rw [fnField, BitVec.extractLsb'_toNat, Nat.shiftRight_zero]

/-- A word whose reserved bits are 0 is the number `FAM:FN` (R70). -/
theorem toNat_eq_of_rsvField_eq_zero {w : Word} (h : rsvField w = 0) :
    w.toNat = 16 * (famField w).toNat + (fnField w).toNat := by
  have hrsv : w.toNat / 256 = 0 := by rw [← toNat_rsvField, h]; rfl
  rw [toNat_famField, toNat_fnField]
  omega

/-! ## The functions of a family -/

/-- Whatever the function decoder `dec` of the family `fam` answers for a function number, the word of that
command is the number `fam:fn`. -/
def NumbersFamily (fam : Nat) (dec : Nat → Except DecodeError Instr) : Prop :=
  ∀ fn i, dec fn = .ok i → (encode i).toNat = 16 * fam + fn

theorem numbersFamily_decodeLineCoder : NumbersFamily 1 decodeLineCoder := by
  intro fn i h
  unfold decodeLineCoder at h
  split at h <;> cases h <;> rfl

theorem numbersFamily_decodeCarrier : NumbersFamily 2 decodeCarrier := by
  intro fn i h
  unfold decodeCarrier at h
  split at h <;> cases h <;> rfl

theorem numbersFamily_decodeBitStuffing : NumbersFamily 3 decodeBitStuffing := by
  intro fn i h
  unfold decodeBitStuffing at h
  split at h <;> cases h <;> rfl

theorem numbersFamily_decodeCrc : NumbersFamily 4 decodeCrc := by
  intro fn i h
  unfold decodeCrc at h
  split at h <;> cases h <;> rfl

theorem numbersFamily_decodeHamming : NumbersFamily 5 decodeHamming := by
  intro fn i h
  unfold decodeHamming at h
  split at h <;> cases h <;> rfl

/-! ## The whole decoder -/

/-- A word that selects a command has reserved bits 0, and its family and function are those of the
command's own word. -/
theorem fields_of_decode_eq_ok {w : Word} {i : Instr} (h : decode w = .ok i) :
    rsvField w = 0 ∧ (encode i).toNat = 16 * (famField w).toNat + (fnField w).toNat := by
  unfold decode at h
  split at h
  case isFalse => cases h
  case isTrue hrsv =>
    refine ⟨hrsv, ?_⟩
    split at h
    case h_1 hfam => rw [hfam]; exact numbersFamily_decodeLineCoder _ _ h
    case h_2 hfam => rw [hfam]; exact numbersFamily_decodeCarrier _ _ h
    case h_3 hfam => rw [hfam]; exact numbersFamily_decodeBitStuffing _ _ h
    case h_4 hfam => rw [hfam]; exact numbersFamily_decodeCrc _ _ h
    case h_5 hfam => rw [hfam]; exact numbersFamily_decodeHamming _ _ h
    case h_6 => cases h

theorem decode_encode (i : Instr) : decode (encode i) = .ok i := by
  cases i <;> rfl

/-- The word that selects a command is the command's own: the fields make up the word. -/
theorem decode_eq_ok_iff {w : Word} {i : Instr} : decode w = .ok i ↔ w = encode i := by
  constructor
  · intro h
    obtain ⟨hrsv, henc⟩ := fields_of_decode_eq_ok h
    exact BitVec.eq_of_toNat_eq ((toNat_eq_of_rsvField_eq_zero hrsv).trans henc.symm)
  · rintro rfl
    exact decode_encode i

end Sys2Proof

namespace Sys2Proof.Machine

/-! ## The opcode map -/

/-- The rows of R73 are the commands, each with its word. -/
theorem mem_commandTable_iff {w : Word} {i : Instr} : (w, i) ∈ commandTable ↔ w = encode i := by
  constructor
  · have hrow : ∀ r ∈ commandTable, r.1 = encode r.2 := by decide
    exact hrow (w, i)
  · rintro rfl
    cases i <;> decide

/-- The low octets of the command words (R73). -/
def commandOctets : List Nat :=
  [0x10, 0x11, 0x12, 0x13, 0x14, 0x15, 0x16, 0x20, 0x21, 0x22,
    0x23, 0x24, 0x25, 0x26, 0x27, 0x30, 0x31, 0x40, 0x41, 0x50, 0x51]

theorem encode_octet_mem (i : Instr) :
    (encode i).toNat / 256 = 0 ∧ (encode i).toNat % 256 ∈ commandOctets := by
  cases i <;> decide

/-- A word that R74 calls illegal selects no command. -/
theorem decode_ne_ok_of_illegal {w : Word} (h : w.toNat / 256 ≠ 0 ∨ w.toNat % 256 ∉ commandOctets)
    (i : Instr) : decode w ≠ .ok i := by
  intro hd
  obtain ⟨hzero, hmem⟩ := encode_octet_mem i
  rw [← decode_eq_ok_iff.mp hd] at hzero hmem
  exact h.elim (absurd hzero) (absurd hmem)

/-! ## The step and the statements -/

/-- A due word that selects no command is rejected with ILLEGAL_CMD (R74, R233). -/
theorem step_illegal {s : State} {w : Word} (h : s.inflight = some ⟨w, 0⟩) (hd : ∀ i, decode w ≠ .ok i) :
    step s = .next (s.reject .illegalCmd) := by
  rw [step_command (fetchCommand_eq_some.mpr h)]
  cases he : decode w with
  | ok i => exact absurd he (hd i)
  | error _ => rfl

/-- Settles O1: a word and a command belong together exactly when the word is the command's encoding, in the
decoder as in the opcode map. -/
theorem decodeSelectsExactWords : Obligations.DecodeSelectsExactWords :=
  ⟨fun _ _ => decode_eq_ok_iff.trans mem_commandTable_iff.symm,
    fun i _ => ⟨decode_encode i, fun _ => decode_eq_ok_iff.mp⟩⟩

/-- Settles O3: an illegal word selects no command, and the step's rejection is the state shown. -/
theorem illegalWordsAreRejected : Obligations.IllegalWordsAreRejected :=
  fun _ _ h hill => step_illegal h (decode_ne_ok_of_illegal hill)

end Sys2Proof.Machine
end

section
/-! Waveforms handed from an encoder to a decoder: what an encoder that is accepted leaves, what the copy of
its samples loads, and the round trip of any encoder and decoder whose cycles are known. -/

namespace Sys2Proof.Machine

/-! ## The output of an encoder -/

/-- An encoder whose bits are loaded and which ends with CODE = OK has passed its three checks. -/
theorem SampleCycle.of_code_ok {i : Instr} {s t : State} {len : Nat} {pol : List Bit → Bool}
    {w : List Bit → Nat → ℝ} {b : List Bit} (h : SampleCycle i s len pol w) (hb : BitsLoaded s b)
    (ht : exec i s = .next t) (hok : t.code = .ok) :
    ConfigOk i s ∧ len ≤ s.params.maxSamples ∧ SamplesOut s t len (pol b) (w b) := by
  obtain ⟨hbad, -, hover, hrun⟩ := h
  have hfits : s.inBlen.toNat ≤ s.params.maxBits := hb.1 ▸ hb.2.1
  have no_reject : ∀ c, c ≠ .ok → exec i s ≠ .next { s with code := c, inflight := none } := by
    rintro c hc he
    cases ht.symm.trans he
    exact hc hok
  have hcfg : ConfigOk i s := by
    by_contra hn
    exact no_reject _ (by decide) (hbad hn)
  have hlen : len ≤ s.params.maxSamples := by
    by_contra hn
    exact no_reject _ (by decide) (hover hcfg hfits (not_le.1 hn))
  obtain ⟨t', ht', hout⟩ := hrun b hcfg hb hlen
  cases ht.symm.trans ht'
  exact ⟨hcfg, hlen, hout⟩

/-- The configuration that a copy of `s`'s samples finds is the one they were made under (R268). -/
theorem SamplesCopied.eq_withConfigOf {s t u : State} {len : Nat} {pol : Bool} {w : Nat → ℝ}
    (h : SamplesCopied t u) (ht : SamplesOut s t len pol w) : u = u.withConfigOf s := by
  obtain ⟨-, -, hparams, hspb, hvpeak, hask, hfsk1, hfsk2, hiq⟩ := h
  rw [ht.1] at hparams hspb hvpeak hask hfsk1 hfsk2 hiq
  rw [State.withConfigOf, ← hspb, ← hvpeak, ← hask, ← hfsk1, ← hfsk2, ← hiq, ← hparams]

/-- The copy of an output waveform loads its real numbers as an input. -/
theorem SamplesCopied.sampLoaded {s t u : State} {len : Nat} {pol : Bool} {w : Nat → ℝ}
    (h : SamplesCopied t u) (ht : SamplesOut s t len pol w) (hlen : len < 2 ^ 32)
    (hfits : len ≤ u.params.maxSamples) :
    u.inSlen.toNat = len ∧ ∃ r, SampLoaded u r ∧ ∀ j, j < len → sampleAt r j = w j := by
  obtain ⟨hslen, hcopy, -⟩ := h
  obtain ⟨-, houtlen, hread, -⟩ := ht
  have hin : u.inSlen.toNat = len := by rw [hslen, houtlen hlen]
  have hheld : ∀ j, j < len → ∃ x, u.inSamp.read j = some x ∧ x.toReal = w j := fun j hj => by
    rw [hcopy j (by rwa [houtlen hlen])]
    exact hread j hj
  choose! x hx hw using hheld
  have hget : ∀ j, j < len → ((List.range len).map x).getD j Sample.zero = x j := fun j hj => by
    simp [List.getD_eq_getElem?_getD, hj]
  refine ⟨hin, (List.range len).map x, ⟨by simp [hin], by simpa using hfits, fun j hj => ?_⟩,
    fun j hj => ?_⟩
  · have hj : j < len := by simpa using hj
    rw [hget j hj, hx j hj]
  · rw [sampleAt_map_range len x hj, hw j hj]

/-! ## The round trip -/

theorem configOk_withConfigOf {i : Instr} {s : State} (u : State) (h : ConfigOk i s) :
    ConfigOk i (u.withConfigOf s) := by
  cases i <;> exact h

/-- A decoder gives the bits `out` back, where its decisions on the encoder's real numbers are those
bits. -/
theorem givesBack_of_cycles {enc dec : Instr} {s : State} {b out : List Bit} {len : Nat}
    {pol : List Bit → Bool} {w : List Bit → Nat → ℝ} {m : State → Nat}
    {one : State → (Nat → ℝ) → Nat → Prop} (henc : SampleCycle enc s len pol w)
    (hdec : ∀ u, DecisionCycle dec u (m u) (one u)) (hb : BitsLoaded s b) (hlen : len < 2 ^ 32)
    (hout : out.length < 2 ^ 32) (hfits : out.length ≤ s.params.maxBits)
    (hcfg : ConfigOk enc s → ConfigOk dec s)
    (hm : ∀ u : State, ConfigOk enc s → u.inSlen.toNat = len → m (u.withConfigOf s) = out.length)
    (hone : ∀ (u : State) r, ConfigOk enc s → (∀ j, j < len → r j = w b j) →
      ∀ j, j < out.length → (one (u.withConfigOf s) r j ↔ bitAt out j = true)) :
    GivesBack enc dec SamplesCopied s out := by
  intro t u ht hok hcopy
  obtain ⟨hc, hmax, hsamples⟩ := henc.of_code_ok hb ht hok
  have hu := hcopy.eq_withConfigOf hsamples
  obtain ⟨hin, r, hr, hrw⟩ := hcopy.sampLoaded hsamples hlen (by rw [hu]; exact hmax)
  have hmu : m u = out.length := by rw [hu]; exact hm u hc hin
  obtain ⟨-, -, -, hrun⟩ := hdec u
  obtain ⟨v, hv, hframe, hvlen, hbits, -⟩ := hrun r (by rw [hu]; exact configOk_withConfigOf u (hcfg hc))
    hr (by rw [hmu, hu]; exact hfits)
  rw [hmu] at hvlen hbits
  refine ⟨v, hv, by rw [hframe], by rw [hframe], hvlen hout, fun j hj => ?_⟩
  obtain ⟨x, hx, hxone⟩ := hbits j hj
  rw [hu] at hxone
  rw [hx, Bool.eq_iff_iff.2 (hxone.trans (hone u _ hc hrw j hj))]

end Sys2Proof.Machine
end

section
/-! The line coder (R100 to R109): each sample an encoder puts out, each bit a decoder decides, and the mean
of an interval of equal samples, by which every decoder gives back what its encoder was given. -/

namespace Sys2Proof.Machine

/-! ## The samples of the encoders -/

/-- Sample `j` of a waveform that begins with `n` equal samples. -/
theorem sampleAt_replicate_append (n : Nat) (x : Sample) (w : List Sample) (j : Nat) :
    sampleAt (List.replicate n x ++ w) j = if j < n then x.toReal else sampleAt w (j - n) := by
  split
  next h => rw [sampleAt_append_left _ (by simpa using h), sampleAt_replicate n x h]
  next h => rw [sampleAt_append_right _ (by simpa using h), List.length_replicate]

theorem toReal_vpeak_or_neg (v : Sample) (x : Bool) :
    (if x = true then v else v.neg).toReal = if x = true then v.toReal else - v.toReal := by
  rw [apply_ite Sample.toReal, Sample.toReal_neg]

theorem sampleAt_nrzEncode {n : Nat} (hn : 0 < n) (v : Sample) (b : List Bit) {j : Nat}
    (hj : j < b.length * n) :
    sampleAt (nrzEncode n v b) j = if bitAt b (j / n) = true then v.toReal else - v.toReal := by
  rw [nrzEncode, sampleAt_flatMap _ n hn (fun a => List.length_replicate) b j hj,
    sampleAt_replicate n _ (Nat.mod_lt j hn), toReal_vpeak_or_neg]

/-- The samples that MAN_ENC puts out for the bit `x` (R103). -/
def manchesterSymbol (n : Nat) (v : Sample) (x : Bit) : List Sample :=
  List.replicate (n / 2) (if x then v else v.neg) ++
    List.replicate (n - n / 2) (if x then v.neg else v)

theorem manEncode_eq_flatMap (n : Nat) (v : Sample) (b : List Bit) :
    manEncode n v b = b.flatMap (manchesterSymbol n v) := rfl

theorem length_manchesterSymbol (n : Nat) (v : Sample) (x : Bit) : (manchesterSymbol n v x).length = n := by
  rw [manchesterSymbol, List.length_append, List.length_replicate, List.length_replicate]
  omega

/-- The symbol is `+V` in the first half of a 1 and in the second half of a 0. -/
theorem sampleAt_manchesterSymbol {n k : Nat} (hk : k < n) (v : Sample) (x : Bit) :
    sampleAt (manchesterSymbol n v x) k = if (x = true ↔ k < n / 2) then v.toReal else - v.toReal := by
  rw [manchesterSymbol, sampleAt_replicate_append]
  split
  next h => simp [toReal_vpeak_or_neg, h]
  next h =>
    rw [sampleAt_replicate _ _ (by omega)]
    cases x <;> simp [h]

theorem sampleAt_manEncode {n : Nat} (hn : 0 < n) (v : Sample) (b : List Bit) {j : Nat}
    (hj : j < b.length * n) :
    sampleAt (manEncode n v b) j =
      if (bitAt b (j / n) = true ↔ j % n < n / 2) then v.toReal else - v.toReal := by
  rw [manEncode_eq_flatMap, sampleAt_flatMap _ n hn (length_manchesterSymbol n v) b j hj,
    sampleAt_manchesterSymbol (Nat.mod_lt j hn)]

/-! ## Marks and polarities (R105) -/

/-- One more mark is one inversion of the starting polarity. -/
theorem polarityAfter_succ (p : Bool) (k : Nat) : polarityAfter p (k + 1) = polarityAfter (!p) k := by
  unfold polarityAfter
  obtain h | h := Nat.mod_two_eq_zero_or_one k <;> simp [Nat.add_mod, h]

@[simp] theorem marksBefore_cons_false (b : List Bit) (i : Nat) :
    marksBefore (false :: b) (i + 1) = marksBefore b i := by
  simp [marksBefore]

@[simp] theorem marksBefore_cons_true (b : List Bit) (i : Nat) :
    marksBefore (true :: b) (i + 1) = marksBefore b i + 1 := by
  simp [marksBefore]

/-- The level of interval `i` of an AMI waveform that starts from the polarity `p` (R105). -/
noncomputable def amiLevel (v : ℝ) (p : Bool) (b : List Bit) (i : Nat) : ℝ :=
  if bitAt b i = true then if polarityAfter p (marksBefore b i) = true then v else - v else 0

@[simp] theorem amiLevel_cons_succ (v : ℝ) (p x : Bool) (b : List Bit) (i : Nat) :
    amiLevel v p (x :: b) (i + 1) = amiLevel v (Bool.xor p x) b i := by
  cases x <;> simp [amiLevel, bitAt, polarityAfter_succ]

/-- The sample that fills the first interval is at its level. -/
theorem toReal_amiSymbol (v : Sample) (p x : Bool) (b : List Bit) :
    (if x then if p then v else v.neg else Sample.zero).toReal = amiLevel v.toReal p (x :: b) 0 := by
  rw [apply_ite Sample.toReal, apply_ite Sample.toReal, Sample.toReal_neg, Sample.toReal_zero]
  rfl

theorem amiEncode_cons (n : Nat) (v : Sample) (p x : Bool) (b : List Bit) :
    amiEncode n v p (x :: b) =
      (List.replicate n (if x then if p then v else v.neg else Sample.zero) ++
        (amiEncode n v (Bool.xor p x) b).1, (amiEncode n v (Bool.xor p x) b).2) := by
  cases x <;> simp [amiEncode]

theorem sampleAt_amiEncode {n : Nat} (hn : 0 < n) (v : Sample) (p : Bool) (b : List Bit) {j : Nat}
    (hj : j < b.length * n) : sampleAt (amiEncode n v p b).1 j = amiLevel v.toReal p b (j / n) := by
  induction b generalizing p j with
  | nil => simp at hj
  | cons x b ih =>
    rw [amiEncode_cons, sampleAt_replicate_append]
    split
    next h =>
      rw [Nat.div_eq_of_lt h, toReal_amiSymbol]
    next h =>
      have hj' : j - n < b.length * n := by
        rw [List.length_cons, Nat.add_mul, Nat.one_mul] at hj
        omega
      have hdiv : j / n = (j - n) / n + 1 := Nat.div_eq_sub_div hn (not_lt.1 h)
      rw [ih _ hj', hdiv, amiLevel_cons_succ]

theorem amiEncode_pol (n : Nat) (v : Sample) (p : Bool) (b : List Bit) :
    (amiEncode n v p b).2 = polarityAfter p (b.count true) := by
  induction b generalizing p with
  | nil => rfl
  | cons x b ih =>
    rw [amiEncode_cons, ih]
    cases x <;> simp [polarityAfter_succ]

/-! ## The bits of the decoders -/

theorem length_map_intervals (f : List Sample → Bit) (n : Nat) (r : List Sample) :
    ((intervals n r).map f).length = r.length / n := by
  rw [List.length_map, length_intervals]

/-- The mean of a list that is the samples `a` to `a + m - 1` of a waveform. -/
theorem toReal_mean_of_slice {l w : List Sample} {a m : Nat} (hl : l.length = m)
    (h : ∀ k, k < m → sampleAt l k = sampleAt w (a + k)) :
    (Sample.mean l).toReal = meanOf (sampleAt w) a m := by
  rw [toReal_mean_eq, hl, meanOf, Finset.sum_congr rfl fun k hk => h k (Finset.mem_range.1 hk)]

/-- The mean of the first `h` samples of an interval. -/
theorem toReal_mean_take_seg (w : List Sample) {n h j : Nat} (hh : h ≤ n) (hj : j < w.length / n) :
    (Sample.mean ((seg w j n).take h)).toReal = meanOf (sampleAt w) (j * n) h := by
  refine toReal_mean_of_slice (by simp [length_seg_of_lt w hj, hh]) fun k hk => ?_
  rw [← sampleAt_seg w j n (by omega)]
  simp [sampleAt, List.getD_eq_getElem?_getD, hk]

/-- The mean of the samples of an interval after the first `h`. -/
theorem toReal_mean_drop_seg (w : List Sample) {n j : Nat} (h : Nat) (hj : j < w.length / n) :
    (Sample.mean ((seg w j n).drop h)).toReal = meanOf (sampleAt w) (j * n + h) (n - h) := by
  refine toReal_mean_of_slice (by simp [length_seg_of_lt w hj]) fun k hk => ?_
  rw [Nat.add_assoc, ← sampleAt_seg w j n (by omega)]
  simp [sampleAt, List.getD_eq_getElem?_getD, List.getElem?_drop]

theorem bitAt_nrzDecode {n j : Nat} (r : List Sample) (hj : j < r.length / n) :
    bitAt (nrzDecode n r) j = true ↔ 0 < meanOf (sampleAt r) (j * n) n := by
  rw [nrzDecode, bitAt_map_intervals _ _ _ hj, Sample.isPos_iff, toReal_mean_seg r hj]

theorem bitAt_manDecode {n j : Nat} (r : List Sample) (hj : j < r.length / n) :
    bitAt (manDecode n r) j = true ↔
      meanOf (sampleAt r) (j * n + n / 2) (n - n / 2) < meanOf (sampleAt r) (j * n) (n / 2) := by
  rw [manDecode, bitAt_map_intervals _ _ _ hj, Sample.lt_iff, toReal_mean_drop_seg r _ hj,
    toReal_mean_take_seg r (Nat.div_le_self n 2) hj]

theorem bitAt_amiDecode {n j : Nat} (v : Sample) (r : List Sample) (hj : j < r.length / n) :
    bitAt (amiDecode n v r) j = true ↔ ¬ |meanOf (sampleAt r) (j * n) n| < 0.4 * v.toReal := by
  have hthreshold : (v.scale (2 / 5)).toReal = 0.4 * v.toReal := by
    rw [Sample.toReal_scale]; norm_num
  rw [amiDecode, bitAt_map_intervals _ _ _ hj, Bool.not_eq_true', ← Bool.not_eq_true, Sample.lt_iff,
    Sample.toReal_abs, toReal_mean_seg r hj, hthreshold]

/-! ## The cycles -/

theorem spbN_pos {s : State} (h : 4 ≤ s.spb.toNat ∧ 0 < s.vpeak.toReal) : 0 < s.spbN :=
  Nat.lt_of_lt_of_le (by decide) h.1

/-- Settles O28: the cycle of R77 around the waveform of R101. -/
theorem nrzEncCycle : Obligations.NrzEncCycle := fun s =>
  sampleCycle_of (f := fun b => plain (nrzEncode s.spbN s.vpeak b)) rfl (waveOk_iff s) rfl
    (fun b hb => by rw [plain, length_nrzEncode, hb]; rfl) (fun _ => rfl) (fun _ => rfl)
    fun hc b hb _ hj => sampleAt_nrzEncode (spbN_pos hc) s.vpeak b (by rwa [hb])

/-- Settles O29: the cycle of R77 around the decisions of R102. -/
theorem nrzDecCycle : Obligations.NrzDecCycle := fun s =>
  decisionCycle_of (f := nrzDecode s.spbN) rfl (waveOk_iff s) rfl
    (fun r hr => (length_map_intervals _ _ r).trans (congrArg (· / s.spbN) hr))
    fun _ r hr _ hj => bitAt_nrzDecode r (by rwa [hr])

/-- Settles O30: the cycle of R77 around the waveform of R103. -/
theorem manEncCycle : Obligations.ManEncCycle := fun s =>
  sampleCycle_of (f := fun b => plain (manEncode s.spbN s.vpeak b)) rfl (waveOk_iff s) rfl
    (fun b hb => by rw [plain, length_manEncode, hb]; rfl) (fun _ => rfl) (fun _ => rfl)
    fun hc b hb _ hj => sampleAt_manEncode (spbN_pos hc) s.vpeak b (by rwa [hb])

/-- Settles O31: the cycle of R77 around the decisions of R104. -/
theorem manDecCycle : Obligations.ManDecCycle := fun s =>
  decisionCycle_of (f := manDecode s.spbN) rfl (waveOk_iff s) rfl
    (fun r hr => (length_map_intervals _ _ r).trans (congrArg (· / s.spbN) hr))
    fun _ r hr _ hj => bitAt_manDecode r (by rwa [hr])

/-- Settles O32: the cycle of R77 around the waveform and the polarity of R105. -/
theorem amiEncCycle : Obligations.AmiEncCycle := fun s =>
  sampleCycle_of
    (f := fun b => ⟨(amiEncode s.spbN s.vpeak s.amiPol b).1, false,
      some (amiEncode s.spbN s.vpeak s.amiPol b).2⟩)
    rfl (waveOk_iff s) rfl (fun b hb => by rw [length_amiEncode, hb]; rfl) (fun _ => rfl)
    (fun b => amiEncode_pol s.spbN s.vpeak s.amiPol b)
    fun hc b hb _ hj => sampleAt_amiEncode (spbN_pos hc) s.vpeak s.amiPol b (by rwa [hb])

/-- Settles O33: the cycle of R77 around the decisions of R106. -/
theorem amiDecCycle : Obligations.AmiDecCycle := fun s =>
  decisionCycle_of (f := amiDecode s.spbN s.vpeak) rfl (waveOk_iff s) rfl
    (fun r hr => (length_map_intervals _ _ r).trans (congrArg (· / s.spbN) hr))
    fun _ r hr _ hj => bitAt_amiDecode s.vpeak r (by rwa [hr])

/-- Settles O34: AMI_RST has no check but the word's (R107), and its word is its encoding. -/
theorem amiRstCompletes : Obligations.AmiRstCompletes :=
  ⟨fun _ => rfl, fun _ => decode_eq_ok_iff⟩

/-! ## The round trips (R109) -/

/-- Every sample of interval `i` has the level that `level` gives its place in the interval. -/
def HasLevels (r : Nat → ℝ) (n i : Nat) (level : Nat → ℝ) : Prop :=
  ∀ k, k < n → r (i * n + k) = level k

/-- Samples of an interval that are all at one level have it as their mean. -/
theorem HasLevels.meanOf_eq {r : Nat → ℝ} {n i a m : Nat} {level : Nat → ℝ} {c : ℝ}
    (h : HasLevels r n i level) (ham : a + m ≤ n) (hm : 0 < m)
    (hc : ∀ k, a ≤ k → k < a + m → level k = c) : meanOf r (i * n + a) m = c := by
  have hr : ∀ k ∈ Finset.range m, r (i * n + a + k) = c := fun k hk => by
    have hk : k < m := Finset.mem_range.1 hk
    rw [Nat.add_assoc, h (a + k) (by omega), hc (a + k) (by omega) (by omega)]
  have hm0 : (m : ℝ) ≠ 0 := by positivity
  rw [meanOf, Finset.sum_congr rfl hr, Finset.sum_const, Finset.card_range, nsmul_eq_mul,
    mul_div_cancel_left₀ c hm0]

/-- The mean of an interval that is all at one level. -/
theorem HasLevels.meanOf_interval {r : Nat → ℝ} {n i : Nat} {c : ℝ} (h : HasLevels r n i fun _ => c)
    (hn : 0 < n) : meanOf r (i * n) n = c :=
  h.meanOf_eq (a := 0) (by omega) hn fun _ _ _ => rfl

/-- An interval at `V` or `-V` has a mean above 0 exactly when it is at `V`. -/
theorem HasLevels.nrzDecision {r : Nat → ℝ} {n i : Nat} {v : ℝ} {x : Bit}
    (h : HasLevels r n i fun _ => if x = true then v else - v) (hn : 0 < n) (hv : 0 < v) :
    0 < meanOf r (i * n) n ↔ x = true := by
  rw [h.meanOf_interval hn]
  cases x
  · simpa using hv.le
  · simpa using hv

/-- The half-means of a Manchester symbol are `V` and `-V`, the greater one first for a 1. -/
theorem HasLevels.manDecision {r : Nat → ℝ} {n i : Nat} {v : ℝ} {x : Bit}
    (h : HasLevels r n i fun k => if (x = true ↔ k < n / 2) then v else - v) (hn : 2 ≤ n) (hv : 0 < v) :
    meanOf r (i * n + n / 2) (n - n / 2) < meanOf r (i * n) (n / 2) ↔ x = true := by
  have hfirst : meanOf r (i * n) (n / 2) = if x = true then v else - v :=
    h.meanOf_eq (a := 0) (by omega) (by omega) fun k _ hk => by
      rw [Nat.zero_add] at hk
      simp only [hk, iff_true]
  have hsecond : meanOf r (i * n + n / 2) (n - n / 2) = if x = true then - v else v :=
    h.meanOf_eq (by omega) (by omega) fun k hk _ => by
      cases x <;> simp [not_lt.2 hk]
  rw [hfirst, hsecond]
  cases x
  · simpa using by linarith
  · simpa using by linarith

theorem abs_amiLevel {v : ℝ} (hv : 0 ≤ v) (p : Bool) (b : List Bit) (i : Nat) :
    |amiLevel v p b i| = if bitAt b i = true then v else 0 := by
  unfold amiLevel
  split
  · split
    · exact abs_of_nonneg hv
    · rw [abs_neg, abs_of_nonneg hv]
  · exact abs_zero

/-- The size of an AMI interval's mean is `V` for a mark and 0 otherwise, and `0.4 V` lies between. -/
theorem HasLevels.amiDecision {r : Nat → ℝ} {n i : Nat} {v : ℝ} {p : Bool} {b : List Bit}
    (h : HasLevels r n i fun _ => amiLevel v p b i) (hn : 0 < n) (hv : 0 < v) :
    ¬ |meanOf r (i * n) n| < 0.4 * v ↔ bitAt b i = true := by
  rw [h.meanOf_interval hn, abs_amiLevel hv.le]
  split
  next hx => exact iff_of_true (by linarith) hx
  next hx => exact iff_of_false (by rw [not_not]; linarith) hx

/-- The round trip of a line code: the decoder's decision on each interval is the bit, where the samples of
the interval have the levels that the encoder gives that bit's interval. -/
theorem lineCode_givesBack {enc dec : Instr} {s : State} {b : List Bit} {pol : List Bit → Bool}
    {level : List Bit → Nat → Nat → ℝ} {one : State → (Nat → ℝ) → Nat → Prop}
    (henc : SampleCycle enc s (b.length * s.spb.toNat) pol
      fun b j => level b (j / s.spb.toNat) (j % s.spb.toNat))
    (hdec : ∀ u, DecisionCycle dec u (u.inSlen.toNat / u.spb.toNat) (one u)) (hb : BitsLoaded s b)
    (hlen : b.length * s.spb.toNat < 2 ^ 32)
    (hcfg : ConfigOk enc s → 4 ≤ s.spb.toNat ∧ 0 < s.vpeak.toReal)
    (hcfg' : ConfigOk enc s → ConfigOk dec s)
    (hone : ∀ (u : State) r j, 4 ≤ s.spb.toNat → 0 < s.vpeak.toReal →
      HasLevels r s.spb.toNat j (level b j) → (one (u.withConfigOf s) r j ↔ bitAt b j = true)) :
    GivesBack enc dec SamplesCopied s b := by
  have hblen : b.length < 2 ^ 32 := hb.1 ▸ s.inBlen.isLt
  refine givesBack_of_cycles henc hdec hb hlen hblen hb.2.1 hcfg' (fun u hc hu => ?_)
    fun u r hc hr j hj => ?_
  · show u.inSlen.toNat / s.spb.toNat = _
    rw [hu, Nat.mul_div_cancel _ (by have := (hcfg hc).1; omega)]
  · refine hone u r j (hcfg hc).1 (hcfg hc).2 fun k hk => ?_
    have hlt : j * s.spb.toNat + k < b.length * s.spb.toNat := by
      calc j * s.spb.toNat + k < (j + 1) * s.spb.toNat := by rw [Nat.add_mul]; omega
        _ ≤ b.length * s.spb.toNat := Nat.mul_le_mul_right _ hj
    have hdiv : (j * s.spb.toNat + k) / s.spb.toNat = j := Nat.div_eq_of_lt_le (by omega) (by
      rw [Nat.add_mul]; omega)
    rw [hr _ hlt, hdiv, Nat.mul_add_mod_of_lt hk]

theorem nrz_givesBack {s : State} {b : List Bit} (hb : BitsLoaded s b)
    (hlen : b.length * s.spb.toNat < 2 ^ 32) : GivesBack .nrzEnc .nrzDec SamplesCopied s b :=
  lineCode_givesBack
    (level := fun b i _ => if bitAt b i = true then s.vpeak.toReal else - s.vpeak.toReal)
    (by rw [hb.1]; exact nrzEncCycle s) nrzDecCycle hb hlen id id
    fun _ _ _ hn hv h => h.nrzDecision (by omega) hv

theorem man_givesBack {s : State} {b : List Bit} (hb : BitsLoaded s b)
    (hlen : b.length * s.spb.toNat < 2 ^ 32) : GivesBack .manEnc .manDec SamplesCopied s b :=
  lineCode_givesBack
    (level := fun b i k =>
      if (bitAt b i = true ↔ k < s.spb.toNat / 2) then s.vpeak.toReal else - s.vpeak.toReal)
    (by rw [hb.1]; exact manEncCycle s) manDecCycle hb hlen id id
    fun _ _ _ hn hv h => h.manDecision (by omega) hv

theorem ami_givesBack {s : State} {b : List Bit} (hb : BitsLoaded s b)
    (hlen : b.length * s.spb.toNat < 2 ^ 32) : GivesBack .amiEnc .amiDec SamplesCopied s b :=
  lineCode_givesBack (level := fun b i _ => amiLevel s.vpeak.toReal s.amiPol b i)
    (by rw [hb.1]; exact amiEncCycle s) amiDecCycle hb hlen id id
    fun _ _ _ hn hv h => h.amiDecision (by omega) hv

/-- Settles O36: for each line code, the means of the encoder's intervals decide for its bits. -/
theorem lineCodesRoundTrip : Obligations.LineCodesRoundTrip :=
  fun _ _ hb hlen => ⟨nrz_givesBack hb hlen, man_givesBack hb hlen, ami_givesBack hb hlen⟩

end Sys2Proof.Machine
end

section
/-! Sums of carriers over an interval (R130, R138, R144): a carrier whose cycles the number of samples does
not divide adds up to 0, and so two carriers are orthogonal and one has half the samples as its energy. -/

namespace Sys2Proof.Machine

open Finset

/-- The phase of a carrier of `z` cycles, which may be negative: the difference of two phases is one. -/
noncomputable def phase (z : ℤ) (k n : Nat) : ℝ := 2 * Real.pi * z * k / n

theorem theta_add (a b k n : Nat) : theta a k n + theta b k n = phase (a + b : Nat) k n := by
  unfold theta phase
  push_cast
  ring

theorem theta_sub (a b k n : Nat) : theta a k n - theta b k n = phase ((a : ℤ) - b) k n := by
  unfold theta phase
  push_cast
  ring

/-- The points that a carrier takes on the unit circle are the powers of the first one. -/
theorem exp_phase (z : ℤ) (k n : Nat) :
    Complex.exp (phase z k n * Complex.I) = Complex.exp (phase z 1 n * Complex.I) ^ k := by
  rw [← Complex.exp_nat_mul]
  unfold phase
  push_cast
  ring_nf

/-- The first point is 1 only where the cycles are a multiple of the samples. -/
theorem exp_phase_one_ne_one {z : ℤ} {n : Nat} (hn : 0 < n) (hz : ¬ (n : ℤ) ∣ z) :
    Complex.exp (phase z 1 n * Complex.I) ≠ 1 := by
  rw [Ne, Complex.exp_eq_one_iff]
  rintro ⟨m, hm⟩
  refine hz ⟨m, ?_⟩
  have hn0 : (n : ℂ) ≠ 0 := by exact_mod_cast hn.ne'
  have hpi : (Real.pi : ℂ) ≠ 0 := by exact_mod_cast Real.pi_ne_zero
  unfold phase at hm
  push_cast at hm
  field_simp at hm
  exact_mod_cast hm

/-- The points of whole cycles add up to 0: they are the powers of a root of unity other than 1. -/
theorem sum_exp_phase {z : ℤ} {n : Nat} (hz : ¬ (n : ℤ) ∣ z) :
    ∑ k ∈ range n, Complex.exp (phase z k n * Complex.I) = 0 := by
  obtain rfl | hn := Nat.eq_zero_or_pos n
  · rfl
  have hcycle : Complex.exp (phase z 1 n * Complex.I) ^ n = 1 := by
    have hn0 : (n : ℂ) ≠ 0 := by exact_mod_cast hn.ne'
    rw [← exp_phase, Complex.exp_eq_one_iff]
    refine ⟨z, ?_⟩
    unfold phase
    push_cast
    field_simp
  rw [sum_congr rfl fun k _ => exp_phase z k n, geom_sum_eq (exp_phase_one_ne_one hn hz), hcycle,
    sub_self, zero_div]

theorem sum_cos_phase {z : ℤ} {n : Nat} (hz : ¬ (n : ℤ) ∣ z) :
    ∑ k ∈ range n, Real.cos (phase z k n) = 0 := by
  have h := congrArg Complex.re (sum_exp_phase hz)
  simpa only [Complex.re_sum, Complex.exp_ofReal_mul_I_re, Complex.zero_re] using h

theorem sum_sin_phase {z : ℤ} {n : Nat} (hz : ¬ (n : ℤ) ∣ z) :
    ∑ k ∈ range n, Real.sin (phase z k n) = 0 := by
  have h := congrArg Complex.im (sum_exp_phase hz)
  simpa only [Complex.im_sum, Complex.exp_ofReal_mul_I_im, Complex.zero_im] using h

/-! ## Two carriers -/

/-- The sines of two carriers are orthogonal. -/
theorem sum_sin_mul_sin {a b n : Nat} (hsub : ¬ (n : ℤ) ∣ (a : ℤ) - b) (hadd : ¬ n ∣ a + b) :
    ∑ k ∈ range n, Real.sin (theta a k n) * Real.sin (theta b k n) = 0 := by
  have hprod : ∀ k, Real.sin (theta a k n) * Real.sin (theta b k n) =
      (Real.cos (phase ((a : ℤ) - b) k n) - Real.cos (phase (a + b : Nat) k n)) / 2 := fun k => by
    rw [← theta_sub, ← theta_add, Real.cos_sub, Real.cos_add]
    ring
  rw [sum_congr rfl fun k _ => hprod k, ← sum_div, sum_sub_distrib, sum_cos_phase hsub,
    sum_cos_phase (by exact_mod_cast hadd), sub_zero, zero_div]

/-- The sine of one carrier and the cosine of another are orthogonal. -/
theorem sum_sin_mul_cos {a b n : Nat} (hsub : ¬ (n : ℤ) ∣ (a : ℤ) - b) (hadd : ¬ n ∣ a + b) :
    ∑ k ∈ range n, Real.sin (theta a k n) * Real.cos (theta b k n) = 0 := by
  have hprod : ∀ k, Real.sin (theta a k n) * Real.cos (theta b k n) =
      (Real.sin (phase ((a : ℤ) - b) k n) + Real.sin (phase (a + b : Nat) k n)) / 2 := fun k => by
    rw [← theta_sub, ← theta_add, Real.sin_sub, Real.sin_add]
    ring
  rw [sum_congr rfl fun k _ => hprod k, ← sum_div, sum_add_distrib, sum_sin_phase hsub,
    sum_sin_phase (by exact_mod_cast hadd), add_zero, zero_div]

/-! ## One carrier (R138) -/

section
variable {c n : Nat} (h : ¬ n ∣ 2 * c)
include h

theorem sum_cos_two_theta : ∑ k ∈ range n, Real.cos (2 * theta c k n) = 0 := by
  rw [sum_congr rfl fun k _ => by rw [two_mul, theta_add],
    sum_cos_phase (by rw [← two_mul]; exact_mod_cast h)]

/-- The reference energy `EI` (R138). -/
theorem sum_cos_theta_sq : ∑ k ∈ range n, Real.cos (theta c k n) ^ 2 = n / 2 := by
  rw [sum_congr rfl fun k _ => Real.cos_sq (theta c k n), sum_add_distrib, ← sum_div, ← sum_div,
    sum_cos_two_theta h, sum_const, card_range, nsmul_eq_mul]
  ring

/-- The reference energy `EQ` (R138). -/
theorem sum_sin_theta_sq : ∑ k ∈ range n, Real.sin (theta c k n) ^ 2 = n / 2 := by
  rw [sum_congr rfl fun k _ => Real.sin_sq (theta c k n), sum_sub_distrib, sum_cos_theta_sq h, sum_const,
    card_range, nsmul_eq_mul]
  ring

/-- The two axes of one carrier are orthogonal (R138). -/
theorem sum_sin_mul_cos_self : ∑ k ∈ range n, Real.sin (theta c k n) * Real.cos (theta c k n) = 0 := by
  have hprod : ∀ k, Real.sin (theta c k n) * Real.cos (theta c k n) = Real.sin (phase (c + c : Nat) k n) / 2 :=
    fun k => by
      rw [← theta_add, ← two_mul, Real.sin_two_mul]
      ring
  rw [sum_congr rfl fun k _ => hprod k, ← sum_div,
    sum_sin_phase (by rw [← two_mul]; exact_mod_cast h), zero_div]

end

end Sys2Proof.Machine
end

section
/-! The carrier modulator (R130 to R142): each sample a modulator puts out and each bit a demodulator
decides, as the rules have them over exact reals. -/

namespace Sys2Proof.Machine

/-! ## ASK (R132, R133) -/

theorem sampleAt_askModulate {n : Nat} (hn : 0 < n) (c : Nat) (v : Sample) (b : List Bit) {j : Nat}
    (hj : j < b.length * n) :
    sampleAt (askModulate n c v b) j =
      if bitAt b (j / n) = true then v.toReal * Real.sin (theta c (j % n) n) else 0 := by
  rw [askModulate, sampleAt_flatMap _ n hn (fun a => by simp) b j hj, sampleAt_map_range _ _ (Nat.mod_lt j hn),
    apply_ite Sample.toReal, Sample.toReal_mul, toReal_carrierSin, Sample.toReal_zero]

theorem toReal_square (x : Sample) : (square x).toReal = x.toReal * x.toReal :=
  Sample.toReal_mul x x

theorem sampleAt_map_square {l : List Sample} {k : Nat} (hk : k < l.length) :
    sampleAt (l.map square) k = sampleAt l k * sampleAt l k := by
  unfold sampleAt
  rw [← toReal_square]
  simp [List.getD_eq_getElem?_getD, hk]

/-- The mean power of an interval (R133). -/
theorem toReal_mean_square_seg (w : List Sample) {n j : Nat} (hj : j < w.length / n) :
    (Sample.mean ((seg w j n).map square)).toReal =
      meanOf (fun k => sampleAt w k * sampleAt w k) (j * n) n := by
  have hlen := length_seg_of_lt w hj
  rw [toReal_mean_eq, List.length_map, hlen, meanOf]
  refine congrArg (· / (n : ℝ)) (Finset.sum_congr rfl fun k hk => ?_)
  have hk : k < n := Finset.mem_range.1 hk
  rw [sampleAt_map_square (by rwa [hlen]), sampleAt_seg w j n hk]

theorem bitAt_askDemodulate {n j : Nat} (v : Sample) (r : List Sample) (hj : j < r.length / n) :
    bitAt (askDemodulate n v r) j = true ↔
      v.toReal * v.toReal / 4 < meanOf (fun k => sampleAt r k * sampleAt r k) (j * n) n := by
  have hthreshold : ((square v).scale (1 / 4)).toReal = v.toReal * v.toReal / 4 := by
    rw [Sample.toReal_scale, toReal_square]
    push_cast
    ring
  rw [askDemodulate, bitAt_map_intervals _ _ _ hj, Sample.lt_iff, toReal_mean_square_seg r hj, hthreshold]

/-- Settles O37: the cycle of R77 around the waveform of R132. -/
theorem askModCycle : Obligations.AskModCycle := fun s =>
  sampleCycle_of (f := fun b => plain (askModulate s.spbN s.cycA s.vpeak b)) rfl (askOk_iff s) rfl
    (fun b hb => by rw [plain, length_askModulate, hb]; rfl) (fun _ => rfl) (fun _ => rfl)
    fun ⟨hn, hv, _⟩ b hb _ hj => sampleAt_askModulate (spbN_pos ⟨hn, hv⟩) s.cycA s.vpeak b (by rwa [hb])

/-- Settles O38: the cycle of R77 around the decisions of R133. -/
theorem askDemCycle : Obligations.AskDemCycle := fun s =>
  decisionCycle_of (f := askDemodulate s.spbN s.vpeak) rfl (waveOk_iff s) rfl
    (fun r hr => (length_map_intervals _ _ r).trans (congrArg (· / s.spbN) hr))
    fun _ r hr _ hj => bitAt_askDemodulate s.vpeak r (by rwa [hr])

/-! ## FSK (R134, R135) -/

theorem sampleAt_fskModulate {n : Nat} (hn : 0 < n) (c1 c2 : Nat) (v : Sample) (b : List Bit) {j : Nat}
    (hj : j < b.length * n) :
    sampleAt (fskModulate n c1 c2 v b) j =
      v.toReal * Real.sin (theta (if bitAt b (j / n) = true then c1 else c2) (j % n) n) := by
  rw [fskModulate, sampleAt_flatMap _ n hn (fun a => by simp) b j hj, sampleAt_map_range _ _ (Nat.mod_lt j hn),
    Sample.toReal_mul, toReal_carrierSin]

theorem toReal_correlateWith_sin (c : Nat) (w : List Sample) {n j : Nat} (hj : j < w.length / n) :
    (correlateWith (fun k => carrierSin c k n) (seg w j n)).toReal =
      corrOf (sampleAt w) n j fun k => Real.sin (theta c k n) := by
  rw [toReal_correlateWith _ w hj]
  simp only [toReal_carrierSin]

theorem toReal_correlateWith_cos (c : Nat) (w : List Sample) {n j : Nat} (hj : j < w.length / n) :
    (correlateWith (fun k => carrierCos c k n) (seg w j n)).toReal =
      corrOf (sampleAt w) n j fun k => Real.cos (theta c k n) := by
  rw [toReal_correlateWith _ w hj]
  simp only [toReal_carrierCos]

theorem toReal_carrierEnergy (c : Nat) (w : List Sample) {n j : Nat} (hj : j < w.length / n) :
    (carrierEnergy n c (seg w j n)).toReal = energyOf (sampleAt w) n j c := by
  rw [carrierEnergy, Sample.toReal_add, toReal_square, toReal_square, toReal_correlateWith_sin c w hj,
    toReal_correlateWith_cos c w hj, energyOf, sq, sq]

theorem bitAt_fskDemodulate {n j : Nat} (c1 c2 : Nat) (r : List Sample) (hj : j < r.length / n) :
    bitAt (fskDemodulate n c1 c2 r) j = true ↔
      energyOf (sampleAt r) n j c2 < energyOf (sampleAt r) n j c1 := by
  rw [fskDemodulate, bitAt_map_intervals _ _ _ hj, Sample.lt_iff, toReal_carrierEnergy c2 r hj,
    toReal_carrierEnergy c1 r hj]

/-- Settles O39: the cycle of R77 around the waveform of R134. -/
theorem fskModCycle : Obligations.FskModCycle := fun s =>
  sampleCycle_of (f := fun b => plain (fskModulate s.spbN s.cyc1 s.cyc2 s.vpeak b)) rfl (fskOk_iff s) rfl
    (fun b hb => by rw [plain, length_fskModulate, hb]; rfl) (fun _ => rfl) (fun _ => rfl)
    fun ⟨hn, hv, _⟩ b hb _ hj =>
      sampleAt_fskModulate (spbN_pos ⟨hn, hv⟩) s.cyc1 s.cyc2 s.vpeak b (by rwa [hb])

/-- Settles O40: the cycle of R77 around the decisions of R135. -/
theorem fskDemCycle : Obligations.FskDemCycle := fun s =>
  decisionCycle_of (f := fskDemodulate s.spbN s.cyc1 s.cyc2) rfl (fskOk_iff s) rfl
    (fun r hr => (length_map_intervals _ _ r).trans (congrArg (· / s.spbN) hr))
    fun _ r hr _ hj => bitAt_fskDemodulate s.cyc1 s.cyc2 r (by rwa [hr])

/-! ## The I/Q carriers (R131, R138) -/

/-- Sample `j` of a waveform of I/Q symbols, one for each `m` bits of the padded input. -/
theorem sampleAt_iqSymbols {n m : Nat} (hn : 0 < n) (hm : 0 < m) (c : Nat) (i q : Nat → Sample)
    (b : List Bit) {j : Nat} (hj : j < (b.length + (m - 1)) / m * n) :
    sampleAt ((List.range ((padz b m).length / m)).flatMap fun a => iqSymbol n c (i a) (q a)) j =
      (i (j / n)).toReal * Real.cos (theta c (j % n) n) +
        (q (j / n)).toReal * Real.sin (theta c (j % n) n) := by
  rw [(length_padz_div b hm).1, sampleAt_flatMap_range _ n _ hn (fun a => length_iqSymbol n c (i a) (q a)) j hj,
    sampleAt_iqSymbol n c _ _ (Nat.mod_lt j hn)]

/-- Dividing by the reference energy `EI` is the factor `2 / N` (R138). -/
theorem toReal_correlateI {n c : Nat} (h : ¬ n ∣ 2 * c) (w : List Sample) {j : Nat} (hj : j < w.length / n) :
    (correlateI n c (seg w j n)).toReal = iHat (sampleAt w) n c j := by
  rw [correlateI, Sample.toReal_scale, toReal_correlateWith_cos c w hj, iHat, sum_cos_theta_sq h]
  push_cast
  rw [div_div_eq_mul_div, mul_comm, mul_div_assoc]

/-- Dividing by the reference energy `EQ` is the factor `2 / N` (R138). -/
theorem toReal_correlateQ {n c : Nat} (h : ¬ n ∣ 2 * c) (w : List Sample) {j : Nat} (hj : j < w.length / n) :
    (correlateQ n c (seg w j n)).toReal = qHat (sampleAt w) n c j := by
  rw [correlateQ, Sample.toReal_scale, toReal_correlateWith_sin c w hj, qHat, sum_sin_theta_sq h]
  push_cast
  rw [div_div_eq_mul_div, mul_comm, mul_div_assoc]

/-! ## QPSK (R136, R137, R139) -/

/-- The second bit of a symbol is the sign of I. -/
theorem toReal_qpskMap_fst (v : Sample) (b0 b1 : Bit) :
    (qpskMap v b0 b1).1.toReal = if b1 = true then - v.toReal else v.toReal := by
  cases b0 <;> cases b1 <;> simp [qpskMap]

/-- The first bit of a symbol is the sign of Q. -/
theorem toReal_qpskMap_snd (v : Sample) (b0 b1 : Bit) :
    (qpskMap v b0 b1).2.toReal = if b0 = true then - v.toReal else v.toReal := by
  cases b0 <;> cases b1 <;> simp [qpskMap]

theorem sampleAt_qpskModulate {n : Nat} (hn : 0 < n) (c : Nat) (v : Sample) (b : List Bit) {j : Nat}
    (hj : j < qpskLength n b.length) :
    sampleAt (qpskModulate n c v b) j =
      (if bitAt b (2 * (j / n) + 1) = true then - v.toReal else v.toReal) * Real.cos (theta c (j % n) n) +
        (if bitAt b (2 * (j / n)) = true then - v.toReal else v.toReal) * Real.sin (theta c (j % n) n) := by
  rw [qpskModulate, sampleAt_iqSymbols hn (by decide) c _ _ b hj, toReal_qpskMap_fst, toReal_qpskMap_snd,
    bitAt_padz, bitAt_padz]

theorem bitAt_qpskDemodulate {n c : Nat} (h : ¬ n ∣ 2 * c) (r : List Sample) {j : Nat}
    (hj : j < 2 * (r.length / n)) :
    bitAt (qpskDemodulate n c r) j = true ↔
      if j % 2 = 0 then qHat (sampleAt r) n c (j / 2) < 0 else iHat (sampleAt r) n c (j / 2) < 0 := by
  have hj2 : j / 2 < r.length / n := Nat.div_lt_of_lt_mul hj
  rw [qpskDemodulate, bitAt_flatMap_intervals _ 2 r n (by decide) (fun _ => rfl) hj, ← toReal_correlateQ h r hj2,
    ← toReal_correlateI h r hj2, ← Sample.isNeg_iff, ← Sample.isNeg_iff]
  obtain h0 | h1 := Nat.mod_two_eq_zero_or_one j
  · rw [if_pos h0, h0]
    rfl
  · rw [if_neg (by omega), h1]
    rfl

/-- Settles O41: the cycle of R77 around the waveform of R137. -/
theorem qpskModCycle : Obligations.QpskModCycle := fun s =>
  sampleCycle_of (f := fun b => plain (qpskModulate s.spbN s.cycI s.vpeak b)) rfl (iqOk_iff s) rfl
    (fun b hb => by rw [plain, length_qpskModulate, hb]; rfl) (fun _ => rfl) (fun _ => rfl)
    fun ⟨hn, hv, _⟩ b hb _ hj =>
      sampleAt_qpskModulate (spbN_pos ⟨hn, hv⟩) s.cycI s.vpeak b (by rwa [hb])

/-- Settles O42: the cycle of R77 around the decisions of R139. -/
theorem qpskDemCycle : Obligations.QpskDemCycle := fun s =>
  decisionCycle_of (f := qpskDemodulate s.spbN s.cycI) rfl (iqOk_iff s) rfl
    (fun r hr => by rw [length_qpskDemodulate, hr]; rfl)
    fun ⟨_, _, _, hndvd⟩ r hr _ hj => bitAt_qpskDemodulate hndvd r (by rwa [hr])

/-! ## The levels of 16-QAM (R140) -/

/-- The level of a pair of bits, in units of `A1 = V/(3√2)`. -/
def grayUnits (b0 b1 : Bit) : ℤ :=
  match b0, b1 with
  | false, false => -3
  | false, true => -1
  | true, true => 1
  | true, false => 3

theorem gray2Real_eq (v : ℝ) (b0 b1 : Bit) :
    gray2Real v b0 b1 = v / (3 * Real.sqrt 2) * (grayUnits b0 b1 : ℝ) := by
  cases b0 <;> cases b1 <;> simp only [gray2Real, grayUnits] <;> push_cast <;> ring

/-- The levels are in the order of their units. -/
theorem gray2Real_lt_iff {v : ℝ} (hv : 0 < v) {b0 b1 c0 c1 : Bit} :
    gray2Real v b0 b1 < gray2Real v c0 c1 ↔ grayUnits b0 b1 < grayUnits c0 c1 := by
  have hunit : 0 < v / (3 * Real.sqrt 2) := by positivity
  rw [gray2Real_eq, gray2Real_eq, mul_lt_mul_iff_right₀ hunit, Int.cast_lt]

theorem grayUnits_injective :
    ∀ {b0 b1 c0 c1 : Bit}, grayUnits b0 b1 = grayUnits c0 c1 → b0 = c0 ∧ b1 = c1 := by
  decide

/-- Different pairs have different levels. -/
theorem gray2Real_injective {v : ℝ} (hv : 0 < v) {b0 b1 c0 c1 : Bit}
    (h : gray2Real v b0 b1 = gray2Real v c0 c1) : b0 = c0 ∧ b1 = c1 :=
  grayUnits_injective (le_antisymm (not_lt.1 fun hgt => h.not_gt ((gray2Real_lt_iff hv).2 hgt))
    (not_lt.1 fun hlt => h.not_lt ((gray2Real_lt_iff hv).2 hlt)))

/-! ## The nearest level (R142) -/

/-- `e` is the entry of `l` whose level is nearest to `x`, and every lower level is farther. -/
def NearestEntry (x : ℝ) (l : List (Sample × List Bit)) (e : Sample × List Bit) : Prop :=
  e ∈ l ∧ ∀ f ∈ l, |x - e.1.toReal| ≤ |x - f.1.toReal| ∧
    (f.1.toReal < e.1.toReal → |x - e.1.toReal| < |x - f.1.toReal|)

/-- The levels rise strictly. -/
def LevelsRise (l : List (Sample × List Bit)) : Prop := l.Pairwise fun e f => e.1.toReal < f.1.toReal

/-- The search over rising levels finds the nearest one, the lower one at a midpoint. -/
theorem nearestEntry_nearestOf (x : Sample) (l : List (Sample × List Bit)) (best : Sample × List Bit)
    (h : LevelsRise (best :: l)) : NearestEntry x.toReal (best :: l) (nearestOf x best l) := by
  induction l generalizing best with
  | nil => exact ⟨List.mem_singleton_self _, fun f hf => by rw [List.mem_singleton.1 hf]; simp [nearestOf]⟩
  | cons e l ih =>
    obtain ⟨hbest, hel⟩ := List.pairwise_cons.1 h
    have hbe : best.1.toReal < e.1.toReal := hbest e List.mem_cons_self
    rw [nearestOf]
    split
    next hcloser =>
      rw [Sample.lt_iff, Sample.toReal_abs, Sample.toReal_abs, Sample.toReal_sub, Sample.toReal_sub] at hcloser
      obtain ⟨hmem, hnear⟩ := ih e hel
      have hfar := (hnear e List.mem_cons_self).1.trans_lt hcloser
      exact ⟨List.mem_cons_of_mem _ hmem, List.forall_mem_cons.2 ⟨⟨hfar.le, fun _ => hfar⟩, hnear⟩⟩
    next hcloser =>
      rw [Sample.lt_iff, Sample.toReal_abs, Sample.toReal_abs, Sample.toReal_sub, Sample.toReal_sub,
        not_lt] at hcloser
      have hrise : LevelsRise (best :: l) :=
        List.pairwise_cons.2 ⟨fun f hf => hbest f (List.mem_cons_of_mem _ hf), hel.of_cons⟩
      obtain ⟨hmem, hnear⟩ := ih best hrise
      obtain ⟨hnb, hnl⟩ := List.forall_mem_cons.1 hnear
      have hne : |x.toReal - (nearestOf x best l).1.toReal| ≤ |x.toReal - e.1.toReal| := hnb.1.trans hcloser
      exact ⟨List.cons_subset_cons _ (List.subset_cons_self e l) hmem,
        List.forall_mem_cons.2 ⟨hnb, List.forall_mem_cons.2
          ⟨⟨hne, fun hlow => (hnb.2 (hbe.trans hlow)).trans_le hcloser⟩, hnl⟩⟩⟩

theorem mem_qamLevels_iff {v : Sample} {e : Sample × List Bit} :
    e ∈ qamLevels v ↔ ∃ b0 b1, e = (gray2 v b0 b1, [b0, b1]) := by
  simp only [Bool.exists_bool, gray2, qamLevels, List.mem_cons, List.not_mem_nil, or_false]
  tauto

theorem levelsRise_qamLevels {v : Sample} (hv : 0 < v.toReal) : LevelsRise (qamLevels v) := by
  have hunits : [(false, false), (false, true), (true, true), (true, false)].Pairwise
      fun p q => grayUnits p.1 p.2 < grayUnits q.1 q.2 := by decide
  refine List.Pairwise.map (fun p : Bit × Bit => (gray2 v p.1 p.2, [p.1, p.2])) (fun p q h => ?_) hunits
  rw [toReal_gray2, toReal_gray2]
  exact (gray2Real_lt_iff hv).2 h

/-- The first level, with which the search starts, stands in the list again and does not replace itself. -/
theorem nearestBits_eq (v x : Sample) :
    nearestBits v x = (nearestOf x ((levelA3 v).neg, [false, false]) (qamLevels v).tail).2 := by
  have hself : (x.sub (levelA3 v).neg).abs.lt (x.sub (levelA3 v).neg).abs = false := by
    rw [← Bool.not_eq_true, Sample.lt_iff]
    exact lt_irrefl _
  rw [nearestBits, qamLevels, nearestOf, hself]
  rfl

/-- The two bits of an axis are those of a nearest pair (R142). -/
theorem exists_nearestPair {v : Sample} (hv : 0 < v.toReal) (x : Sample) :
    ∃ b0 b1, nearestBits v x = [b0, b1] ∧ NearestPair v.toReal x.toReal b0 b1 := by
  obtain ⟨hmem, hnear⟩ := nearestEntry_nearestOf x (qamLevels v).tail _ (levelsRise_qamLevels hv)
  obtain ⟨b0, b1, he⟩ := mem_qamLevels_iff.1 hmem
  refine ⟨b0, b1, by rw [nearestBits_eq, he], fun c0 c1 => ?_⟩
  have hc := hnear _ (mem_qamLevels_iff.2 ⟨c0, c1, rfl⟩)
  rwa [he, toReal_gray2, toReal_gray2] at hc

/-- There is one nearest pair. -/
theorem NearestPair.unique {v x : ℝ} (hv : 0 < v) {b0 b1 c0 c1 : Bit} (hb : NearestPair v x b0 b1)
    (hc : NearestPair v x c0 c1) : b0 = c0 ∧ b1 = c1 := by
  obtain hlt | heq | hlt := lt_trichotomy (gray2Real v b0 b1) (gray2Real v c0 c1)
  · exact absurd ((hc b0 b1).2 hlt) (not_lt.2 (hb c0 c1).1)
  · exact gray2Real_injective hv heq
  · exact absurd ((hb c0 c1).2 hlt) (not_lt.2 (hc b0 b1).1)

/-- Bit `k` of the two bits of an axis. -/
theorem bitAt_nearestBits {v : Sample} (hv : 0 < v.toReal) (x : Sample) {k : Nat} (hk : k < 2) :
    bitAt (nearestBits v x) k = true ↔
      ∃ b0 b1, NearestPair v.toReal x.toReal b0 b1 ∧ (if k = 0 then b0 else b1) = true := by
  obtain ⟨b0, b1, hbits, hnear⟩ := exists_nearestPair hv x
  have hbit : bitAt (nearestBits v x) k = if k = 0 then b0 else b1 := by
    rw [hbits]
    obtain rfl | rfl : k = 0 ∨ k = 1 := by omega
    · rfl
    · rfl
  rw [hbit]
  refine ⟨fun h => ⟨b0, b1, hnear, h⟩, fun ⟨c0, c1, hc, h⟩ => ?_⟩
  obtain ⟨rfl, rfl⟩ := hnear.unique hv hc
  exact h

/-! ## 16-QAM (R141, R142) -/

theorem sampleAt_qam16Modulate {n : Nat} (hn : 0 < n) (c : Nat) (v : Sample) (b : List Bit) {j : Nat}
    (hj : j < qam16Length n b.length) :
    sampleAt (qam16Modulate n c v b) j =
      gray2Real v.toReal (bitAt b (4 * (j / n))) (bitAt b (4 * (j / n) + 1)) *
          Real.cos (theta c (j % n) n) +
        gray2Real v.toReal (bitAt b (4 * (j / n) + 2)) (bitAt b (4 * (j / n) + 3)) *
          Real.sin (theta c (j % n) n) := by
  rw [qam16Modulate, sampleAt_iqSymbols hn (by decide) c _ _ b hj, toReal_gray2, toReal_gray2]
  simp only [bitAt_padz]

/-- The first two bits of an interval are those of I, the other two those of Q. -/
theorem bitAt_append_nearestBits (v x y : Sample) {k : Nat} (hk : k < 4) :
    bitAt (nearestBits v x ++ nearestBits v y) k = bitAt (nearestBits v (if k < 2 then x else y)) (k % 2) := by
  unfold bitAt
  rw [List.getD_eq_getElem?_getD, List.getElem?_append, length_nearestBits, List.getD_eq_getElem?_getD]
  split
  next h => rw [Nat.mod_eq_of_lt h]
  next h => rw [show k - 2 = k % 2 by omega]

theorem bitAt_qam16Demodulate {n c : Nat} (h : ¬ n ∣ 2 * c) {v : Sample} (hv : 0 < v.toReal) (r : List Sample)
    {j : Nat} (hj : j < 4 * (r.length / n)) :
    bitAt (qam16Demodulate n c v r) j = true ↔ ∃ b0 b1,
      NearestPair v.toReal (if j % 4 < 2 then iHat (sampleAt r) n c (j / 4) else qHat (sampleAt r) n c (j / 4))
        b0 b1 ∧ (if j % 2 = 0 then b0 else b1) = true := by
  have hj4 : j / 4 < r.length / n := Nat.div_lt_of_lt_mul hj
  rw [qam16Demodulate, bitAt_flatMap_intervals _ 4 r n (by decide) (by simp) hj,
    bitAt_append_nearestBits v _ _ (Nat.mod_lt j (by decide)), Nat.mod_mod_of_dvd j (by decide : 2 ∣ 4),
    bitAt_nearestBits hv _ (Nat.mod_lt j (by decide)), apply_ite Sample.toReal, toReal_correlateI h r hj4,
    toReal_correlateQ h r hj4]

/-- Settles O43: the cycle of R77 around the waveform of R141. -/
theorem qamModCycle : Obligations.QamModCycle := fun s =>
  sampleCycle_of (f := fun b => plain (qam16Modulate s.spbN s.cycI s.vpeak b)) rfl (iqOk_iff s) rfl
    (fun b hb => by rw [plain, length_qam16Modulate, hb]; rfl) (fun _ => rfl) (fun _ => rfl)
    fun ⟨hn, hv, _⟩ b hb _ hj =>
      sampleAt_qam16Modulate (spbN_pos ⟨hn, hv⟩) s.cycI s.vpeak b (by rwa [hb])

/-- Settles O44: the cycle of R77 around the decisions of R142. -/
theorem qamDemCycle : Obligations.QamDemCycle := fun s =>
  decisionCycle_of (f := qam16Demodulate s.spbN s.cycI s.vpeak) rfl (iqOk_iff s) rfl
    (fun r hr => by rw [length_qam16Demodulate, hr]; rfl)
    fun ⟨_, hv, _, hndvd⟩ r hr _ hj => bitAt_qam16Demodulate hndvd hv r (by rwa [hr])

end Sys2Proof.Machine
end

section
/-! The round trips of the carrier modulator (R143, R144): what a demodulator sees of an interval that a
modulator made, and so the bits it decides. -/

namespace Sys2Proof.Machine

open Finset

/-! ## What a demodulator sees -/

/-- The intervals of a waveform whose samples are given by interval and place. -/
theorem hasLevels_of_samples {r : Nat → ℝ} {n m : Nat} {level : Nat → Nat → ℝ}
    (h : ∀ j, j < m * n → r j = level (j / n) (j % n)) {i : Nat} (hi : i < m) :
    HasLevels r n i (level i) := by
  intro k hk
  have hlt : i * n + k < m * n := by
    calc i * n + k < (i + 1) * n := by rw [Nat.add_mul]; omega
      _ ≤ m * n := Nat.mul_le_mul_right _ hi
  have hdiv : (i * n + k) / n = i := Nat.div_eq_of_lt_le (by omega) (by rw [Nat.add_mul]; omega)
  rw [h _ hlt, hdiv, Nat.mul_add_mod_of_lt hk]

theorem HasLevels.corrOf_eq {r : Nat → ℝ} {n i : Nat} {level : Nat → ℝ} (h : HasLevels r n i level)
    (ref : Nat → ℝ) : corrOf r n i ref = ∑ k ∈ range n, level k * ref k :=
  sum_congr rfl fun k hk => by rw [h k (mem_range.1 hk)]

/-! ## ASK -/

/-- The mean power of a 1 is `V²/2` and that of a 0 is 0. -/
theorem HasLevels.askPower {r : Nat → ℝ} {n c i : Nat} {v : ℝ} {x : Bit} (hn : 0 < n) (hc : ¬ n ∣ 2 * c)
    (h : HasLevels r n i fun k => if x = true then v * Real.sin (theta c k n) else 0) :
    meanOf (fun k => r k * r k) (i * n) n = if x = true then v ^ 2 / 2 else 0 := by
  have hsq : ∀ k ∈ range n, r (i * n + k) * r (i * n + k) =
      if x = true then v ^ 2 * Real.sin (theta c k n) ^ 2 else 0 := fun k hk => by
    rw [h k (mem_range.1 hk)]
    split <;> ring
  have hn0 : (n : ℝ) ≠ 0 := by positivity
  rw [meanOf, sum_congr rfl hsq]
  split
  · rw [← mul_sum, sum_sin_theta_sq hc]
    field_simp
  · rw [sum_const_zero, zero_div]

/-- The threshold `V²/4` lies between the two powers. -/
theorem HasLevels.askDecision {r : Nat → ℝ} {n c i : Nat} {v : ℝ} {x : Bit} (hn : 0 < n) (hv : 0 < v)
    (hc : ¬ n ∣ 2 * c) (h : HasLevels r n i fun k => if x = true then v * Real.sin (theta c k n) else 0) :
    v * v / 4 < meanOf (fun k => r k * r k) (i * n) n ↔ x = true := by
  have hpos : 0 < v * v := mul_pos hv hv
  rw [h.askPower hn hc]
  split
  next hx => exact iff_of_true (by linarith [sq v]) hx
  next hx => exact iff_of_false (by linarith) hx

/-- Settles O45: the powers of ASK_MOD's intervals decide for its bits. -/
theorem askRoundTrip : Obligations.AskRoundTrip := fun s _ hb hlen hc =>
  lineCode_givesBack
    (level := fun b i k => if bitAt b i = true then
      s.vpeak.toReal * Real.sin (theta s.askCyc.toNat k s.spb.toNat) else 0)
    (by rw [hb.1]; exact askModCycle s) askDemCycle hb hlen (fun ⟨hn, hv, _⟩ => ⟨hn, hv⟩)
    (fun ⟨hn, hv, _⟩ => ⟨hn, hv⟩)
    fun _ _ _ hn hv h => h.askDecision (Nat.zero_lt_of_lt hn) hv hc

/-! ## FSK -/

/-- The correlation of a carrier of amplitude `v`. -/
theorem HasLevels.corrOf_mul {r : Nat → ℝ} {n i : Nat} {v : ℝ} {carrier : Nat → ℝ}
    (h : HasLevels r n i fun k => v * carrier k) (ref : Nat → ℝ) :
    corrOf r n i ref = v * ∑ k ∈ range n, carrier k * ref k := by
  simp only [h.corrOf_eq, mul_assoc, mul_sum]

/-- The energy of a carrier on itself. -/
theorem HasLevels.energyOf_self {r : Nat → ℝ} {n c i : Nat} {v : ℝ} (hc : ¬ n ∣ 2 * c)
    (h : HasLevels r n i fun k => v * Real.sin (theta c k n)) : energyOf r n i c = (v * (n / 2)) ^ 2 := by
  have hsin : corrOf r n i (fun k => Real.sin (theta c k n)) = v * (n / 2) := by
    rw [h.corrOf_mul, ← sum_sin_theta_sq hc]
    simp only [sq]
  have hcos : corrOf r n i (fun k => Real.cos (theta c k n)) = 0 := by
    rw [h.corrOf_mul, sum_sin_mul_cos_self hc, mul_zero]
  rw [energyOf, hsin, hcos]
  ring

/-- The energy of a carrier on another. -/
theorem HasLevels.energyOf_other {r : Nat → ℝ} {n a b i : Nat} {v : ℝ} (hsub : ¬ (n : ℤ) ∣ (a : ℤ) - b)
    (hadd : ¬ n ∣ a + b) (h : HasLevels r n i fun k => v * Real.sin (theta a k n)) : energyOf r n i b = 0 := by
  have hsin : corrOf r n i (fun k => Real.sin (theta b k n)) = 0 := by
    rw [h.corrOf_mul, sum_sin_mul_sin hsub hadd, mul_zero]
  have hcos : corrOf r n i (fun k => Real.cos (theta b k n)) = 0 := by
    rw [h.corrOf_mul, sum_sin_mul_cos hsub hadd, mul_zero]
  rw [energyOf, hsin, hcos]
  ring

/-- The carrier that was sent has the higher energy. -/
theorem HasLevels.fskDecision {r : Nat → ℝ} {n c1 c2 i : Nat} {v : ℝ} {x : Bit} (hn : 0 < n) (hv : 0 < v)
    (h1 : ¬ n ∣ 2 * c1) (h2 : ¬ n ∣ 2 * c2) (hsub : ¬ (n : ℤ) ∣ (c1 : ℤ) - c2) (hadd : ¬ n ∣ c1 + c2)
    (h : HasLevels r n i fun k => v * Real.sin (theta (if x = true then c1 else c2) k n)) :
    energyOf r n i c2 < energyOf r n i c1 ↔ x = true := by
  have hpos : 0 < (v * (n / 2)) ^ 2 := by positivity
  cases x with
  | true =>
    rw [h.energyOf_self h1, h.energyOf_other hsub hadd]
    exact iff_of_true hpos rfl
  | false =>
    rw [h.energyOf_self h2, h.energyOf_other (by rwa [dvd_sub_comm]) (by rwa [Nat.add_comm])]
    exact iff_of_false hpos.not_gt (by decide)

/-- Settles O46: the energies of FSK_MOD's intervals decide for its bits. -/
theorem fskRoundTrip : Obligations.FskRoundTrip := fun s _ hb hlen h1 h2 hsub hadd =>
  lineCode_givesBack
    (level := fun b i k => s.vpeak.toReal * Real.sin (theta
      (if bitAt b i = true then s.fskCyc1.toNat else s.fskCyc2.toNat) k s.spb.toNat))
    (by rw [hb.1]; exact fskModCycle s) fskDemCycle hb hlen (fun ⟨hn, hv, _⟩ => ⟨hn, hv⟩) id
    fun _ _ _ hn hv h => h.fskDecision (Nat.zero_lt_of_lt hn) hv h1 h2 hsub hadd

/-! ## QPSK and 16-QAM -/

section
variable {r : Nat → ℝ} {n c i : Nat} {a q : ℝ} (hn : 0 < n) (hc : ¬ n ∣ 2 * c)
  (h : HasLevels r n i fun k => a * Real.cos (theta c k n) + q * Real.sin (theta c k n))
include hn hc h

/-- The correlator gives back I. -/
theorem HasLevels.iHat_eq : iHat r n c i = a := by
  have hn0 : (n : ℝ) / 2 ≠ 0 := by positivity
  have hprod : ∀ k, (a * Real.cos (theta c k n) + q * Real.sin (theta c k n)) * Real.cos (theta c k n) =
      a * Real.cos (theta c k n) ^ 2 + q * (Real.sin (theta c k n) * Real.cos (theta c k n)) :=
    fun k => by ring
  simp only [iHat, h.corrOf_eq, hprod, sum_add_distrib, ← mul_sum, sum_cos_theta_sq hc, sum_sin_mul_cos_self hc]
  rw [mul_zero, add_zero, mul_div_cancel_right₀ _ hn0]

/-- The correlator gives back Q. -/
theorem HasLevels.qHat_eq : qHat r n c i = q := by
  have hn0 : (n : ℝ) / 2 ≠ 0 := by positivity
  have hprod : ∀ k, (a * Real.cos (theta c k n) + q * Real.sin (theta c k n)) * Real.sin (theta c k n) =
      a * (Real.sin (theta c k n) * Real.cos (theta c k n)) + q * Real.sin (theta c k n) ^ 2 :=
    fun k => by ring
  simp only [qHat, h.corrOf_eq, hprod, sum_add_distrib, ← mul_sum, sum_sin_theta_sq hc, sum_sin_mul_cos_self hc]
  rw [mul_zero, zero_add, mul_div_cancel_right₀ _ hn0]

end

/-- The round trip of a code with `m` bits for each I/Q symbol: the decoder's decisions on the symbol's own
I and Q are its bits. -/
theorem iqCode_givesBack {enc dec : Instr} {s : State} {b : List Bit} {m : Nat} {pol : List Bit → Bool}
    {axisI axisQ : List Bit → Nat → ℝ} {one : State → (Nat → ℝ) → Nat → Prop} (hm : 0 < m) (hm4 : m ≤ 4)
    (henc : SampleCycle enc s ((b.length + (m - 1)) / m * s.spb.toNat) pol fun b j =>
      axisI b (j / s.spb.toNat) * Real.cos (theta s.iqCyc.toNat (j % s.spb.toNat) s.spb.toNat) +
        axisQ b (j / s.spb.toNat) * Real.sin (theta s.iqCyc.toNat (j % s.spb.toNat) s.spb.toNat))
    (hdec : ∀ u, DecisionCycle dec u (m * (u.inSlen.toNat / u.spb.toNat)) (one u)) (hb : BitsLoaded s b)
    (hlen : (b.length + 1) * s.spb.toNat < 2 ^ 32) (hfits : m * ((b.length + (m - 1)) / m) ≤ s.params.maxBits)
    (hcfg : ConfigOk enc s → ConfigOk .qpskDem s) (hcfg' : ConfigOk enc s → ConfigOk dec s)
    (hone : ∀ (u : State) r j, 0 < s.vpeak.toReal →
      iHat r s.spb.toNat s.iqCyc.toNat (j / m) = axisI b (j / m) →
      qHat r s.spb.toNat s.iqCyc.toNat (j / m) = axisQ b (j / m) →
      (one (u.withConfigOf s) r j ↔ bitAt b j = true)) :
    GivesBack enc dec SamplesCopied s (padz b m) := by
  intro t u ht hok hcopy
  obtain ⟨hc, -, -⟩ := henc.of_code_ok hb ht hok
  obtain ⟨hn, hv, -, hndvd⟩ := hcfg hc
  obtain ⟨hsymbols, hpad⟩ := length_padz_div b hm
  rw [hsymbols] at hpad
  have hcount : (b.length + (m - 1)) / m ≤ b.length + 1 := by
    refine Nat.div_le_of_le_mul ?_
    have := Nat.le_mul_of_pos_left b.length hm
    rw [Nat.mul_succ]
    omega
  have hsamples : (b.length + (m - 1)) / m * s.spb.toNat < 2 ^ 32 :=
    (Nat.mul_le_mul_right _ hcount).trans_lt hlen
  have hbits : (padz b m).length < 2 ^ 32 := by
    rw [← hpad, Nat.mul_comm]
    exact (Nat.mul_le_mul_left _ (hm4.trans hn)).trans_lt hsamples
  refine givesBack_of_cycles henc hdec hb hsamples hbits (hpad ▸ hfits) hcfg' (fun u _ hu => ?_)
    (fun u r _ hr j hj => ?_) t u ht hok hcopy
  · show m * (u.inSlen.toNat / s.spb.toNat) = _
    rw [hu, Nat.mul_div_cancel _ (by omega), hpad]
  · rw [← hpad] at hj
    have hlevels := hasLevels_of_samples (level := fun i k =>
      axisI b i * Real.cos (theta s.iqCyc.toNat k s.spb.toNat) +
        axisQ b i * Real.sin (theta s.iqCyc.toNat k s.spb.toNat)) hr (Nat.div_lt_of_lt_mul hj)
    rw [bitAt_padz]
    exact hone u r j hv (hlevels.iHat_eq (by omega) hndvd) (hlevels.qHat_eq (by omega) hndvd)

/-- An axis at `V` or `-V` is negative exactly for the bit 1. -/
theorem axis_neg_iff {v : ℝ} (hv : 0 < v) (x : Bit) : (if x = true then - v else v) < 0 ↔ x = true := by
  split
  next hx => exact iff_of_true (neg_lt_zero.2 hv) hx
  next hx => exact iff_of_false hv.not_gt hx

theorem qpsk_givesBack {s : State} {b : List Bit} (hb : BitsLoaded s b)
    (hlen : (b.length + 1) * s.spb.toNat < 2 ^ 32) (hfits : 2 * ((b.length + 1) / 2) ≤ s.params.maxBits) :
    GivesBack .qpskMod .qpskDem SamplesCopied s (padz b 2) := by
  refine iqCode_givesBack
    (axisI := fun b i => if bitAt b (2 * i + 1) = true then - s.vpeak.toReal else s.vpeak.toReal)
    (axisQ := fun b i => if bitAt b (2 * i) = true then - s.vpeak.toReal else s.vpeak.toReal)
    (by decide) (by decide) (by rw [hb.1]; exact qpskModCycle s) qpskDemCycle hb hlen hfits id id
    fun u r j hv hI hQ => ?_
  show (if j % 2 = 0 then qHat r s.spb.toNat s.iqCyc.toNat (j / 2) < 0
    else iHat r s.spb.toNat s.iqCyc.toNat (j / 2) < 0) ↔ _
  rw [hI, hQ, axis_neg_iff hv, axis_neg_iff hv]
  split
  next h => rw [show 2 * (j / 2) = j by omega]
  next h => rw [show 2 * (j / 2) + 1 = j by omega]

/-- The pair nearest to a level is the level's own. -/
theorem nearestPair_gray2Real_iff {v : ℝ} (hv : 0 < v) {b0 b1 c0 c1 : Bit} :
    NearestPair v (gray2Real v b0 b1) c0 c1 ↔ b0 = c0 ∧ b1 = c1 := by
  have hself : NearestPair v (gray2Real v b0 b1) b0 b1 := fun d0 d1 => by
    rw [sub_self, abs_zero]
    exact ⟨abs_nonneg _, fun hlt => abs_pos.2 (sub_ne_zero.2 hlt.ne')⟩
  refine ⟨hself.unique hv, ?_⟩
  rintro ⟨rfl, rfl⟩
  exact hself

/-- What a bit of the nearest pair of a level is. -/
theorem exists_nearestPair_gray2Real_iff {v : ℝ} (hv : 0 < v) {b0 b1 : Bit} {P : Bit → Bit → Prop} :
    (∃ c0 c1, NearestPair v (gray2Real v b0 b1) c0 c1 ∧ P c0 c1) ↔ P b0 b1 := by
  simp only [nearestPair_gray2Real_iff hv, and_assoc, exists_and_left, exists_eq_left']

theorem qam16_givesBack {s : State} {b : List Bit} (hb : BitsLoaded s b)
    (hlen : (b.length + 1) * s.spb.toNat < 2 ^ 32) (hfits : 4 * ((b.length + 3) / 4) ≤ s.params.maxBits) :
    GivesBack .qam16Mod .qam16Dem SamplesCopied s (padz b 4) := by
  refine iqCode_givesBack
    (axisI := fun b i => gray2Real s.vpeak.toReal (bitAt b (4 * i)) (bitAt b (4 * i + 1)))
    (axisQ := fun b i => gray2Real s.vpeak.toReal (bitAt b (4 * i + 2)) (bitAt b (4 * i + 3)))
    (by decide) (by decide) (by rw [hb.1]; exact qamModCycle s) qamDemCycle hb hlen hfits id id
    fun u r j hv hI hQ => ?_
  show (∃ b0 b1, NearestPair s.vpeak.toReal (if j % 4 < 2 then iHat r s.spb.toNat s.iqCyc.toNat (j / 4)
    else qHat r s.spb.toNat s.iqCyc.toNat (j / 4)) b0 b1 ∧ (if j % 2 = 0 then b0 else b1) = true) ↔ _
  have hbit : ∀ p, p + j % 2 = j → (if j % 2 = 0 then bitAt b p else bitAt b (p + 1)) = bitAt b j :=
    fun p hp => by
      split
      next h => rw [show p = j by omega]
      next h => rw [show p + 1 = j by omega]
  rw [hI, hQ]
  split
  next h => rw [exists_nearestPair_gray2Real_iff hv, hbit (4 * (j / 4)) (by omega)]
  next h => rw [exists_nearestPair_gray2Real_iff hv, hbit (4 * (j / 4) + 2) (by omega)]

theorem padz_two (b : List Bit) : padz b 2 = b ++ List.replicate (b.length % 2) false := by
  rw [padz, padCount, show (2 - b.length % 2) % 2 = b.length % 2 by omega]

theorem padz_four (b : List Bit) :
    padz b 4 = b ++ List.replicate (4 * ((b.length + 3) / 4) - b.length) false := by
  rw [padz, padCount, show (4 - b.length % 4) % 4 = 4 * ((b.length + 3) / 4) - b.length by omega]

/-- Settles O47: the correlator gives back I and Q of each symbol, and these decide for its bits. -/
theorem iqRoundTrip : Obligations.IqRoundTrip := fun _ b hb hlen =>
  ⟨fun hfits => padz_two b ▸ qpsk_givesBack hb hlen hfits,
    fun hfits => padz_four b ▸ qam16_givesBack hb hlen hfits⟩

end Sys2Proof.Machine
end

section
/-! Bit stuffing (R170 to R173): the loops of the two commands are the model's functions, destuffing undoes
stuffing, and the bits of one command handed to another. -/

namespace Sys2Proof.Machine

/-! ## Stuffing (R171) -/

@[simp] theorem stuff_false (run : Nat) (b : List Bit) : stuff run (false :: b) = false :: stuff 0 b := rfl

/-- The fifth 1 of a run is followed by a stuffed 0. -/
theorem stuff_true_fifth {run : Nat} (h : run + 1 = 5) (b : List Bit) :
    stuff run (true :: b) = true :: false :: stuff 0 b := if_pos h

theorem stuff_true_of_ne {run : Nat} (h : run + 1 ≠ 5) (b : List Bit) :
    stuff run (true :: b) = true :: stuff (run + 1) b := if_neg h

theorem stuffLoop_eq (out : List Bit) (run : Nat) (b : List Bit) :
    stuffLoop out run b = out ++ stuff run b := by
  induction b generalizing out run with
  | nil => exact (List.append_nil out).symm
  | cons x b ih =>
    cases x with
    | false => simp [stuffLoop, ih]
    | true =>
      by_cases h : run + 1 = 5
      · simp [stuffLoop, stuff_true_fifth h, h, ih]
      · simp [stuffLoop, stuff_true_of_ne h, h, ih]

/-- One 0 is stuffed for every five bits at most, the bits of the run before among them. -/
theorem length_stuff_le {run : Nat} (hrun : run < 5) (b : List Bit) :
    (stuff run b).length ≤ b.length + (run + b.length) / 5 := by
  induction b generalizing run with
  | nil => exact Nat.zero_le _
  | cons x b ih =>
    cases x with
    | false =>
      have := ih (run := 0) (by decide)
      simp only [stuff_false, List.length_cons]
      omega
    | true =>
      by_cases h : run + 1 = 5
      · have := ih (run := 0) (by decide)
        simp only [stuff_true_fifth h, List.length_cons]
        omega
      · have := ih (run := run + 1) (by omega)
        simp only [stuff_true_of_ne h, List.length_cons]
        omega

theorem length_bstEncode (b : List Bit) : (bstEncode b).length = 16 + (stuff 0 b).length := by
  simp only [bstEncode, stuffFlag, List.length_append, List.length_cons, List.length_nil]
  omega

theorem length_bstEncode_le (b : List Bit) : (bstEncode b).length ≤ 16 + b.length + b.length / 5 := by
  have := length_stuff_le (run := 0) (by decide) b
  rw [length_bstEncode]
  omega

/-! ## Destuffing (R172) -/

@[simp] theorem destuff_nil (run : Nat) : destuff run [] = [] := rfl

@[simp] theorem destuff_false (run : Nat) (m : List Bit) : destuff run (false :: m) = false :: destuff 0 m :=
  rfl

/-- After the fifth 1 of a run the next bit is skipped where it is a 0. -/
theorem destuff_true_fifth {run : Nat} (h : run + 1 = 5) (m : List Bit) :
    destuff run (true :: m) = true :: destuff 0 (if m.head? = some false then m.tail else m) := by
  rw [destuff.eq_def]
  simp only [h, if_true]
  cases m with
  | nil => rfl
  | cons x m => cases x <;> rfl

theorem destuff_true_of_ne {run : Nat} (h : run + 1 ≠ 5) (m : List Bit) :
    destuff run (true :: m) = true :: destuff (run + 1) m := by
  rw [destuff.eq_def]
  exact if_neg h

/-- The loop at index `i` destuffs the bits from there on, given a round for each of them. -/
theorem destuffLoop_eq {m : List Bit} {fuel i : Nat} (hfuel : m.length ≤ i + fuel) (run : Nat)
    (out : List Bit) : destuffLoop m fuel i run out = out ++ destuff run (m.drop i) := by
  induction fuel generalizing i run out with
  | zero => simpa [destuffLoop] using congrArg (destuff run) (List.drop_eq_nil_of_le hfuel).symm
  | succ fuel ih =>
    unfold destuffLoop
    split
    next hi =>
      have hskip : (i + 1 < m.length ∧ bitAt m (i + 1) = false) ↔ (m.drop (i + 1)).head? = some false := by
        rw [List.head?_drop]
        by_cases h : i + 1 < m.length
        · rw [getElem?_eq_bitAt h, Option.some_inj]
          exact and_iff_right h
        · simp [h]
      simp only [List.drop_eq_getElem_cons hi, bitAt_eq_getElem hi, hskip]
      cases m[i] with
      | false => simp [ih (i := i + 1) (by omega)]
      | true =>
        by_cases h : run + 1 = 5
        · rw [if_pos rfl, if_pos h, destuff_true_fifth h]
          split
          · simp [ih (i := i + 2) (by omega)]
          · simp [ih (i := i + 1) (by omega)]
        · simp [h, destuff_true_of_ne h, ih (i := i + 1) (by omega)]
    next hi => simp [List.drop_eq_nil_of_le (not_lt.1 hi)]

theorem length_destuff_le (run : Nat) (m : List Bit) : (destuff run m).length ≤ m.length := by
  induction run, m using destuff.induct with
  | case1 run => exact le_rfl
  | case2 run m ih => simpa using ih
  | case3 run h m ih => simpa [destuff_true_fifth h] using ih.trans (Nat.le_succ _)
  | case4 run h m hm ih =>
    have hkept : m.head? ≠ some false := fun hm0 => by
      obtain ⟨cs, rfl⟩ := List.head?_eq_some_iff.1 hm0
      exact hm cs rfl
    simpa [destuff_true_fifth h, hkept] using ih
  | case5 run m h ih => simpa [destuff_true_of_ne h] using ih

/-- Destuffing undoes stuffing, from the same run. -/
theorem destuff_stuff (run : Nat) (b : List Bit) : destuff run (stuff run b) = b := by
  induction b generalizing run with
  | nil => rfl
  | cons x b ih =>
    cases x with
    | false => simp [ih]
    | true =>
      by_cases h : run + 1 = 5
      · simp [stuff_true_fifth h, destuff_true_fifth h, ih]
      · simp [stuff_true_of_ne h, destuff_true_of_ne h, ih]

theorem length_bstDecode_le (f : List Bit) : (bstDecode f).length ≤ f.length := by
  unfold bstDecode
  split
  · exact Nat.zero_le _
  · calc (destuff 0 ((f.drop 8).take (f.length - 16))).length
        ≤ ((f.drop 8).take (f.length - 16)).length := length_destuff_le 0 _
      _ ≤ f.length := by simp

/-- The flags stripped by position are the ones BST_ENC puts around the stuffed payload. -/
theorem bstDecode_bstEncode (b : List Bit) : bstDecode (bstEncode b) = b := by
  have hlen := length_bstEncode b
  have hinner : ((bstEncode b).drop 8).take ((bstEncode b).length - 16) = stuff 0 b := by
    rw [hlen, Nat.add_sub_cancel_left]
    exact List.take_left
  rw [bstDecode, if_neg (by omega), hinner, destuff_stuff]

/-! ## Cycles from bits to bits -/

/-- The whole cycle of a command from bits to bits, its output length checked once the bits are known. -/
theorem bitCycle_of {i : Instr} {s : State} {least : Nat → Nat} {f : List Bit → Produced Bit}
    (he : exec i s = runBitsToBits s least f) (hpol : ∀ b, (f b).pol = none) :
    BitCycle i s (fun b => (f b).out) fun b => (f b).err := by
  refine ⟨fun h => ?_, fun b hb hover => ?_, fun b hb hfits => ?_⟩
  · exact he.trans (withInBits_inRange h)
  · rw [he, runBitsToBits, withInBits_loaded hb, State.finishBits, if_pos hover]
    rfl
  · refine ⟨_, he.trans (withInBits_loaded hb), ?_⟩
    rw [State.finishBits, if_neg (not_lt.2 hfits)]
    exact bitsOut_accept s (f b) (hpol b)

/-- A cycle whose output is never longer than its input has no OUT_OVERFLOW. -/
theorem BitCycle.fitting {i : Instr} {s : State} {out : List Bit → List Bit} {err : List Bit → Bool}
    (h : BitCycle i s out err) (hlen : ∀ b, (out b).length ≤ b.length) : FittingBitCycle i s out err := by
  obtain ⟨hrange, -, hrun⟩ := h
  exact ⟨hrange, fun b hb => hrun b hb ((hlen b).trans hb.2.1)⟩

/-- A command whose bits are loaded and which ends with CODE = OK has passed the output check. -/
theorem BitCycle.of_code_ok {i : Instr} {s t : State} {out : List Bit → List Bit} {err : List Bit → Bool}
    {b : List Bit} (h : BitCycle i s out err) (hb : BitsLoaded s b) (ht : exec i s = .next t)
    (hok : t.code = .ok) :
    (out b).length ≤ s.params.maxBits ∧
      BitsOut s t (out b).length (err b) fun j => bitAt (out b) j = true := by
  obtain ⟨-, hover, hrun⟩ := h
  have hfits : (out b).length ≤ s.params.maxBits := by
    by_contra hn
    cases ht.symm.trans (hover b hb (not_le.1 hn))
    cases hok
  obtain ⟨t', ht', hout⟩ := hrun b hb hfits
  cases ht.symm.trans ht'
  exact ⟨hfits, hout⟩

/-! ## One command's bits as another's input (R80) -/

/-- A copy of output bits, some of them inverted, loads the bits `c` that differ from the output in those. -/
theorem BitsCopiedFlipping.bitsLoaded {s t u : State} {flip : Nat → Bool} {err : Bool} {one : Nat → Prop}
    {c : List Bit} (h : BitsCopiedFlipping flip t u) (ht : BitsOut s t c.length err one)
    (hlen : c.length < 2 ^ 32) (hfits : c.length ≤ s.params.maxBits)
    (hc : ∀ j, j < c.length → (one j ↔ Bool.xor (bitAt c j) (flip j) = true)) : BitsLoaded u c := by
  obtain ⟨hin, hparams, hcopy⟩ := h
  obtain ⟨hframe, houtlen, hbits, -⟩ := ht
  have hmax : u.params = s.params := by rw [hparams, hframe]
  have houtlen := houtlen hlen
  refine ⟨by rw [hin, houtlen], by rwa [hmax], fun j hj => ?_⟩
  obtain ⟨x, hx, hxu⟩ := hcopy j (by rwa [houtlen])
  obtain ⟨y, hy, hyone⟩ := hbits j hj
  cases hx.symm.trans hy
  rw [hxu, Bool.eq_iff_iff.2 (hyone.trans (hc j hj)), Bool.xor_assoc, Bool.xor_self, Bool.xor_false]

theorem BitsCopied.bitsLoaded {s t u : State} {err : Bool} {c : List Bit} (h : BitsCopied t u)
    (ht : BitsOut s t c.length err fun j => bitAt c j = true) (hlen : c.length < 2 ^ 32)
    (hfits : c.length ≤ s.params.maxBits) : BitsLoaded u c :=
  BitsCopiedFlipping.bitsLoaded h ht hlen hfits fun j _ => by rw [Bool.xor_false]

/-- The elements of an accepted bit output, given as a list. -/
theorem BitsOut.read_eq {s t : State} {err : Bool} {c : List Bit}
    (h : BitsOut s t c.length err fun j => bitAt c j = true) {j : Nat} (hj : j < c.length) :
    t.outBits.read j = some (bitAt c j) := by
  obtain ⟨-, -, hbits, -⟩ := h
  obtain ⟨x, hx, hone⟩ := hbits j hj
  rw [hx, Bool.eq_iff_iff.2 hone]

/-- The round trip of an encoder and a decoder from bits to bits, where the decoder's function undoes the
encoder's on the input without an error. -/
theorem givesBack_of_bitCycles {enc dec : Instr} {s : State} {out back : List Bit → List Bit}
    {err bad : List Bit → Bool} {b : List Bit} (henc : BitCycle enc s out err)
    (hdec : ∀ u, FittingBitCycle dec u back bad) (hb : BitsLoaded s b) (hlen : (out b).length < 2 ^ 32)
    (hback : back (out b) = b) (hbad : bad (out b) = false) : GivesBack enc dec BitsCopied s b := by
  intro t u ht hok hcopy
  obtain ⟨hfits, hout⟩ := henc.of_code_ok hb ht hok
  obtain ⟨-, hrun⟩ := hdec u
  obtain ⟨v, hv, hvout⟩ := hrun (out b) (hcopy.bitsLoaded hout hlen hfits)
  rw [hback, hbad] at hvout
  have ⟨hframe, hvlen, _, _⟩ := hvout
  have hblen : b.length < 2 ^ 32 := hb.1 ▸ s.inBlen.isLt
  exact ⟨v, hv, by rw [hframe], by rw [hframe], hvlen hblen,
    fun _ hj => hvout.read_eq hj⟩

/-! ## The commands -/

theorem bstEnc_bitCycle (s : State) : BitCycle .bstEnc s bstEncode fun _ => false :=
  bitCycle_of (f := fun b => plain (bstEncode b)) rfl fun _ => rfl

theorem bstDec_bitCycle (s : State) : BitCycle .bstDec s bstDecode fun _ => false :=
  bitCycle_of (least := fun _ => 0) (f := fun m => plain (bstDecode m)) rfl fun _ => rfl

theorem bstDec_fittingBitCycle (s : State) : FittingBitCycle .bstDec s bstDecode fun _ => false :=
  (bstDec_bitCycle s).fitting length_bstDecode_le

/-- Settles O48: the loop of R171 from the flag on puts the stuffed payload behind it. -/
theorem bstEncCycle : Obligations.BstEncCycle := by
  intro s
  simp only [stuffLoop_eq]
  exact bstEnc_bitCycle s

/-- Settles O49: the loop of R172 over the bits between the stripped ends destuffs them. -/
theorem bstDecCycle : Obligations.BstDecCycle := by
  intro s
  have hloop : ∀ f : List Bit, destuffLoop ((f.drop 8).take (f.length - 16)) (f.length - 16) 0 0 [] =
      destuff 0 ((f.drop 8).take (f.length - 16)) := fun f => by
    rw [destuffLoop_eq (by simp), List.nil_append, List.drop_zero]
  simp only [hloop]
  exact bstDec_fittingBitCycle s

/-- Settles O50: the frame fits the length register, and its function is undone by BST_DEC's. -/
theorem bitStuffingRoundTrip : Obligations.BitStuffingRoundTrip := fun s p hp hlen =>
  givesBack_of_bitCycles (bstEnc_bitCycle s) bstDec_fittingBitCycle hp
    ((length_bstEncode_le p).trans_lt hlen) (bstDecode_bstEncode p) rfl

end Sys2Proof.Machine
end

section
/-! CRC-32 (R190 to R196): the register function over exclusive-or, the trailer as a binary number, and the
frame of CRC_GEN as CRC_CHK sees it, whole or with one bit changed. -/

namespace Sys2Proof.Machine

/-! ## Sequences and their bits -/

theorem bitAt_append_left {a : List Bit} (b : List Bit) {i : Nat} (hi : i < a.length) :
    bitAt (a ++ b) i = bitAt a i := by
  rw [bitAt, bitAt, List.getD_append _ _ _ _ hi]

theorem bitAt_append_right (a b : List Bit) (j : Nat) : bitAt (a ++ b) (a.length + j) = bitAt b j := by
  rw [bitAt, bitAt, List.getD_append_right _ _ _ _ (Nat.le_add_right _ _), Nat.add_sub_cancel_left]

theorem bitAt_set_self {f : List Bit} {i : Nat} (hi : i < f.length) (x : Bit) : bitAt (f.set i x) i = x := by
  rw [bitAt_eq_getElem (by rwa [List.length_set]), List.getElem_set_self]

/-- A sequence with one bit inverted, bit by bit. -/
theorem bitAt_set_not (f : List Bit) (i : Nat) {j : Nat} (hj : j < f.length) :
    bitAt (f.set i (!bitAt f i)) j = Bool.xor (bitAt f j) (decide (j = i)) := by
  rw [bitAt_eq_getElem (by rwa [List.length_set]), List.getElem_set, bitAt_eq_getElem hj]
  by_cases h : i = j
  · subst h
    simp [bitAt_eq_getElem hj]
  · simp [h, Ne.symm h]

/-- The copy of output bits with bit `i` inverted loads the output with that bit changed (R80, R196). -/
theorem BitsCopiedFlipping.bitsLoaded_set_not {s t u : State} {err : Bool} {c : List Bit} {i : Nat}
    (h : BitsCopiedFlipping (fun j => decide (j = i)) t u)
    (ht : BitsOut s t c.length err fun j => bitAt c j = true) (hlen : c.length < 2 ^ 32)
    (hfits : c.length ≤ s.params.maxBits) : BitsLoaded u (c.set i (!bitAt c i)) := by
  have hset : (c.set i (!bitAt c i)).length = c.length := List.length_set
  refine h.bitsLoaded (by rwa [hset]) (by rwa [hset]) (by rwa [hset]) fun j hj => ?_
  rw [bitAt_set_not c i (hset ▸ hj), Bool.xor_assoc, Bool.xor_self, Bool.xor_false]

/-! ## The register (R190 to R192) -/

/-- One register step without a choice between shifts: the polynomial is added where the top bit and the
input bit differ (R191). -/
theorem crcStep_eq_xor (r : Word) (x : Bit) :
    crcStep r x = (r <<< 1) ^^^ (if r.msb != x then crcPoly else 0#32) := by
  have hmsb : r.msb = r.getLsbD 31 := BitVec.msb_eq_getLsbD_last r
  unfold crcStep
  rw [hmsb]
  split
  · rfl
  · exact (BitVec.xor_zero).symm

theorem crcRun_eq_foldl (r : Word) (b : List Bit) : crcRun r b = b.foldl crcStep r := by
  induction b generalizing r with
  | nil => rfl
  | cons x b ih => exact ih (crcStep r x)

/-- The model's CRC is the CRC of R192. -/
theorem crcOf_eq_crc32 (b : List Bit) : crcOf b = crc32 b := by
  have hreg : crcRegister b = crcRun 0xFFFFFFFF#32 b := by
    rw [crcRegister, crcRun_eq_foldl, funext₂ crcStep_eq_xor, crcPoly]
  rw [crcOf, crc32, hreg]

/-- The last bit of the register tells whether the polynomial was added, because its own last bit is 1. -/
theorem getLsbD_zero_crcStep (r : Word) (x : Bit) : (crcStep r x).getLsbD 0 = (r.msb != x) := by
  rw [crcStep_eq_xor, BitVec.getLsbD_xor]
  cases r.msb != x <;> simp [crcPoly]

/-- A step forgets nothing of the register: the last bit tells the top bit, and the rest is shifted. -/
theorem crcStep_injective (x : Bit) : Function.Injective fun r => crcStep r x := by
  intro r q (h : crcStep r x = crcStep q x)
  have hmsb : r.msb = q.msb := by
    have hlast := congrArg (BitVec.getLsbD · 0) h
    simpa only [getLsbD_zero_crcStep, Bool.bne_left_inj] using hlast
  have hshift : r <<< 1 = q <<< 1 := by
    rwa [crcStep_eq_xor, crcStep_eq_xor, hmsb, BitVec.xor_left_inj] at h
  refine BitVec.eq_of_getLsbD_eq fun k hk => ?_
  by_cases htop : k = 31
  · subst htop
    simpa only [BitVec.msb_eq_getLsbD_last] using hmsb
  · have hnext := congrArg (BitVec.getLsbD · (k + 1)) hshift
    simpa [show k + 1 < 32 by omega, ← BitVec.getLsbD_eq_getElem] using hnext

theorem crcRun_injective (b : List Bit) : Function.Injective fun r => crcRun r b := by
  induction b with
  | nil => exact fun _ _ h => h
  | cons x b ih => exact fun _ _ h => crcStep_injective x (ih h)

/-- Two input bits leave two registers. -/
theorem crcStep_ne_of_ne (r : Word) {x y : Bit} (h : x ≠ y) : crcStep r x ≠ crcStep r y := fun hstep => by
  have hlast := congrArg (BitVec.getLsbD · 0) hstep
  exact h (by simpa only [getLsbD_zero_crcStep, Bool.bne_right_inj] using hlast)

/-- The register after a sequence with one bit changed: it differs from that bit on. -/
theorem crcRun_set_ne (r : Word) {b : List Bit} {i : Nat} (hi : i < b.length) {x : Bit}
    (hx : x ≠ bitAt b i) : crcRun r (b.set i x) ≠ crcRun r b := by
  induction b generalizing r i with
  | nil => exact absurd hi (Nat.not_lt_zero i)
  | cons y b ih =>
    cases i with
    | zero => exact fun h => crcStep_ne_of_ne r hx (crcRun_injective b h)
    | succ i => exact ih (crcStep r y) (Nat.lt_of_succ_lt_succ hi) hx

theorem crc32_set_ne {b : List Bit} {i : Nat} (hi : i < b.length) {x : Bit} (hx : x ≠ bitAt b i) :
    crc32 (b.set i x) ≠ crc32 b := fun h =>
  crcRun_set_ne _ hi hx ((BitVec.xor_left_inj _).1 h)

/-! ## The trailer and its word (R193) -/

/-- A bit sequence behind the number `acc`, as a binary number. -/
theorem bitsValue_eq_sum (acc : Nat) (t : List Bit) :
    bitsValue acc t = acc * 2 ^ t.length +
      ∑ j ∈ Finset.range t.length, if bitAt t j then 2 ^ (t.length - 1 - j) else 0 := by
  induction t generalizing acc with
  | nil => simp [bitsValue]
  | cons x t ih =>
    have hrest : ∀ j, t.length + 1 - 1 - (j + 1) = t.length - 1 - j := fun j => by omega
    have hfirst : (if bitAt (x :: t) 0 then 2 ^ (t.length + 1 - 1 - 0) else 0) = x.toNat * 2 ^ t.length := by
      cases x <;> simp [bitAt]
    have htail : ∀ j, bitAt (x :: t) (j + 1) = bitAt t j := fun _ => rfl
    rw [bitsValue, ih, List.length_cons, Finset.sum_range_succ', hfirst]
    simp only [hrest, htail]
    ring

/-- Bit `k` of that number is the sequence's bit `k` from its end, and a bit of `acc` beyond it. -/
theorem testBit_bitsValue (acc : Nat) (t : List Bit) (k : Nat) :
    (bitsValue acc t).testBit k =
      if k < t.length then bitAt t (t.length - 1 - k) else acc.testBit (k - t.length) := by
  induction t generalizing acc with
  | nil => rfl
  | cons x t ih =>
    rw [bitsValue, ih, ← Nat.bit_val, List.length_cons]
    obtain hk | rfl | hk := lt_trichotomy k t.length
    · rw [if_pos hk, if_pos (by omega), show t.length + 1 - 1 - k = t.length - 1 - k + 1 by omega]
      rfl
    · simp [bitAt]
    · obtain ⟨m, rfl⟩ := Nat.exists_eq_add_of_lt hk
      rw [if_neg (by omega), if_neg (by omega), show t.length + m + 1 - t.length = m + 1 by omega,
        Nat.testBit_bit_succ, show t.length + m + 1 - (t.length + 1) = m by omega]

theorem getLsbD_trailerWord {t : List Bit} (ht : t.length = 32) {k : Nat} (hk : k < 32) :
    (trailerWord t).getLsbD k = bitAt t (31 - k) := by
  rw [trailerWord, BitVec.getLsbD_ofNat, testBit_bitsValue, ht, if_pos hk]
  simp [hk]

theorem bitsValue_lt (t : List Bit) : bitsValue 0 t < 2 ^ t.length :=
  Nat.lt_pow_two_of_testBit _ fun k hk => by
    rw [testBit_bitsValue, if_neg (not_lt.2 hk), Nat.zero_testBit]

theorem toNat_trailerWord {t : List Bit} (ht : t.length = 32) : (trailerWord t).toNat = wordAt t 0 := by
  have hlt := bitsValue_lt t
  rw [ht] at hlt
  rw [trailerWord, BitVec.toNat_ofNat, Nat.mod_eq_of_lt hlt, bitsValue_eq_sum, ht]
  simp [wordAt]

theorem wordAt_drop (f : List Bit) (a : Nat) : wordAt (f.drop a) 0 = wordAt f a := by
  have hbit : ∀ j, bitAt (f.drop a) (0 + j) = bitAt f (a + j) := fun j => by
    simp [bitAt, List.getD_eq_getElem?_getD]
  simp only [wordAt, hbit]

theorem getElem?_crcTrailer (c : Word) {j : Nat} (hj : j < 32) :
    (crcTrailer c)[j]? = some (c.getLsbD (31 - j)) := by
  simp [crcTrailer, hj]

theorem bitAt_crcTrailer (c : Word) {j : Nat} (hj : j < 32) :
    bitAt (crcTrailer c) j = c.getLsbD (31 - j) := by
  rw [bitAt, List.getD_eq_getElem?_getD, getElem?_crcTrailer c hj, Option.getD_some]

theorem trailerWord_crcTrailer (c : Word) : trailerWord (crcTrailer c) = c :=
  BitVec.eq_of_getLsbD_eq fun k hk => by
    rw [getLsbD_trailerWord (length_crcTrailer c) hk, bitAt_crcTrailer c (by omega),
      show 31 - (31 - k) = k by omega]

theorem crcTrailer_trailerWord {t : List Bit} (ht : t.length = 32) : crcTrailer (trailerWord t) = t := by
  refine List.ext_getElem (by rw [length_crcTrailer, ht]) fun j hj hjt => ?_
  have hj : j < 32 := ht ▸ hjt
  rw [← bitAt_eq_getElem, ← bitAt_eq_getElem, bitAt_crcTrailer _ hj, getLsbD_trailerWord ht (by omega),
    show 31 - (31 - j) = j by omega]

/-- A changed bit of a trailer changes its word. -/
theorem trailerWord_set_ne {t : List Bit} (ht : t.length = 32) {j : Nat} (hj : j < t.length) {x : Bit}
    (hx : x ≠ bitAt t j) : trailerWord (t.set j x) ≠ trailerWord t := fun h => hx <| by
  have htset : (t.set j x).length = 32 := by rw [List.length_set, ht]
  rw [← bitAt_set_self hj x, ← crcTrailer_trailerWord htset, h, crcTrailer_trailerWord ht]

/-- Settles O54: a trailer and its word have the same bits, in opposite orders. -/
theorem trailerIsInverse : Obligations.TrailerIsInverse :=
  ⟨fun c => ⟨trailerWord_crcTrailer c, fun _ hj => getElem?_crcTrailer c hj⟩,
    fun _ ht => ⟨toNat_trailerWord ht, crcTrailer_trailerWord ht⟩⟩

/-! ## CRC_GEN (R194) -/

/-- The frame that CRC_GEN makes of a payload. -/
def crcFrame (p : List Bit) : List Bit := p ++ crcTrailer (crc32 p)

@[simp] theorem length_crcFrame (p : List Bit) : (crcFrame p).length = p.length + 32 := by simp [crcFrame]

/-- Settles O52: the output is the frame, always 32 bits longer than the payload. -/
theorem crcGenCycle : Obligations.CrcGenCycle := fun _ =>
  fixedBitCycle_of (least := fun l => l + 32) (f := crcFrame) rfl rfl
    (fun b hb => by rw [length_crcFrame, hb]) fun b _ => by rw [crcFrame, crcTrailer, crcOf_eq_crc32]

theorem crcGen_bitCycle (s : State) : BitCycle .crcGen s crcFrame fun _ => false :=
  bitCycle_of (least := fun l => l + 32) (f := fun b => plain (crcFrame b)) rfl fun _ => rfl

/-! ## CRC_CHK (R195) -/

theorem crcCheck_of_short {f : List Bit} (h : f.length < 32) : crcCheck f = ⟨[], true, none⟩ := if_pos h

theorem crcCheck_of_long {f : List Bit} (h : ¬ f.length < 32) :
    crcCheck f = ⟨f.take (f.length - 32),
      crc32 (f.take (f.length - 32)) != trailerWord (f.drop (f.length - 32)), none⟩ := if_neg h

/-- A payload and the 32 bits behind it are what CRC_CHK takes a frame apart into. -/
theorem crcCheck_append (p : List Bit) {t : List Bit} (ht : t.length = 32) :
    crcCheck (p ++ t) = ⟨p, crc32 p != trailerWord t, none⟩ := by
  have hlen : (p ++ t).length - 32 = p.length := by rw [List.length_append, ht, Nat.add_sub_cancel]
  rw [crcCheck_of_long (by rw [List.length_append, ht]; omega), hlen, List.take_left, List.drop_left]

theorem crcCheck_crcFrame (p : List Bit) : crcCheck (crcFrame p) = ⟨p, false, none⟩ := by
  rw [crcFrame, crcCheck_append p (length_crcTrailer _), trailerWord_crcTrailer, bne_self_eq_false]

theorem crcCheck_out (f : List Bit) :
    (crcCheck f).out = if f.length < 32 then [] else f.take (f.length - 32) := by
  split
  next h => rw [crcCheck_of_short h]
  next h => rw [crcCheck_of_long h]

theorem crcCheck_err (f : List Bit) :
    (crcCheck f).err = decide (f.length < 32 ∨
      (crcOf (f.take (f.length - 32))).toNat ≠ wordAt f (f.length - 32)) := by
  by_cases h : f.length < 32
  · simp [crcCheck_of_short h, h]
  · have ht : (f.drop (f.length - 32)).length = 32 := by rw [List.length_drop]; omega
    rw [crcCheck_of_long h, crcOf_eq_crc32, ← wordAt_drop, ← toNat_trailerWord ht,
      Bool.eq_iff_iff]
    simp [h, BitVec.toNat_eq]

theorem crcCheck_pol (f : List Bit) : (crcCheck f).pol = none := by
  by_cases h : f.length < 32
  · rw [crcCheck_of_short h]
  · rw [crcCheck_of_long h]

theorem crcChk_fittingBitCycle (s : State) :
    FittingBitCycle .crcChk s (fun f => (crcCheck f).out) fun f => (crcCheck f).err :=
  (bitCycle_of (least := fun l => l - 32) rfl crcCheck_pol).fitting fun f =>
    (length_crcCheck f).trans_le (Nat.sub_le _ _)

/-- Settles O53: the flag compares two words, and so their numbers. -/
theorem crcChkCycle : Obligations.CrcChkCycle := fun s => by
  simpa only [crcCheck_out, crcCheck_err] using crcChk_fittingBitCycle s

/-! ## Error detection (R196) -/

theorem crcCheck_err_set_payload {p : List Bit} {i : Nat} (hi : i < p.length) {x : Bit}
    (hx : x ≠ bitAt p i) : (crcCheck ((crcFrame p).set i x)).err = true := by
  rw [crcFrame, List.set_append_left _ _ hi, crcCheck_append _ (length_crcTrailer _), trailerWord_crcTrailer]
  exact bne_iff_ne.2 (crc32_set_ne hi hx)

theorem crcCheck_err_set_trailer (p : List Bit) {j : Nat} (hj : j < (crcTrailer (crc32 p)).length) {x : Bit}
    (hx : x ≠ bitAt (crcTrailer (crc32 p)) j) :
    (crcCheck ((crcFrame p).set (p.length + j) x)).err = true := by
  have hword := trailerWord_set_ne (length_crcTrailer _) hj hx
  rw [trailerWord_crcTrailer] at hword
  rw [crcFrame, List.set_append_right _ _ (Nat.le_add_right _ _), Nat.add_sub_cancel_left,
    crcCheck_append p (by rw [List.length_set, length_crcTrailer])]
  exact bne_iff_ne.2 hword.symm

/-- A changed bit of a frame is seen: in the payload it changes the CRC, in the trailer the word. -/
theorem crcCheck_err_set {p : List Bit} {i : Nat} (hi : i < p.length + 32) {x : Bit}
    (hx : x ≠ bitAt (crcFrame p) i) : (crcCheck ((crcFrame p).set i x)).err = true := by
  by_cases hp : i < p.length
  · rw [crcFrame, bitAt_append_left _ hp] at hx
    exact crcCheck_err_set_payload hp hx
  · obtain ⟨j, rfl⟩ := Nat.exists_eq_add_of_le (not_lt.1 hp)
    rw [crcFrame, bitAt_append_right] at hx
    exact crcCheck_err_set_trailer p (by rw [length_crcTrailer]; omega) hx

theorem crcGen_crcChk_givesBack {s : State} {p : List Bit} (hp : BitsLoaded s p)
    (hlen : p.length + 32 < 2 ^ 32) : GivesBack .crcGen .crcChk BitsCopied s p :=
  givesBack_of_bitCycles (crcGen_bitCycle s) crcChk_fittingBitCycle hp (by rwa [length_crcFrame])
    (by rw [crcCheck_crcFrame]) (by rw [crcCheck_crcFrame])

/-- CRC_CHK reports the frame of an accepted CRC_GEN with bit `i` inverted. -/
theorem crcChk_err_of_flip {s t u : State} {p : List Bit} {i : Nat} (hp : BitsLoaded s p)
    (hlen : p.length + 32 < 2 ^ 32) (ht : exec .crcGen s = .next t) (hok : t.code = .ok)
    (hi : i < p.length + 32) (hcopy : BitsCopiedFlipping (fun j => decide (j = i)) t u) :
    ∃ v, exec .crcChk u = .next v ∧ v.code = .ok ∧ v.err = true := by
  obtain ⟨hfits, hout⟩ := (crcGen_bitCycle s).of_code_ok hp ht hok
  have hloaded := hcopy.bitsLoaded_set_not hout (by rwa [length_crcFrame]) hfits
  obtain ⟨-, hrun⟩ := crcChk_fittingBitCycle u
  obtain ⟨v, hv, hframe, -⟩ := hrun _ hloaded
  exact ⟨v, hv, by rw [hframe], by rw [hframe]; exact crcCheck_err_set hi (Bool.not_ne_self _)⟩

/-- Settles O55: the frame itself is given back, and one inverted bit of it is reported. -/
theorem crcDetectsSingleBitErrors : Obligations.CrcDetectsSingleBitErrors := fun _ _ hp hlen =>
  ⟨crcGen_crcChk_givesBack hp hlen, fun _ _ _ ht hok hi => crcChk_err_of_flip hp hlen ht hok hi⟩

end Sys2Proof.Machine
end

section
/-! Hamming(7,4) (R210 to R217): both commands block by block, the syndrome as the exclusive-or of the
inverted positions, and the output of HAM_ENC as HAM_DEC sees it with bits inverted. -/

namespace Sys2Proof.Machine

/-! ## Sequences given bit by bit -/

theorem eq_of_bitAt_eq {a c : List Bit} (hlen : a.length = c.length)
    (h : ∀ j, j < a.length → bitAt a j = bitAt c j) : a = c :=
  List.ext_getElem hlen fun j ha hc => by rw [← bitAt_eq_getElem ha, ← bitAt_eq_getElem hc, h j ha]

theorem bitAt_map_range (f : Nat → Bit) {n j : Nat} (hj : j < n) : bitAt ((List.range n).map f) j = f j := by
  rw [bitAt_eq_getElem (by simpa using hj), List.getElem_map, List.getElem_range]

theorem eq_map_range_of_bitAt {a : List Bit} {n : Nat} {f : Nat → Bit} (hlen : a.length = n)
    (h : ∀ j, j < n → bitAt a j = f j) : a = (List.range n).map f :=
  eq_of_bitAt_eq (by simpa using hlen) fun j hj => by rw [h j (hlen ▸ hj), bitAt_map_range f (hlen ▸ hj)]

/-- Bit `k` of interval `i` is bit `i·n + k` of the whole. -/
theorem bitAt_seg (w : List Bit) (i : Nat) {n k : Nat} (hk : k < n) : bitAt (seg w i n) k = bitAt w (i * n + k) := by
  rw [bitAt, bitAt, seg, List.getD_eq_getElem?_getD, List.getD_eq_getElem?_getD, List.getElem?_take, if_pos hk,
    List.getElem?_drop]

/-- Bit `j` of equal blocks put one after the other is bit `j mod n` of block `j div n`. -/
theorem bitAt_flatMap_range {f : Nat → List Bit} {n m j : Nat} (hn : 0 < n) (hf : ∀ i, (f i).length = n)
    (hj : j < n * m) : bitAt ((List.range m).flatMap f) j = bitAt (f (j / n)) (j % n) := by
  rw [bitAt, List.getD_eq_getElem?_getD, getElem?_flatMap_const f n hn hf,
    List.getElem?_range (Nat.div_lt_of_lt_mul hj), Option.bind_some, ← List.getD_eq_getElem?_getD, bitAt]

/-- The bits of a sequence, inverted where `flip` is true. -/
def flipped (flip : Nat → Bool) (c : List Bit) : List Bit :=
  (List.range c.length).map fun j => Bool.xor (bitAt c j) (flip j)

@[simp] theorem length_flipped (flip : Nat → Bool) (c : List Bit) : (flipped flip c).length = c.length := by
  simp [flipped]

theorem bitAt_flipped (flip : Nat → Bool) {c : List Bit} {j : Nat} (hj : j < c.length) :
    bitAt (flipped flip c) j = Bool.xor (bitAt c j) (flip j) := bitAt_map_range _ hj

/-- The copy of output bits with some inverted loads the output with those bits inverted (R80). -/
theorem BitsCopiedFlipping.bitsLoaded_flipped {s t u : State} {flip : Nat → Bool} {err : Bool} {c : List Bit}
    (h : BitsCopiedFlipping flip t u) (ht : BitsOut s t c.length err fun j => bitAt c j = true)
    (hlen : c.length < 2 ^ 32) (hfits : c.length ≤ s.params.maxBits) : BitsLoaded u (flipped flip c) := by
  refine h.bitsLoaded (by rwa [length_flipped]) (by rwa [length_flipped]) (by rwa [length_flipped]) fun j hj => ?_
  rw [bitAt_flipped flip (length_flipped flip c ▸ hj), Bool.xor_assoc, Bool.xor_self, Bool.xor_false]

/-! ## HAM_ENC (R210 to R212) -/

/-- The block of the group `i` of four bits; bits beyond the input are padding. -/
def hamEncBlockAt (b : List Bit) (i : Nat) : List Bit :=
  hamEncBlock (bitAt b (4 * i)) (bitAt b (4 * i + 1)) (bitAt b (4 * i + 2)) (bitAt b (4 * i + 3))

@[simp] theorem length_hamEncBlockAt (b : List Bit) (i : Nat) : (hamEncBlockAt b i).length = 7 := rfl

theorem hamEncode_eq_flatMap (b : List Bit) :
    hamEncode b = (List.range ((b.length + 3) / 4)).flatMap (hamEncBlockAt b) := by
  simp only [hamEncode, bitAt_padz, (length_padz_div b (show 0 < 4 by decide)).1]
  rfl

theorem bitAt_hamEncode (b : List Bit) {j : Nat} (hj : j < 7 * ((b.length + 3) / 4)) :
    bitAt (hamEncode b) j = bitAt (hamEncBlockAt b (j / 7)) (j % 7) := by
  rw [hamEncode_eq_flatMap, bitAt_flatMap_range (by decide) (length_hamEncBlockAt b) hj]

theorem bitAt_hamEncBlock (d1 d2 d3 d4 : Bit) {k : Nat} (hk : k < 7) :
    bitAt (hamEncBlock d1 d2 d3 d4) k = blockBitOf d1 d2 d3 d4 k := by
  interval_cases k <;> rfl

theorem hamEncode_eq_map (b : List Bit) :
    hamEncode b = (List.range (7 * ((b.length + 3) / 4))).map (hamEncBit b) :=
  eq_map_range_of_bitAt (length_hamEncode b) fun j hj =>
    (bitAt_hamEncode b hj).trans (bitAt_hamEncBlock _ _ _ _ (Nat.mod_lt j (by decide)))

/-- Settles O56: the blocks of the padded groups, one after the other, bit by bit. -/
theorem hamEncCycle : Obligations.HamEncCycle := fun _ =>
  fixedBitCycle_of (least := fun l => 7 * ((l + 3) / 4)) (f := hamEncode) rfl rfl
    (fun b hb => by rw [length_hamEncode, hb]) fun b _ => hamEncode_eq_map b

/-! ## Inverted positions and the syndrome (R213) -/

@[simp] theorem length_flipPos (r : List Bit) (q : Nat) : (flipPos r q).length = r.length := by
  unfold flipPos
  split <;> simp

theorem bitAt_flipPos (r : List Bit) (q : Nat) {k : Nat} (hk : k < r.length) :
    bitAt (flipPos r q) k = Bool.xor (bitAt r k) (decide (k + 1 = q)) := by
  cases q with
  | zero => simp [flipPos]
  | succ q => simpa [flipPos, blockBit] using bitAt_set_not r q hk

theorem blockBit_flipPos {r : List Bit} (hr : r.length = 7) (q : Nat) {p : Nat} (h1 : 1 ≤ p) (h7 : p ≤ 7) :
    blockBit (flipPos r q) p = Bool.xor (blockBit r p) (decide (p = q)) := by
  rw [blockBit, bitAt_flipPos r q (by omega), Nat.sub_add_cancel h1, blockBit]

theorem flipPos_flipPos_self (r : List Bit) (q : Nat) : flipPos (flipPos r q) q = r :=
  eq_of_bitAt_eq (by simp) fun k hk => by
    rw [length_flipPos, length_flipPos] at hk
    rw [bitAt_flipPos _ q (by rwa [length_flipPos]), bitAt_flipPos r q hk, Bool.xor_assoc, Bool.xor_self,
      Bool.xor_false]

/-- Inverting a position changes the parities that cover it. -/
theorem parity4_flipPos {r : List Bit} (hr : r.length = 7) (q : Nat) {a b c d : Nat} (ha : 1 ≤ a ∧ a ≤ 7)
    (hb : 1 ≤ b ∧ b ≤ 7) (hc : 1 ≤ c ∧ c ≤ 7) (hd : 1 ≤ d ∧ d ≤ 7) :
    parity4 (flipPos r q) a b c d = Bool.xor (parity4 r a b c d)
      (Bool.xor (Bool.xor (decide (a = q)) (decide (b = q))) (Bool.xor (decide (c = q)) (decide (d = q)))) := by
  simp (disch := omega) only [parity4, blockBit_flipPos hr q, Bool.xor_assoc, Bool.xor_left_comm]

/-- The parities cover the positions by their binary digits, so that an inverted position changes the
syndrome by its own number. -/
theorem hamSyndrome_flipPos {r : List Bit} (hr : r.length = 7) {q : Nat} (hq : q ≤ 7) :
    hamSyndrome (flipPos r q) = hamSyndrome r ^^^ q := by
  simp (disch := decide) only [hamSyndrome, parity4_flipPos hr q]
  generalize parity4 r 1 3 5 7 = s1, parity4 r 2 3 6 7 = s2, parity4 r 4 5 6 7 = s3
  interval_cases q <;> revert s1 s2 s3 <;> decide

theorem hamSyndrome_hamEncBlock (d1 d2 d3 d4 : Bit) : hamSyndrome (hamEncBlock d1 d2 d3 d4) = 0 := by
  revert d1 d2 d3 d4
  decide

/-! ## HAM_DEC (R214, R215) -/

/-- The position of data bit `k` of a block (R210). -/
def dataPosition (k : Nat) : Nat := [3, 5, 6, 7].getD k 0

theorem dataPosition_bounds {k : Nat} (hk : k < 4) : 1 ≤ dataPosition k ∧ dataPosition k ≤ 7 := by
  interval_cases k <;> decide

theorem bitAt_hamDecBlock {r : List Bit} (hr : r.length = 7) {k : Nat} (hk : k < 4) :
    bitAt (hamDecBlock r) k =
      Bool.xor (blockBit r (dataPosition k)) (decide (hamSyndrome r = dataPosition k)) := by
  have hcorrected : bitAt (hamDecBlock r) k = blockBit (flipPos r (hamSyndrome r)) (dataPosition k) := by
    interval_cases k <;> rfl
  obtain ⟨h1, h7⟩ := dataPosition_bounds hk
  rw [hcorrected, blockBit_flipPos hr _ h1 h7]
  simp only [eq_comm (a := hamSyndrome r)]

/-- The received block `i`; bits beyond the input are padding. -/
def hamBlockAt (c : List Bit) (i : Nat) : List Bit := seg (padz c 7) i 7

theorem hamDecode_eq_flatMap (c : List Bit) :
    hamDecode c = (List.range ((c.length + 6) / 7)).flatMap fun i => hamDecBlock (hamBlockAt c i) := by
  rw [hamDecode, intervals, nInt, (length_padz_div c (show 0 < 7 by decide)).1, List.flatMap_map]
  rfl

theorem bitAt_hamDecode (c : List Bit) {j : Nat} (hj : j < 4 * ((c.length + 6) / 7)) :
    bitAt (hamDecode c) j = bitAt (hamDecBlock (hamBlockAt c (j / 4))) (j % 4) := by
  rw [hamDecode_eq_flatMap, bitAt_flatMap_range (n := 4) (by decide) (fun _ => rfl) hj]

theorem length_hamBlockAt {c : List Bit} {i : Nat} (hi : i < (c.length + 6) / 7) : (hamBlockAt c i).length = 7 := by
  obtain ⟨hblocks, hpad⟩ := length_padz_div c (show 0 < 7 by decide)
  exact length_seg _ _ _ (by omega)

theorem bitAt_hamBlockAt (c : List Bit) (i : Nat) {k : Nat} (hk : k < 7) :
    bitAt (hamBlockAt c i) k = bitAt c (7 * i + k) := by
  rw [hamBlockAt, bitAt_seg _ i hk, bitAt_padz, Nat.mul_comm]

theorem blockBit_hamBlockAt (c : List Bit) (i : Nat) {p : Nat} (h1 : 1 ≤ p) (h7 : p ≤ 7) :
    blockBit (hamBlockAt c i) p = bitAt c (7 * i + p - 1) := by
  rw [blockBit, bitAt_hamBlockAt c i (by omega), Nat.add_sub_assoc h1]

theorem bitAt_hamDecBlock_hamBlockAt {c : List Bit} {j : Nat} (hj : j < 4 * ((c.length + 6) / 7)) :
    bitAt (hamDecBlock (hamBlockAt c (j / 4))) (j % 4) = hamDecBit c j := by
  have hk := Nat.mod_lt j (show 4 > 0 by decide)
  obtain ⟨h1, h7⟩ := dataPosition_bounds hk
  rw [bitAt_hamDecBlock (length_hamBlockAt (Nat.div_lt_of_lt_mul hj)) hk, blockBit_hamBlockAt c _ h1 h7]
  simp (disch := decide) only [hamSyndrome, parity4, blockBit_hamBlockAt]
  rfl

theorem hamDecode_eq_map (c : List Bit) :
    hamDecode c = (List.range (4 * ((c.length + 6) / 7))).map (hamDecBit c) :=
  eq_map_range_of_bitAt (length_hamDecode c) fun _ hj =>
    (bitAt_hamDecode c hj).trans (bitAt_hamDecBlock_hamBlockAt hj)

/-- Settles O57: the corrected data bits of the padded blocks, one after the other. -/
theorem hamDecCycle : Obligations.HamDecCycle := fun _ =>
  fixedBitCycle_of (least := fun l => 4 * ((l + 6) / 7)) (f := hamDecode) rfl rfl
    (fun c hc => by rw [length_hamDecode, hc]) fun c _ => hamDecode_eq_map c

/-! ## A block of HAM_ENC with bits inverted (R216, R217) -/

/-- One inverted bit, or none: the syndrome is its position, so that the decoder inverts it back. -/
theorem hamDecBlock_flipPos (d1 d2 d3 d4 : Bit) {q : Nat} (hq : q ≤ 7) :
    hamDecBlock (flipPos (hamEncBlock d1 d2 d3 d4) q) = [d1, d2, d3, d4] := by
  rw [hamDecBlock, hamSyndrome_flipPos rfl hq, hamSyndrome_hamEncBlock, Nat.zero_xor, flipPos_flipPos_self]
  rfl

/-- Of two positions and the one that their syndrome names, an odd number stand on some data bit. -/
theorem exists_dataPosition_odd : ∀ p ≤ 7, ∀ q ≤ 7, 1 ≤ p → p < q → ∃ k < 4,
    Bool.xor (Bool.xor (decide (dataPosition k = p)) (decide (dataPosition k = q)))
      (decide (p ^^^ q = dataPosition k)) = true := by
  decide

/-- Two inverted bits: the decoder inverts a third one, and some data bit comes out wrong. -/
theorem hamDecBlock_flipPos_flipPos_ne (d1 d2 d3 d4 : Bit) {p q : Nat} (hp : 1 ≤ p) (hpq : p < q) (hq : q ≤ 7) :
    ∃ k, k < 4 ∧ bitAt (hamDecBlock (flipPos (flipPos (hamEncBlock d1 d2 d3 d4) p) q)) k ≠
      bitAt [d1, d2, d3, d4] k := by
  obtain ⟨k, hk, hodd⟩ := exists_dataPosition_odd p (by omega) q hq hp hpq
  obtain ⟨h1, h7⟩ := dataPosition_bounds hk
  have hdata : blockBit (hamEncBlock d1 d2 d3 d4) (dataPosition k) = bitAt [d1, d2, d3, d4] k := by
    interval_cases k <;> rfl
  have hsyndrome : hamSyndrome (flipPos (flipPos (hamEncBlock d1 d2 d3 d4) p) q) = p ^^^ q := by
    rw [hamSyndrome_flipPos (by rw [length_flipPos]; rfl) hq, hamSyndrome_flipPos rfl (by omega),
      hamSyndrome_hamEncBlock, Nat.zero_xor]
  refine ⟨k, hk, ?_⟩
  rw [bitAt_hamDecBlock (by rw [length_flipPos, length_flipPos]; rfl) hk, hsyndrome,
    blockBit_flipPos (by rw [length_flipPos]; rfl) q h1 h7, blockBit_flipPos rfl p h1 h7, hdata, Bool.xor_assoc,
    Bool.xor_assoc, ← Bool.xor_assoc (decide _), hodd, Bool.xor_true]
  exact Bool.not_ne_self _

/-! ## HAM_DEC on the output of HAM_ENC with bits inverted (R216, R217) -/

theorem length_div_hamEncode (b : List Bit) : ((hamEncode b).length + 6) / 7 = (b.length + 3) / 4 := by
  rw [length_hamEncode]
  omega

/-- The received block `i` is the sent one, inverted where `flip` is true of its bits. -/
theorem hamBlockAt_flipped_hamEncode {b r : List Bit} {flip : Nat → Bool} {i : Nat} (hi : i < (b.length + 3) / 4)
    (hr : r.length = 7)
    (h : ∀ k, k < 7 → bitAt r k = Bool.xor (bitAt (hamEncBlockAt b i) k) (flip (7 * i + k))) :
    hamBlockAt (flipped flip (hamEncode b)) i = r := by
  have hlen : (hamBlockAt (flipped flip (hamEncode b)) i).length = 7 :=
    length_hamBlockAt (by rwa [length_flipped, length_div_hamEncode])
  refine eq_of_bitAt_eq (hlen.trans hr.symm) fun k hk => ?_
  have hk : k < 7 := hlen ▸ hk
  have hj : 7 * i + k < 7 * ((b.length + 3) / 4) := by omega
  rw [bitAt_hamBlockAt _ i hk, bitAt_flipped flip (by rwa [length_hamEncode]), bitAt_hamEncode b hj, h k hk,
    show (7 * i + k) / 7 = i by omega, show (7 * i + k) % 7 = k by omega]

theorem hamEnc_bitCycle (s : State) : BitCycle .hamEnc s hamEncode fun _ => false :=
  bitCycle_of (least := fun l => 7 * ((l + 3) / 4)) (f := fun b => plain (hamEncode b)) rfl fun _ => rfl

theorem hamDec_bitCycle (s : State) : BitCycle .hamDec s hamDecode fun _ => false :=
  bitCycle_of (least := fun l => 4 * ((l + 6) / 7)) (f := fun c => plain (hamDecode c)) rfl fun _ => rfl

/-- HAM_DEC accepts the output of an accepted HAM_ENC with any bits inverted. -/
theorem hamEnc_hamDec_givesBack {s : State} {b : List Bit} (flip : Nat → Bool) (hb : BitsLoaded s b)
    (hlen : 7 * ((b.length + 3) / 4) < 2 ^ 32) :
    GivesBack .hamEnc .hamDec (BitsCopiedFlipping flip) s (hamDecode (flipped flip (hamEncode b))) := by
  intro t u ht hok hcopy
  obtain ⟨hfits, hout⟩ := (hamEnc_bitCycle s).of_code_ok hb ht hok
  have hloaded := hcopy.bitsLoaded_flipped hout (by rwa [length_hamEncode]) hfits
  have hshort : (hamDecode (flipped flip (hamEncode b))).length ≤ (flipped flip (hamEncode b)).length := by
    rw [length_hamDecode, length_flipped, length_div_hamEncode, length_hamEncode]
    omega
  have ⟨_, hcapacity, _⟩ := hloaded
  obtain ⟨-, -, hrun⟩ := hamDec_bitCycle u
  obtain ⟨v, hv, hvout⟩ := hrun _ hloaded (hshort.trans hcapacity)
  have ⟨hframe, hvlen, _, _⟩ := hvout
  have hvlen := hvlen (hshort.trans_lt (by rwa [length_flipped, length_hamEncode]))
  exact ⟨v, hv, by rw [hframe], by rw [hframe], hvlen, fun _ hj => hvout.read_eq hj⟩

/-- At most one true place among seven is a position of the block, or position 0 for none. -/
theorem exists_flipped_position {flip : Nat → Bool}
    (h : ∀ p q, p < 7 → q < 7 → flip p = true → flip q = true → p = q) :
    ∃ q, q ≤ 7 ∧ ∀ k, k < 7 → flip k = decide (k + 1 = q) := by
  by_cases hex : ∃ p, p < 7 ∧ flip p = true
  · obtain ⟨p, hp, hflip⟩ := hex
    refine ⟨p + 1, hp, fun k hk => Bool.eq_iff_iff.2 ?_⟩
    rw [decide_eq_true_iff, Nat.add_right_cancel_iff]
    exact ⟨fun hk' => h k p hk hp hk' hflip, fun hkp => hkp ▸ hflip⟩
  · refine ⟨0, by decide, fun k hk => ?_⟩
    rw [decide_eq_false k.succ_ne_zero, ← Bool.not_eq_true]
    exact fun hflip => hex ⟨k, hk, hflip⟩

theorem bitAt_dataGroup (b : List Bit) (i : Nat) {k : Nat} (hk : k < 4) :
    bitAt [bitAt b (4 * i), bitAt b (4 * i + 1), bitAt b (4 * i + 2), bitAt b (4 * i + 3)] k =
      bitAt b (4 * i + k) := by
  interval_cases k <;> rfl

/-- With at most one bit of each block inverted, the decoded blocks are the padded groups. -/
theorem hamDecode_flipped_hamEncode {b : List Bit} {flip : Nat → Bool}
    (h : ∀ j p q, p < 7 → q < 7 → flip (7 * j + p) = true → flip (7 * j + q) = true → p = q) :
    hamDecode (flipped flip (hamEncode b)) = padz b 4 := by
  obtain ⟨hgroups, hpad⟩ := length_padz_div b (show 0 < 4 by decide)
  have hlen : (hamDecode (flipped flip (hamEncode b))).length = 4 * ((b.length + 3) / 4) := by
    rw [length_hamDecode, length_flipped, length_div_hamEncode]
  refine eq_of_bitAt_eq (by rw [hlen, ← hpad, hgroups]) fun j hj => ?_
  rw [hlen] at hj
  obtain ⟨q, hq, hflip⟩ := exists_flipped_position (h (j / 4))
  have hblock : hamBlockAt (flipped flip (hamEncode b)) (j / 4) = flipPos (hamEncBlockAt b (j / 4)) q :=
    hamBlockAt_flipped_hamEncode (Nat.div_lt_of_lt_mul hj) (by simp) fun k hk => by
      rw [bitAt_flipPos _ q hk, hflip k hk]
  have hk := Nat.mod_lt j (show 4 > 0 by decide)
  rw [bitAt_hamDecode _ (by rwa [length_flipped, length_div_hamEncode]), hblock, hamEncBlockAt,
    hamDecBlock_flipPos _ _ _ _ hq, bitAt_padz, bitAt_dataGroup b _ hk, Nat.div_add_mod]

/-- Settles O58: each received block differs from the sent one in one position or none. -/
theorem hammingCorrectsOneErrorPerBlock : Obligations.HammingCorrectsOneErrorPerBlock :=
  fun _ b flip hb hlen hflip => by
    rw [← padz_four, ← hamDecode_flipped_hamEncode hflip]
    exact hamEnc_hamDec_givesBack flip hb hlen

/-- With two bits of a single block inverted, some decoded bit is wrong. -/
theorem hamDecode_flipped_two_ne {d : List Bit} (hd : d.length = 4) {p q : Nat} (hpq : p < q) (hq : q < 7) :
    ∃ j, j < 4 ∧
      bitAt (hamDecode (flipped (fun j => decide (j = p ∨ j = q)) (hamEncode d))) j ≠ bitAt d j := by
  have hblock : hamBlockAt (flipped (fun j => decide (j = p ∨ j = q)) (hamEncode d)) 0 =
      flipPos (flipPos (hamEncBlockAt d 0) (p + 1)) (q + 1) :=
    hamBlockAt_flipped_hamEncode (by omega) (by simp) fun k hk => by
      rw [bitAt_flipPos _ _ (by simpa using hk), bitAt_flipPos _ _ hk, Bool.xor_assoc]
      by_cases hp : k = p
      · simp [hp, hpq.ne]
      · simp [hp]
  obtain ⟨j, hj, hne⟩ := hamDecBlock_flipPos_flipPos_ne (bitAt d 0) (bitAt d 1) (bitAt d 2) (bitAt d 3)
    (Nat.succ_pos p) (Nat.succ_lt_succ hpq) hq
  have hdata := bitAt_dataGroup d 0 hj
  simp only [Nat.mul_zero, Nat.zero_add] at hdata
  refine ⟨j, hj, ?_⟩
  rw [bitAt_hamDecode _ (by rw [length_flipped, length_div_hamEncode, hd]; omega), Nat.div_eq_of_lt hj,
    Nat.mod_eq_of_lt hj, hblock]
  exact hne.trans_eq hdata

/-- Settles O59: the decoder accepts the block with its two inverted bits, and a decoded bit is wrong. -/
theorem hammingMiscorrectsTwoErrors : Obligations.HammingMiscorrectsTwoErrors :=
  fun _ t u d p q hb hd hpq hq ht hok hcopy => by
    obtain ⟨v, hv, hvok, herr, hlen, hbits⟩ :=
      hamEnc_hamDec_givesBack _ hb (by rw [hd]; decide) t u ht hok hcopy
    obtain ⟨j, hj, hne⟩ := hamDecode_flipped_two_ne hd hpq hq
    rw [length_hamDecode, length_flipped, length_div_hamEncode, hd] at hlen hbits
    exact ⟨v, hv, hvok, herr, hlen, j, hj, by rwa [hbits j hj, ne_eq, Option.some_inj]⟩

end Sys2Proof.Machine
end

section
/-! The host port while a command is in progress (R238): what each write and each read does, and the turn
that it is. -/

namespace Sys2Proof.Machine

/-! ## Writes are ignored -/

theorem doWb_busy {s : State} {c : InFlight} (h : s.inflight = some c) (sp : BitSpace) (j : Nat) (v : Octet) :
    s.doWb sp j v = s := by
  unfold State.doWb State.busy
  rw [h]
  rfl

theorem doWs_busy {s : State} {c : InFlight} (h : s.inflight = some c) (sp : SampSpace) (i : Nat)
    (x : Sample) : s.doWs sp i x = s := by
  unfold State.doWs State.busy
  rw [h]
  rfl

/-- An access that a busy block ignores, as a whole turn: the latency alone goes on. -/
theorem step_busy_ignored {s : State} {w : Word} {n : Nat} {a : Access} {rest : List Access}
    (h : s.inflight = some ⟨w, n + 1⟩) (hh : s.host = a :: rest)
    (ha : ∀ t : State, t.inflight = some ⟨w, n⟩ → t.perform a = t) :
    step s = .next { s with host := rest, inflight := some ⟨w, n⟩ } := by
  rw [step_busy h hh, ha _ rfl]

/-! ## Reads -/

/-- A register, octet or sample read, as a whole turn: the host receives a datum, and the latency goes on. -/
theorem step_busy_read {s : State} {w : Word} {n : Nat} {a : Access} {rest : List Access}
    (h : s.inflight = some ⟨w, n + 1⟩) (hh : s.host = a :: rest)
    (ha : ∀ t : State, ∃ d, t.perform a = (t.received d).tookFree) :
    ∃ d k, step s = .next { s with
      host := rest, inflight := some ⟨w, n⟩, rx := d :: s.rx, tick := k } := by
  obtain ⟨d, hd⟩ := ha { s with host := rest, inflight := some ⟨w, n⟩ }
  rw [step_busy h hh, hd]
  exact ⟨d, s.tick + 1, rfl⟩

/-- The STATUS word tells that a command is in progress, and neither which one nor for how long (R24, R25). -/
theorem statusWord_countDown {s : State} {c : InFlight} (h : s.inflight = some c) (d : InFlight)
    (rest : List Access) : ({ s with host := rest, inflight := some d } : State).statusWord = s.statusWord := by
  unfold State.statusWord State.busy
  rw [h]
  rfl

/-- A read of STATUS while a command is in progress and not due, as a whole turn. -/
theorem step_busy_rd_status {s : State} {w : Word} {n : Nat} {rest : List Access}
    (h : s.inflight = some ⟨w, n + 1⟩) (hh : s.host = .rd 1 :: rest) :
    step s = .next { s with
      host := rest, inflight := some ⟨w, n⟩, rx := .word s.statusWord :: s.rx, tick := s.tick + 1 } := by
  rw [step_busy h hh, ← statusWord_countDown h ⟨w, n⟩ rest]
  rfl

/-- Settles O7: the three writes leave the block alone, STATUS is read as it stands, and the other reads give
the host a datum. -/
theorem busyPort : Obligations.BusyPort := by
  intro s w n rest h
  refine ⟨fun off v hh => step_wr_busy h hh, fun sp j v hh => ?_, fun sp i x hh => ?_,
    fun hh => ⟨s.tick + 1, step_busy_rd_status h hh⟩, fun a hh hread => ?_⟩
  · exact step_busy_ignored h hh fun _ ht => doWb_busy ht sp j v
  · exact step_busy_ignored h hh fun _ ht => doWs_busy ht sp i x
  · rcases hread with ⟨off, -, rfl⟩ | ⟨sp, j, rfl⟩ | ⟨sp, i, rfl⟩
    · exact step_busy_read h hh fun _ => ⟨_, rfl⟩
    · exact step_busy_read h hh fun _ => ⟨_, rfl⟩
    · exact step_busy_read h hh fun _ => ⟨_, rfl⟩

end Sys2Proof.Machine
end

section
/-! The rejections of a due command (R230 to R234): what a rejection changes, and which of its causes is the
one reported. -/

namespace Sys2Proof.Machine

/-! ## A due command -/

/-- A due word that selects a command runs it (R77). -/
theorem step_decoded {s : State} {w : Word} {i : Instr} (h : s.inflight = some ⟨w, 0⟩)
    (hd : decode w = .ok i) : step s = exec i s := by
  rw [step_command (fetchCommand_eq_some.mpr h), hd]

/-! ## What a rejection changes (R233) -/

/-- A command that ends with another code than OK has done nothing but `State.reject`. -/
theorem exec_eq_reject {i : Instr} {s t : State} (h : exec i s = .next t) (hc : t.code ≠ .ok) :
    t = s.reject t.code := by
  rcases exec_next_cases h with ⟨c, -, rfl⟩ | ⟨-, out, pol, -, -, rfl⟩ | ⟨-, out, err, -, -, rfl⟩ | ⟨-, rfl⟩
  · rfl
  all_goals exact absurd (State.code_accept _ _) hc

/-- Settles O13: an illegal word and a rejected command both end in `State.reject`. -/
theorem rejectionWritesOnlyStatus : Obligations.RejectionWritesOnlyStatus := by
  intro s t w h ht hc
  by_cases hd : ∃ i, decode w = .ok i
  · obtain ⟨i, hi⟩ := hd
    rw [step_decoded h hi] at ht
    exact exec_eq_reject ht hc
  · rw [step_illegal h (not_exists.mp hd)] at ht
    cases ht
    rfl

/-! ## The configuration check (R232) -/

/-- The check of the configuration that the command makes; a command without one passes it. -/
def configCheck (i : Instr) (s : State) : Bool :=
  match i with
  | .nrzEnc | .nrzDec | .manEnc | .manDec | .amiEnc | .amiDec | .askDem => s.waveOk
  | .askMod => s.askOk
  | .fskMod | .fskDem => s.fskOk
  | .qpskMod | .qpskDem | .qam16Mod | .qam16Dem => s.iqOk
  | .amiRst | .bstEnc | .bstDec | .crcGen | .crcChk | .hamEnc | .hamDec => true

/-- The checks of the commands are the table of R232. -/
theorem configCheck_iff (i : Instr) (s : State) : configCheck i s = true ↔ ConfigOk i s := by
  cases i
  case nrzEnc | nrzDec | manEnc | manDec | amiEnc | amiDec | askDem => exact waveOk_iff s
  case askMod => exact askOk_iff s
  case fskMod | fskDem => exact fskOk_iff s
  case qpskMod | qpskDem | qam16Mod | qam16Dem => exact iqOk_iff s
  case amiRst | bstEnc | bstDec | crcGen | crcChk | hamEnc | hamDec => exact iff_of_true rfl trivial

/-! ## The cycle after the configuration check -/

/-- The input length of the command exceeds the capacity of its input buffer (R231, code IN_RANGE). -/
def InputTooLong (i : Instr) (s : State) : Prop :=
  (bitInput i = true ∧ s.params.maxBits < s.inBlen.toNat) ∨
    (sampleInput i = true ∧ s.params.maxSamples < s.inSlen.toNat)

/-- The code is one of the two that a cycle can end with once its configuration and its input length have
passed (R234). -/
def EndsAtOutput (t : State) : Prop := t.code = .outOverflow ∨ t.code = .ok

/-- Where the command answers a next state, the code is IN_RANGE for an input that is too long, whatever else
is wrong, and otherwise one of a later place in the order of R234. -/
def ReportsInRangeFirst (i : Instr) (s : State) (r : Result) : Prop :=
  ∀ t, r = .next t →
    (InputTooLong i s ∧ t.code = .inRange) ∨ (¬ InputTooLong i s ∧ EndsAtOutput t)

theorem not_inputTooLong_iff {i : Instr} {s : State} : ¬ InputTooLong i s ↔
    (bitInput i = true → s.inBlen.toNat ≤ s.params.maxBits) ∧
      (sampleInput i = true → s.inSlen.toNat ≤ s.params.maxSamples) := by
  simp only [InputTooLong, not_or, not_and, not_lt]

/-- No command reads both input buffers (R76). -/
theorem sampleInput_of_bitInput {i : Instr} : bitInput i = true → sampleInput i = false := by
  cases i <;> decide

theorem inputTooLong_iff_of_bitInput {i : Instr} (hb : bitInput i = true) (s : State) :
    InputTooLong i s ↔ s.params.maxBits < s.inBlen.toNat := by
  simp [InputTooLong, hb, sampleInput_of_bitInput hb]

theorem inputTooLong_iff_of_sampleInput {i : Instr} (hi : sampleInput i = true) (s : State) :
    InputTooLong i s ↔ s.params.maxSamples < s.inSlen.toNat := by
  have hb : bitInput i = false := by
    rw [Bool.eq_false_iff]
    exact fun hb => Bool.false_ne_true ((sampleInput_of_bitInput hb).symm.trans hi)
  simp [InputTooLong, hi, hb]

theorem finishBits_endsAtOutput (s : State) (r : Produced Bit) : EndsAtOutput (s.finishBits r) := by
  rcases finishBits_cases s r with ⟨-, e⟩ | ⟨-, e⟩ <;> rw [e]
  · exact .inl rfl
  · exact .inr rfl

theorem finishSamples_endsAtOutput (s : State) (r : Produced Sample) : EndsAtOutput (s.finishSamples r) := by
  rcases finishSamples_cases s r with ⟨-, e⟩ | ⟨-, e⟩ <;> rw [e]
  · exact .inl rfl
  · exact .inr rfl

theorem withInBits_reportsInRangeFirst {i : Instr} {s : State} {least capacity : Nat}
    {finish : List Bit → State} (hi : bitInput i = true) (hf : ∀ b, EndsAtOutput (finish b)) :
    ReportsInRangeFirst i s (withInBits s least capacity finish) := by
  intro t ht
  rw [inputTooLong_iff_of_bitInput hi, not_lt]
  rcases withInBits_cases s least capacity finish with
    ⟨hlong, e⟩ | ⟨hfits, b, -, -, e⟩ | ⟨hfits, -, e⟩ | ⟨-, -, j, -, -, e⟩ <;> cases e.symm.trans ht
  · exact .inl ⟨hlong, rfl⟩
  · exact .inr ⟨hfits, hf b⟩
  · exact .inr ⟨hfits, .inl rfl⟩

theorem withInSamp_reportsInRangeFirst {i : Instr} {s : State} {least capacity : Nat}
    {finish : List Sample → State} (hi : sampleInput i = true) (hf : ∀ r, EndsAtOutput (finish r)) :
    ReportsInRangeFirst i s (withInSamp s least capacity finish) := by
  intro t ht
  rw [inputTooLong_iff_of_sampleInput hi, not_lt]
  rcases withInSamp_cases s least capacity finish with
    ⟨hlong, e⟩ | ⟨hfits, r, -, -, e⟩ | ⟨hfits, -, e⟩ | ⟨-, -, j, -, -, e⟩ <;> cases e.symm.trans ht
  · exact .inl ⟨hlong, rfl⟩
  · exact .inr ⟨hfits, hf r⟩
  · exact .inr ⟨hfits, .inl rfl⟩

/-- AMI_RST reads no input and puts none out (R76, R107). -/
theorem amiRst_reportsInRangeFirst (s : State) : ReportsInRangeFirst .amiRst s (execAmiRst s) := by
  rintro _ ⟨⟩
  exact .inr ⟨by simp [InputTooLong, bitInput, sampleInput], .inr rfl⟩

/-- Every command is its configuration check and then a cycle of its kind. -/
theorem exec_eq_checkConfig (i : Instr) (s : State) :
    ∃ rest, exec i s = checkConfig s (configCheck i s) rest ∧ ReportsInRangeFirst i s rest := by
  cases i
  case amiRst => exact ⟨_, rfl, amiRst_reportsInRangeFirst s⟩
  case nrzEnc | manEnc | amiEnc | askMod | fskMod | qpskMod | qam16Mod =>
    exact ⟨_, rfl, withInBits_reportsInRangeFirst rfl fun _ => finishSamples_endsAtOutput s _⟩
  case nrzDec | manDec | amiDec | askDem | fskDem | qpskDem | qam16Dem =>
    exact ⟨_, rfl, withInSamp_reportsInRangeFirst rfl fun _ => finishBits_endsAtOutput s _⟩
  case bstEnc | bstDec | crcGen | crcChk | hamEnc | hamDec =>
    exact ⟨_, rfl, withInBits_reportsInRangeFirst rfl fun _ => finishBits_endsAtOutput s _⟩

/-! ## The order of the causes (R234) -/

/-- The code a command ends with tells which of its checks failed first. -/
theorem exec_code_cases {i : Instr} {s t : State} (h : exec i s = .next t) :
    (¬ ConfigOk i s ∧ t.code = .badConfig) ∨
    (ConfigOk i s ∧ InputTooLong i s ∧ t.code = .inRange) ∨
    (ConfigOk i s ∧ ¬ InputTooLong i s ∧ EndsAtOutput t) := by
  obtain ⟨rest, hexec, hrest⟩ := exec_eq_checkConfig i s
  rw [hexec] at h
  rcases checkConfig_cases s (configCheck i s) rest with ⟨hok, e⟩ | ⟨hbad, e⟩
  · have hc : ConfigOk i s := (configCheck_iff i s).mp hok
    exact .inr ((hrest t (e.symm.trans h)).imp (.intro hc) (.intro hc))
  · have hc : ¬ ConfigOk i s := (configCheck_iff i s).not.mp (Bool.eq_false_iff.mp hbad)
    cases e.symm.trans h
    exact .inl ⟨hc, rfl⟩

/-- Settles O15: a word that selects no command comes first; after it the cases of `exec_code_cases`, of which
the hypotheses of each clause leave one. -/
theorem firstCauseIsReported : Obligations.FirstCauseIsReported := by
  intro s t w h ht
  refine ⟨fun hill => ?_, fun i hd => ?_⟩
  · rw [step_illegal h hill] at ht
    cases ht
    rfl
  · rw [step_decoded h hd] at ht
    rcases exec_code_cases ht with ⟨hbad, hcode⟩ | ⟨hok, hlong, hcode⟩ | ⟨hok, hfits, hcode⟩
    · exact ⟨fun _ => hcode, fun hok => absurd hok hbad, fun hok => absurd hok hbad⟩
    · exact ⟨absurd hok, fun _ _ => hcode,
        fun _ hbits hsamp => absurd hlong (not_inputTooLong_iff.mpr ⟨hbits, hsamp⟩)⟩
    · exact ⟨absurd hok, fun _ hlong => absurd hlong hfits, fun _ _ _ => hcode⟩

end Sys2Proof.Machine
end

section
/-! Reset (R260 to R262): what it makes of any state, and the turn in which the host gives it, whether a
command is in progress or not. -/

namespace Sys2Proof.Machine

/-- The turn of a host access, the block idle or its command not yet due. -/
theorem step_hostDoes {s : State} {a : Access} {rest : List Access} (h : HostDoes s a rest) :
    step s = .next (({ s.countDown with host := rest } : State).perform a) := by
  obtain ⟨hfetch, hhost⟩ := h
  rw [step_host hfetch, State.hostTurn, hhost]

/-- A command in progress keeps the capacities while its latency passes. -/
theorem params_countDown (s : State) : s.countDown.params = s.params := by
  rw [sameBlock_countDown s]

/-- What reset keeps of a state, the capacities and the record of the host, is none of the values of R44. -/
theorem atReset_resetBlock (s : State) : AtReset s.resetBlock := resetValues

/-- Settles O10: the turn of a reset ends in `State.resetBlock`, and the progress of a command that was
counted down before it is abandoned with all else. -/
theorem resetInput : Obligations.ResetInput := by
  intro s rest h
  have hstep := step_hostDoes h
  rw [perform_reset] at hstep
  exact ⟨_, hstep, atReset_resetBlock _, params_countDown s, rfl⟩

end Sys2Proof.Machine
end

section
/-! The invariant of the machine (R52, R57): what a turn of the host and a step can do, said once, and that
none of it leaves the invariant or changes the capacities. -/

namespace Sys2Proof.Machine

/-! ## What a step can do -/

/-- A reset abandons the command in progress, so it does not matter that its latency was counted down. -/
theorem resetBlock_countDown (s : State) (rest : List Access) :
    ({ s.countDown with host := rest } : State).resetBlock = ({ s with host := rest } : State).resetBlock := by
  unfold State.countDown
  split <;> rfl

/-- A block that is idle was idle before the latency was counted down. -/
theorem countDown_eq_self_of_idle {s : State} (h : s.countDown.inflight = none) :
    s.inflight = none ∧ s.countDown = s := by
  unfold State.countDown at h ⊢
  split at h
  · cases h
  · exact ⟨h, rfl⟩

/-- What a turn of the host does: it is a reset; or it leaves the block as it is; or the block is idle and it
writes one register, octet or sample. -/
theorem hostTurn_cases (s : State) :
    (∃ rest, s.host = .reset :: rest ∧ s.hostTurn = ({ s with host := rest } : State).resetBlock) ∨
    SameBlock s s.hostTurn ∨
    (s.inflight = none ∧ ∃ rest,
      (∃ r v, s.host = .wr r.offset v :: rest ∧
        s.hostTurn = ({ s with host := rest } : State).writeReg r v) ∨
      (∃ j v, s.hostTurn = { s with
        host := rest, inBits := writeOctet s.params.maxBits j v 8 s.inBits }) ∨
      ∃ i x, i < s.params.maxSamples ∧ s.hostTurn = { s with
        host := rest, inSamp := s.inSamp.write i x }) := by
  have hcount := sameBlock_countDown s
  unfold State.hostTurn
  cases hh : s.host with
  | nil => exact .inr (.inl hcount)
  | cons a rest =>
    rcases perform_cases ({ s.countDown with host := rest } : State) a with
      ⟨rfl, e⟩ | ⟨-, -, e⟩ | ⟨hidle, e⟩
    · exact .inl ⟨rest, rfl, e.trans (resetBlock_countDown s rest)⟩
    · have hrest : SameBlock s { s.countDown with host := rest } := by rw [hcount]; rfl
      exact .inr (.inl (sameBlock_trans hrest e))
    · obtain ⟨hs, hself⟩ := countDown_eq_self_of_idle hidle
      rw [hself] at e ⊢
      refine .inr (.inr ⟨hs, rest, ?_⟩)
      rcases e with ⟨r, v, rfl, e⟩ | e
      · exact .inl ⟨r, v, rfl, e⟩
      · exact .inr e

/-- What a step that answers a next state is: the rejection of an illegal word, the run of a command, or a turn
of the host. -/
theorem step_next_cases {s t : State} (h : step s = .next t) :
    (∃ w, s.fetchCommand = some w ∧ t = s.reject .illegalCmd) ∨
    (∃ w i, s.fetchCommand = some w ∧ decode w = .ok i ∧ exec i s = .next t) ∨
    (s.fetchCommand = none ∧ t = s.hostTurn) := by
  cases hf : s.fetchCommand with
  | none =>
    cases (step_host hf).symm.trans h
    exact .inr (.inr ⟨rfl, rfl⟩)
  | some w =>
    rw [step_command hf] at h
    cases hd : decode w with
    | ok i =>
      rw [hd] at h
      exact .inr (.inl ⟨w, i, rfl, hd, h⟩)
    | error e =>
      rw [hd] at h
      cases h
      exact .inl ⟨w, rfl, rfl⟩

/-! ## Buffers within their capacities -/

theorem Buf.within_nil {α : Type} (cap : Nat) : Buf.within ([] : Buf α) cap := nofun

theorem Buf.within_write {α : Type} {b : Buf α} {cap i : Nat} (h : b.within cap) (hi : i < cap) (x : α) :
    (b.write i x).within cap := by
  intro c hc
  rcases Buf.mem_write hc with rfl | hc
  · exact hi
  · exact h c hc

theorem Buf.within_writeBlock {α : Type} {b : Buf α} {cap : Nat} (h : b.within cap) {xs : List α}
    (hxs : xs.length ≤ cap) : (b.writeBlock xs).within cap := by
  intro c hc
  rcases Buf.mem_writeBlock hc with hlt | hc
  · exact hlt.trans_le hxs
  · exact h c hc

/-- Every element below the length register of a written block has a value. -/
theorem Buf.isSome_read_writeBlock {α : Type} (b : Buf α) (xs : List α) {i : Nat}
    (hi : i < (lengthWord xs.length).toNat) : ((b.writeBlock xs).read i).isSome = true := by
  have hlt : i < xs.length := hi.trans_le (lengthWord_toNat_le _)
  rw [Buf.read_writeBlock, if_pos hlt, List.getElem?_eq_getElem hlt, Option.isSome_some]

/-! ## The invariant -/

/-- Settles O11: the buffers are empty, the output lengths 0, and a capacity of an implementation is the
successor of a number. -/
theorem resetMeetsInvariant : Obligations.ResetMeetsInvariant where
  inBits_wf := rfl
  outBits_wf := rfl
  inSamp_wf := rfl
  outSamp_wf := rfl
  inBits_within := Buf.within_nil _
  outBits_within := Buf.within_nil _
  inSamp_within := Buf.within_nil _
  outSamp_within := Buf.within_nil _
  outBits_held := fun i hi => absurd hi (Nat.not_lt_zero i)
  outSamp_held := fun i hi => absurd hi (Nat.not_lt_zero i)
  bits_pos := Nat.succ_pos _
  samples_pos := Nat.succ_pos _

/-- What leads from `s` to `t` keeps the invariant and the capacities. -/
def KeepsInvariant (s t : State) : Prop := Invariant s → Invariant t ∧ t.params = s.params

theorem KeepsInvariant.trans {s t u : State} (h1 : KeepsInvariant s t) (h2 : KeepsInvariant t u) :
    KeepsInvariant s u := fun hs => by
  obtain ⟨ht, hst⟩ := h1 hs
  obtain ⟨hu, htu⟩ := h2 ht
  exact ⟨hu, htu.trans hst⟩

theorem SameBlock.keepsInvariant {s t : State} (h : SameBlock s t) : KeepsInvariant s t := by
  rw [h]
  exact fun hs => ⟨{ hs with }, rfl⟩

theorem keepsInvariant_reject (s : State) (c : Code) : KeepsInvariant s (s.reject c) :=
  fun hs => ⟨{ hs with }, rfl⟩

theorem keepsInvariant_setPol_accept (s : State) (pol : Option Bool) (err : Bool) :
    KeepsInvariant s ((s.setPol pol).accept err) :=
  fun hs => ⟨{ hs with }, rfl⟩

theorem keepsInvariant_emitBits {s : State} {out : List Bit} (h : out.length ≤ s.params.maxBits) :
    KeepsInvariant s (s.emitBits out) := fun hs =>
  ⟨{ hs with
      outBits_wf := Buf.wf_writeBlock hs.outBits_wf out
      outBits_within := Buf.within_writeBlock hs.outBits_within h
      outBits_held := fun _ hi => Buf.isSome_read_writeBlock s.outBits out hi }, rfl⟩

theorem keepsInvariant_emitSamp {s : State} {out : List Sample} (h : out.length ≤ s.params.maxSamples) :
    KeepsInvariant s (s.emitSamp out) := fun hs =>
  ⟨{ hs with
      outSamp_wf := Buf.wf_writeBlock hs.outSamp_wf out
      outSamp_within := Buf.within_writeBlock hs.outSamp_within h
      outSamp_held := fun _ hi => Buf.isSome_read_writeBlock s.outSamp out hi }, rfl⟩

/-- A reset empties the buffers and leaves the capacities, so only these count of the state before. -/
theorem keepsInvariant_resetBlock (s : State) : KeepsInvariant s s.resetBlock := fun hs =>
  ⟨{ resetMeetsInvariant with
      inBits_within := Buf.within_nil _
      outBits_within := Buf.within_nil _
      inSamp_within := Buf.within_nil _
      outSamp_within := Buf.within_nil _
      bits_pos := hs.bits_pos
      samples_pos := hs.samples_pos }, rfl⟩

/-- No host write to a register reaches a buffer, an output length or a capacity. -/
theorem keepsInvariant_writeReg (s : State) (r : Reg) (v : HostData) : KeepsInvariant s (s.writeReg r v) := by
  intro hs
  cases r <;> exact ⟨{ hs with }, rfl⟩

theorem keepsInvariant_hostTurn (s : State) : KeepsInvariant s s.hostTurn := by
  have hhost : ∀ rest, KeepsInvariant s { s with host := rest } := fun _ => SameBlock.keepsInvariant rfl
  rcases hostTurn_cases s with
    ⟨rest, -, e⟩ | hsame | ⟨-, rest, ⟨r, v, -, e⟩ | ⟨j, v, e⟩ | ⟨i, x, hi, e⟩⟩
  · rw [e]
    exact (hhost rest).trans (keepsInvariant_resetBlock _)
  · exact hsame.keepsInvariant
  · rw [e]
    exact (hhost rest).trans (keepsInvariant_writeReg _ r v)
  · rw [e]
    exact fun hs => ⟨{ hs with
      inBits_wf := wf_writeOctet hs.inBits_wf
      inBits_within := within_writeOctet hs.inBits_within }, rfl⟩
  · rw [e]
    exact fun hs => ⟨{ hs with
      inSamp_wf := Buf.wf_write hs.inSamp_wf i x
      inSamp_within := Buf.within_write hs.inSamp_within hi x }, rfl⟩

theorem keepsInvariant_exec {i : Instr} {s t : State} (h : exec i s = .next t) : KeepsInvariant s t := by
  rcases exec_next_cases h with
    ⟨c, -, rfl⟩ | ⟨-, out, pol, hout, -, rfl⟩ | ⟨-, out, err, hout, -, rfl⟩ | ⟨-, rfl⟩
  · exact keepsInvariant_reject s c
  · exact (keepsInvariant_emitSamp hout).trans (keepsInvariant_setPol_accept _ pol false)
  · exact (keepsInvariant_emitBits hout).trans (keepsInvariant_setPol_accept _ none err)
  · exact keepsInvariant_setPol_accept s (some true) false

theorem keepsInvariant_step {s t : State} (h : step s = .next t) : KeepsInvariant s t := by
  rcases step_next_cases h with ⟨w, -, rfl⟩ | ⟨w, i, -, -, hexec⟩ | ⟨-, rfl⟩
  · exact keepsInvariant_reject s .illegalCmd
  · exact keepsInvariant_exec hexec
  · exact keepsInvariant_hostTurn s

/-- Settles O12: a rejection, the output of an accepted command and a turn of the host each keep the
invariant. -/
theorem stepKeepsInvariant : Obligations.StepKeepsInvariant :=
  fun _ _ hs h => keepsInvariant_step h hs

end Sys2Proof.Machine
end

section
/-! What commands leave alone (R14, R26, R39, R41, R43, R57): the frame of every command, and who writes ERR
and POL. -/

namespace Sys2Proof.Machine

/-! ## The frame of a command (R41, R57) -/

/-- Settles O16: a rejection, a sample output, a bit output and AMI_RST each change the fields they name. -/
theorem commandsLeaveTheRest : Obligations.CommandsLeaveTheRest := by
  intro i s t h
  rcases exec_next_cases h with
    ⟨c, -, rfl⟩ | ⟨hsamp, out, pol, -, hpol, rfl⟩ | ⟨hbit, out, err, -, -, rfl⟩ | ⟨hi, rfl⟩
  · exact ⟨rfl, fun _ => ⟨rfl, rfl⟩, fun _ => ⟨rfl, rfl⟩, fun _ _ => rfl⟩
  · refine ⟨rfl, fun _ => ⟨rfl, rfl⟩, fun hno => ?_, fun henc _ => ?_⟩
    · rw [hsamp] at hno
      cases hno
    · rw [hpol henc]
      rfl
  · refine ⟨rfl, fun hno => ?_, fun _ => ⟨rfl, rfl⟩, fun _ _ => rfl⟩
    rw [hbit] at hno
    cases hno
  · exact ⟨rfl, fun _ => ⟨rfl, rfl⟩, fun _ => ⟨rfl, rfl⟩, fun _ hrst => absurd hi hrst⟩

/-! ## ERR (R26, R43) -/

@[simp] theorem err_writeReg (s : State) (r : Reg) (v : HostData) : (s.writeReg r v).err = s.err := by
  cases r <;> rfl

theorem err_of_exec_ok {i : Instr} {s t : State} (h : exec i s = .next t) (hok : t.code = .ok)
    (hi : i ≠ .crcChk) : t.err = false := by
  rcases exec_next_cases h with
    ⟨c, hc, rfl⟩ | ⟨-, out, pol, -, -, rfl⟩ | ⟨-, out, err, -, herr, rfl⟩ | ⟨-, rfl⟩
  · exact absurd hok hc
  · rfl
  · exact herr hi
  · rfl

/-- No host access but a reset changes ERR. -/
theorem reset_of_err_hostTurn_ne {s : State} (h : s.hostTurn.err ≠ s.err) :
    ∃ rest, s.host = .reset :: rest := by
  rcases hostTurn_cases s with
    ⟨rest, hhost, -⟩ | hsame | ⟨-, rest, ⟨r, v, -, e⟩ | ⟨j, v, e⟩ | ⟨i, x, -, e⟩⟩
  · exact ⟨rest, hhost⟩
  · exact absurd (by rw [hsame]) h
  · exact absurd (by rw [e, err_writeReg]) h
  · exact absurd (by rw [e]) h
  · exact absurd (by rw [e]) h

/-- Settles O17: a rejected command has done nothing but `State.reject`, an accepted one writes its error flag,
and of the host's accesses a reset alone writes ERR. -/
theorem errWriters : Obligations.ErrWriters := by
  refine ⟨fun i s t h => ⟨fun hc => ?_, err_of_exec_ok h⟩, fun s t hf h herr => ?_⟩
  · rw [exec_eq_reject h hc, State.err_reject]
  · cases (step_host hf).symm.trans h
    exact reset_of_err_hostTurn_ne herr

/-! ## POL (R39) -/

/-- Of the registers AMI_STATE alone writes POL. -/
theorem amiPol_writeReg (s : State) (r : Reg) (v : HostData) :
    (s.writeReg r v).amiPol = if r = .amiState then (portWord v).getLsbD 0 else s.amiPol := by
  cases r <;> rfl

/-- The commands that write POL are those of two words (R105, R107). -/
theorem decoded_of_amiPol_exec_ne {w : Word} {i : Instr} {s t : State} (hd : decode w = .ok i)
    (h : exec i s = .next t) (hpol : t.amiPol ≠ s.amiPol) : w = 0x00000014#32 ∨ w = 0x00000016#32 := by
  obtain ⟨-, -, -, hkeep⟩ := commandsLeaveTheRest i s t h
  rw [decode_eq_ok_iff.mp hd]
  by_cases henc : i = .amiEnc
  · exact .inl (congrArg encode henc)
  · by_cases hrst : i = .amiRst
    · exact .inr (congrArg encode hrst)
    · exact absurd (hkeep henc hrst) hpol

/-- No host access but a reset and a write to AMI_STATE changes POL. -/
theorem access_of_amiPol_hostTurn_ne {s : State} (h : s.hostTurn.amiPol ≠ s.amiPol) :
    ∃ rest, s.host = .reset :: rest ∨
      ∃ v, s.inflight = none ∧ s.host = .wr 13 v :: rest ∧ s.hostTurn.amiPol = (portWord v).getLsbD 0 := by
  rcases hostTurn_cases s with
    ⟨rest, hhost, -⟩ | hsame | ⟨hidle, rest, ⟨r, v, hhost, e⟩ | ⟨j, v, e⟩ | ⟨i, x, -, e⟩⟩
  · exact ⟨rest, .inl hhost⟩
  · exact absurd (by rw [hsame]) h
  · rw [e, amiPol_writeReg] at h ⊢
    by_cases hr : r = .amiState
    · subst hr
      exact ⟨rest, .inr ⟨v, hidle, hhost, rfl⟩⟩
    · exact absurd (if_neg hr) h
  · exact absurd (by rw [e]) h
  · exact absurd (by rw [e]) h

/-- Settles O18: of the three kinds of step a rejection leaves POL, a run writes it by two words alone, and a
turn of the host by two accesses alone. -/
theorem polarityWriters : Obligations.PolarityWriters := by
  intro s t h hpol
  rcases step_next_cases h with ⟨w, -, rfl⟩ | ⟨w, i, hf, hd, hexec⟩ | ⟨-, rfl⟩
  · exact absurd (State.amiPol_reject s _) hpol
  · rw [hf]
    rcases decoded_of_amiPol_exec_ne hd hexec hpol with rfl | rfl
    · exact .inl rfl
    · exact .inr (.inl rfl)
  · exact .inr (.inr (access_of_amiPol_hostTurn_ne hpol))

end Sys2Proof.Machine
end

section
/-! Acceptance and the reading of the input (R52, R56, R232): where BAD_CONFIG is reported, that every command
accepts an empty input, and what a command answers where an element of its input is not written. -/

namespace Sys2Proof.Machine

/-! ## BAD_CONFIG (R232) -/

theorem exec_of_not_configOk {i : Instr} {s : State} (h : ¬ ConfigOk i s) :
    exec i s = .next (s.reject .badConfig) := by
  obtain ⟨rest, hexec, -⟩ := exec_eq_checkConfig i s
  have hbad : configCheck i s = false := Bool.eq_false_iff.mpr ((configCheck_iff i s).not.mpr h)
  rw [hexec, hbad]
  rfl

theorem code_ne_badConfig {i : Instr} {s t : State} (hc : ConfigOk i s) (h : exec i s = .next t) :
    t.code ≠ .badConfig := by
  intro hbad
  rcases exec_code_cases h with ⟨hnot, -⟩ | ⟨-, -, hcode⟩ | ⟨-, -, hcode | hcode⟩
  · exact hnot hc
  all_goals cases hcode.symm.trans hbad

/-! ## Empty inputs -/

/-- The command is run and accepted. -/
def Accepts (i : Instr) (s : State) : Prop := ∃ t, exec i s = .next t ∧ t.code = .ok

theorem bitsLoaded_nil {s : State} (h : s.inBlen = 0) : BitsLoaded s [] :=
  ⟨by rw [h]; rfl, Nat.zero_le _, fun _ hi => absurd hi (Nat.not_lt_zero _)⟩

theorem sampLoaded_nil {s : State} (h : s.inSlen = 0) : SampLoaded s [] :=
  ⟨by rw [h]; rfl, Nat.zero_le _, fun _ hi => absurd hi (Nat.not_lt_zero _)⟩

/-- An encoder puts no samples out for no bits, which fits every capacity. -/
theorem SampleCycle.accepts_empty {i : Instr} {s : State} {len : Nat} {pol : List Bit → Bool}
    {w : List Bit → Nat → ℝ} (h : SampleCycle i s len pol w) (hc : ConfigOk i s) (h0 : s.inBlen = 0)
    (hlen : len = 0) : Accepts i s := by
  obtain ⟨-, -, -, hrun⟩ := h
  obtain ⟨t, ht, hframe, -⟩ := hrun [] hc (bitsLoaded_nil h0) (by omega)
  exact ⟨t, ht, by rw [hframe]⟩

/-- A decoder puts no bits out for no samples, which fits every capacity. -/
theorem DecisionCycle.accepts_empty {i : Instr} {s : State} {len : Nat} {one : (Nat → ℝ) → Nat → Prop}
    (h : DecisionCycle i s len one) (hc : ConfigOk i s) (h0 : s.inSlen = 0) (hlen : len = 0) :
    Accepts i s := by
  obtain ⟨-, -, -, hrun⟩ := h
  obtain ⟨t, ht, hframe, -⟩ := hrun [] hc (sampLoaded_nil h0) (by omega)
  exact ⟨t, ht, by rw [hframe]⟩

theorem FixedBitCycle.accepts_empty {i : Instr} {s : State} {len : Nat} {out : List Bit → List Bit}
    {err : List Bit → Bool} (h : FixedBitCycle i s len out err) (h0 : s.inBlen = 0)
    (hfits : len ≤ s.params.maxBits) : Accepts i s := by
  obtain ⟨-, -, hrun⟩ := h
  obtain ⟨-, t, ht, hframe, -⟩ := hrun [] (bitsLoaded_nil h0) hfits
  exact ⟨t, ht, by rw [hframe]⟩

theorem BitCycle.accepts_empty {i : Instr} {s : State} {out : List Bit → List Bit} {err : List Bit → Bool}
    (h : BitCycle i s out err) (h0 : s.inBlen = 0) (hfits : (out []).length ≤ s.params.maxBits) :
    Accepts i s := by
  obtain ⟨-, -, hrun⟩ := h
  obtain ⟨t, ht, hframe, -⟩ := hrun [] (bitsLoaded_nil h0) hfits
  exact ⟨t, ht, by rw [hframe]⟩

theorem FittingBitCycle.accepts_empty {i : Instr} {s : State} {out : List Bit → List Bit}
    {err : List Bit → Bool} (h : FittingBitCycle i s out err) (h0 : s.inBlen = 0) : Accepts i s := by
  obtain ⟨-, hrun⟩ := h
  obtain ⟨t, ht, hframe, -⟩ := hrun [] (bitsLoaded_nil h0)
  exact ⟨t, ht, by rw [hframe]⟩

/-- A legal command with an empty input is accepted where 32 bits fit, the trailer of CRC_GEN being the longest
output for such an input. -/
theorem accepts_empty {i : Instr} {s : State} (hc : ConfigOk i s) (hbits : bitInput i = true → s.inBlen = 0)
    (hsamp : sampleInput i = true → s.inSlen = 0) (hfits : 32 ≤ s.params.maxBits) : Accepts i s := by
  have blen : bitInput i = true → s.inBlen.toNat = 0 := fun hi => by rw [hbits hi]; rfl
  have slen : sampleInput i = true → s.inSlen.toNat = 0 := fun hi => by rw [hsamp hi]; rfl
  cases i
  case nrzEnc => exact (nrzEncCycle s).accepts_empty hc (hbits rfl) (by simp [blen rfl])
  case manEnc => exact (manEncCycle s).accepts_empty hc (hbits rfl) (by simp [blen rfl])
  case amiEnc => exact (amiEncCycle s).accepts_empty hc (hbits rfl) (by simp [blen rfl])
  case askMod => exact (askModCycle s).accepts_empty hc (hbits rfl) (by simp [blen rfl])
  case fskMod => exact (fskModCycle s).accepts_empty hc (hbits rfl) (by simp [blen rfl])
  case qpskMod => exact (qpskModCycle s).accepts_empty hc (hbits rfl) (by simp [blen rfl])
  case qam16Mod => exact (qamModCycle s).accepts_empty hc (hbits rfl) (by simp [blen rfl])
  case nrzDec => exact (nrzDecCycle s).accepts_empty hc (hsamp rfl) (by simp [slen rfl])
  case manDec => exact (manDecCycle s).accepts_empty hc (hsamp rfl) (by simp [slen rfl])
  case amiDec => exact (amiDecCycle s).accepts_empty hc (hsamp rfl) (by simp [slen rfl])
  case askDem => exact (askDemCycle s).accepts_empty hc (hsamp rfl) (by simp [slen rfl])
  case fskDem => exact (fskDemCycle s).accepts_empty hc (hsamp rfl) (by simp [slen rfl])
  case qpskDem => exact (qpskDemCycle s).accepts_empty hc (hsamp rfl) (by simp [slen rfl])
  case qam16Dem => exact (qamDemCycle s).accepts_empty hc (hsamp rfl) (by simp [slen rfl])
  case bstEnc => exact (bstEnc_bitCycle s).accepts_empty (hbits rfl) (le_trans (by decide) hfits)
  case bstDec => exact (bstDec_fittingBitCycle s).accepts_empty (hbits rfl)
  case crcGen => exact (crcGenCycle s).accepts_empty (hbits rfl) (by simpa [blen rfl] using hfits)
  case crcChk => exact (crcChk_fittingBitCycle s).accepts_empty (hbits rfl)
  case hamEnc => exact (hamEncCycle s).accepts_empty (hbits rfl) (by simp [blen rfl])
  case hamDec => exact (hamDecCycle s).accepts_empty (hbits rfl) (by simp [blen rfl])
  case amiRst => exact ⟨_, rfl, rfl⟩

/-- Settles O14: the check of the command is the table, and each cycle runs through on an empty input. -/
theorem acceptanceFollowsTheTable : Obligations.AcceptanceFollowsTheTable :=
  fun _ _ => ⟨exec_of_not_configOk, fun _ => code_ne_badConfig, accepts_empty⟩

/-! ## Elements that are not written (R56, U3) -/

/-- A sequence that was read has no unwritten element. -/
theorem Buf.read_ne_none_of_readSeq {α : Type} {b : Buf α} {n : Nat} {xs : List α}
    (h : b.readSeq 0 n = .ok xs) {j : Nat} (hj : j < n) : b.read j ≠ none := by
  rcases b.readSeq_cases 0 n with ⟨ys, -, hlen, hread⟩ | ⟨k, herr, -⟩
  · rw [← Nat.zero_add j, hread j hj, List.getElem?_eq_getElem (hlen ▸ hj)]
    exact Option.some_ne_none _
  · cases h.symm.trans herr

/-- A bit-input cycle with an unwritten element below its input length faults at such an element where the
output may fit, and is rejected where it cannot. -/
theorem withInBits_unwritten {s : State} {least capacity : Nat} {finish : List Bit → State}
    (hfits : s.inBlen.toNat ≤ s.params.maxBits)
    (hun : ∃ j, j < s.inBlen.toNat ∧ s.inBits.read j = none) :
    (least ≤ capacity → ∃ j, j < s.inBlen.toNat ∧ s.inBits.read j = none ∧
      withInBits s least capacity finish = .fault (.unwrittenInBit j)) ∧
    (capacity < least → withInBits s least capacity finish = .next (s.reject .outOverflow)) := by
  rcases withInBits_cases s least capacity finish with
    ⟨hlong, -⟩ | ⟨-, b, hseq, -⟩ | ⟨-, hover, e⟩ | ⟨-, hle, j, hj, hnone, e⟩
  · omega
  · obtain ⟨j, hj, hnone⟩ := hun
    exact absurd hnone (Buf.read_ne_none_of_readSeq hseq hj)
  · exact ⟨fun hle => by omega, fun _ => e⟩
  · exact ⟨fun _ => ⟨j, hj, hnone, e⟩, fun hover => by omega⟩

/-- A sample-input cycle with an unwritten element below its input length; as `withInBits_unwritten`. -/
theorem withInSamp_unwritten {s : State} {least capacity : Nat} {finish : List Sample → State}
    (hfits : s.inSlen.toNat ≤ s.params.maxSamples)
    (hun : ∃ j, j < s.inSlen.toNat ∧ s.inSamp.read j = none) :
    (least ≤ capacity → ∃ j, j < s.inSlen.toNat ∧ s.inSamp.read j = none ∧
      withInSamp s least capacity finish = .fault (.unwrittenInSample j)) ∧
    (capacity < least → withInSamp s least capacity finish = .next (s.reject .outOverflow)) := by
  rcases withInSamp_cases s least capacity finish with
    ⟨hlong, -⟩ | ⟨-, r, hseq, -⟩ | ⟨-, hover, e⟩ | ⟨-, hle, j, hj, hnone, e⟩
  · omega
  · obtain ⟨j, hj, hnone⟩ := hun
    exact absurd hnone (Buf.read_ne_none_of_readSeq hseq hj)
  · exact ⟨fun hle => by omega, fun _ => e⟩
  · exact ⟨fun _ => ⟨j, hj, hnone, e⟩, fun hover => by omega⟩

/-- The fault `r` is at an element of the command's own input, below its input length, that is not written. -/
def UnwrittenInput (i : Instr) (s : State) : Fault → Prop
  | .unwrittenInBit j => bitInput i = true ∧ j < s.inBlen.toNat ∧ s.inBits.read j = none
  | .unwrittenInSample j => sampleInput i = true ∧ j < s.inSlen.toNat ∧ s.inSamp.read j = none

/-- Every command reads one of the two input buffers, but for AMI_RST (R76). -/
theorem input_cases (i : Instr) : bitInput i = true ∨ sampleInput i = true ∨ i = .amiRst := by
  cases i
  case amiRst => exact .inr (.inr rfl)
  case nrzDec | manDec | amiDec | askDem | fskDem | qpskDem | qam16Dem => exact .inr (.inl rfl)
  all_goals exact .inl rfl

/-- What a command answers: a next state, or, with a legal configuration and room for its output, a fault at
an unwritten element of its input. -/
theorem exec_outcomes (i : Instr) (s : State) :
    (∃ t, exec i s = .next t) ∨
    ∃ r, exec i s = .fault r ∧ ConfigOk i s ∧ leastOutput i s ≤ outputCapacity i s ∧
      UnwrittenInput i s r := by
  by_cases hc : ConfigOk i s
  case neg => exact .inl ⟨_, exec_of_not_configOk hc⟩
  rcases input_cases i with hb | hi | rfl
  · obtain ⟨finish, hexec⟩ := exec_bitInput hc hb
    rw [hexec]
    rcases withInBits_cases s (leastOutput i s) (outputCapacity i s) finish with
      ⟨-, e⟩ | ⟨-, b, -, -, e⟩ | ⟨-, -, e⟩ | ⟨-, hle, j, hj, hnone, e⟩
    case inr.inr.inr => exact .inr ⟨_, e, hc, hle, hb, hj, hnone⟩
    all_goals exact .inl ⟨_, e⟩
  · obtain ⟨finish, hexec⟩ := exec_sampleInput hc hi
    rw [hexec]
    rcases withInSamp_cases s (leastOutput i s) (outputCapacity i s) finish with
      ⟨-, e⟩ | ⟨-, r, -, -, e⟩ | ⟨-, -, e⟩ | ⟨-, hle, j, hj, hnone, e⟩
    case inr.inr.inr => exact .inr ⟨_, e, hc, hle, hi, hj, hnone⟩
    all_goals exact .inl ⟨_, e⟩
  · exact .inl ⟨_, rfl⟩

/-- What a step answers: a next state, or the fault of the command it runs. -/
theorem step_outcomes (s : State) :
    (∃ t, step s = .next t) ∨
    ∃ r w i, step s = .fault r ∧ s.fetchCommand = some w ∧ decode w = .ok i ∧ ConfigOk i s ∧
      leastOutput i s ≤ outputCapacity i s ∧ UnwrittenInput i s r := by
  cases hf : s.fetchCommand with
  | none => exact .inl ⟨_, step_host hf⟩
  | some w =>
    rw [step_command hf]
    cases hd : decode w with
    | error _ => exact .inl ⟨_, rfl⟩
    | ok i =>
      rcases exec_outcomes i s with hnext | ⟨r, hfault, hwhy⟩
      · exact .inl hnext
      · exact .inr ⟨r, w, i, hfault, rfl, hd, hwhy⟩

/-- Settles O20: the outcomes of a step leave no refusal and one reason to fault, and the cycle of a command
decides between that fault and OUT_OVERFLOW. -/
theorem stopsOnlyOnUnwrittenInput : Obligations.StopsOnlyOnUnwrittenInput := by
  refine ⟨fun s r h => ?_, fun s r h => ?_, fun i s hc => ⟨fun hb hfits hun => ?_, fun hi hfits hun => ?_⟩⟩
  · rcases step_outcomes s with ⟨t, ht⟩ | ⟨r', w, i, hr, -⟩
    · cases h.symm.trans ht
    · cases h.symm.trans hr
  · rcases step_outcomes s with ⟨t, ht⟩ | ⟨r', w, i, hr, hf, hd, hc, hle, hun⟩
    · cases h.symm.trans ht
    · cases h.symm.trans hr
      refine ⟨w, i, hf, hd, hc, hle, ?_⟩
      cases r <;> exact hun
  · obtain ⟨finish, hexec⟩ := exec_bitInput hc hb
    rw [hexec]
    exact withInBits_unwritten hfits hun
  · obtain ⟨finish, hexec⟩ := exec_sampleInput hc hi
    rw [hexec]
    exact withInSamp_unwritten hfits hun

end Sys2Proof.Machine
end

section
/-! The host port while the block is idle (R22 to R40, R50 to R60): the reads, the writes of each register, the
outputs that no write reaches, and the copy of the output samples that `mvs` makes (R80). -/

namespace Sys2Proof.Machine

/-! ## Samples (R52, R56) -/

theorem sampOf_inSamp {s : State} {i : Nat} {y : Sample} (hcap : i < s.params.maxSamples)
    (h : s.inSamp.read i = some y) : s.sampOf .inSamp i = some y := by
  rw [State.sampOf, if_pos hcap, h]

theorem sampOf_outSamp {s : State} {i : Nat} {y : Sample} (hcap : i < s.params.maxSamples)
    (hlen : i < s.outSlen.toNat) (h : s.outSamp.read i = some y) : s.sampOf .outSamp i = some y := by
  rw [State.sampOf, if_pos ⟨hcap, hlen⟩, h]

/-- A read of a sample while the block is idle, as a whole turn. -/
theorem step_rs_idle {s : State} {sp : SampSpace} {i : Nat} {rest : List Access} (h : s.inflight = none)
    (hh : s.host = .rs sp i :: rest) :
    step s = .next { s with
      host := rest
      rx := .sample ((s.sampOf sp i).getD (Config.freeSample s.tick)) :: s.rx
      tick := s.tick + 1 } := by
  rw [step_idle h hh, perform_rs, State.doRs, State.busy, h]
  rfl

/-- A write of a sample to IN_SAMP while the block is idle. -/
theorem doWs_inSamp_idle {s : State} (h : s.inflight = none) (i : Nat) (x : Sample) :
    s.doWs .inSamp i x =
      { s with inSamp := if i < s.params.maxSamples then s.inSamp.write i x else s.inSamp } := by
  have hbusy : s.busy = false := by rw [State.busy, h]; rfl
  by_cases hcap : i < s.params.maxSamples <;> simp [State.doWs, hbusy, hcap]

/-- Settles O26: a write below the capacity sets the element it names in a buffer that has its one form, and a
write beyond it does nothing. -/
theorem sampleWrites : Obligations.SampleWrites := by
  intro s i x rest hidle hs hh
  rw [step_idle hidle hh, perform_ws, doWs_inSamp_idle (s := { s with host := rest }) hidle]
  refine ⟨_, rfl, rfl, fun j => ?_⟩
  by_cases hcap : i < s.params.maxSamples
  · simp [hcap, Buf.read_write hs.inSamp_wf]
  · simp [hcap]

/-! ## Reads (R60) -/

/-- A read at any offset while the block is idle, as a whole turn. -/
theorem step_rd_off_idle {s : State} {off : Nat} {rest : List Access} (h : s.inflight = none)
    (hh : s.host = .rd off :: rest) :
    step s = .next { s with host := rest, rx := s.rdData off :: s.rx, tick := s.tick + 1 } := by
  cases hr : Reg.ofOffset off with
  | some r => rw [step_rd_idle h hr hh, rdData_idle h hr]
  | none =>
    rw [step_idle h hh, perform_rd, State.doRd, rdData_reserved (s := { s with host := rest }) h hr,
      rdData_reserved h hr]
    rfl

/-- Settles O8: the datum read at a register's offset is `State.readReg`, and a sample that the buffer shows is
the one it holds. -/
theorem idleReads : Obligations.IdleReads := by
  intro s rest hidle
  have reads : ∀ (r : Reg) {off : Nat}, Reg.ofOffset off = some r → s.rdData off = s.readReg r :=
    fun _ _ hr => rdData_idle hidle hr
  refine ⟨fun off hh => ⟨s.rdData off, step_rd_off_idle hidle hh, ?_⟩,
    fun sp i hh => ⟨_, step_rs_idle hidle hh, ?_, ?_⟩⟩
  · refine ⟨?_, ?_, ?_, ?_, ?_, ?_, ?_, ?_⟩ <;> rintro rfl
    · exact reads .status rfl
    · exact reads .inBlen rfl
    · exact reads .inSlen rfl
    · exact reads .outBlen rfl
    · exact reads .outSlen rfl
    · exact reads .spb rfl
    · exact reads .vpeak rfl
    · exact reads .fs rfl
  · rintro rfl hcap y hy
    rw [sampOf_inSamp hcap hy, Option.getD_some]
  · rintro rfl hcap hlen y hy
    rw [sampOf_outSamp hcap hlen hy, Option.getD_some]

/-! ## Writes of registers (R22, R45) -/

/-- Settles O22: the register at the offset stores the part of the word that its field holds. -/
theorem registerWrites : Obligations.RegisterWrites := by
  intro s off w x rest hidle
  have field : w.setWidth 16 = w.extractLsb' 0 16 := BitVec.setWidth_eq_extractLsb' (by decide)
  rw [← field]
  refine ⟨fun hh => ?_, fun hh => ?_⟩
  · refine ⟨?_, ?_, ?_, ?_, ?_, ?_, ?_, ?_⟩ <;> rintro rfl
    · exact step_wr_idle hidle (r := .inBlen) rfl hh
    · exact step_wr_idle hidle (r := .inSlen) rfl hh
    · exact step_wr_idle hidle (r := .spb) rfl hh
    · exact step_wr_idle hidle (r := .askCyc) rfl hh
    · exact step_wr_idle hidle (r := .fskCyc1) rfl hh
    · exact step_wr_idle hidle (r := .fskCyc2) rfl hh
    · exact step_wr_idle hidle (r := .iqCyc) rfl hh
    · exact step_wr_idle hidle (r := .amiState) rfl hh
  · refine ⟨?_, ?_⟩ <;> rintro rfl
    · exact step_wr_idle hidle (r := .vpeak) rfl hh
    · exact step_wr_idle hidle (r := .fs) rfl hh

/-! ## STATUS (R24) -/

/-- STATUS bit by bit. -/
theorem getLsbD_statusWord (s : State) (k : Nat) : s.statusWord.getLsbD k =
    if k = 0 then s.busy else if k = 1 then s.err else if k < 4 then false
    else s.code.value.getLsbD (k - 4) := by
  simp only [State.statusWord, BitVec.getLsbD_append, BitVec.getLsbD_ofBool, BitVec.getLsbD_zero]
  split_ifs <;> grind

/-- The bits above ERR hold the code, from bit 4 on. -/
theorem toNat_statusWord_div (s : State) : s.statusWord.toNat / 16 = s.code.value.toNat := by
  refine Nat.eq_of_testBit_eq fun k => ?_
  rw [show (16 : Nat) = 2 ^ 4 from rfl, Nat.testBit_div_two_pow, BitVec.testBit_toNat, BitVec.testBit_toNat,
    getLsbD_statusWord, if_neg (by omega), if_neg (by omega), if_neg (by omega), Nat.add_sub_cancel]

/-- Settles O21: the fields of STATUS are read off bit by bit, and a write reaches none of them. -/
theorem statusLayout : Obligations.StatusLayout := by
  refine ⟨fun s => ⟨?_, ?_, ?_, ?_, ?_, fun k hk => ?_⟩,
    fun s v rest hidle hh => step_wr_idle hidle (r := .status) rfl hh⟩
  · exact getLsbD_statusWord s 0
  · exact getLsbD_statusWord s 1
  · exact getLsbD_statusWord s 2
  · exact getLsbD_statusWord s 3
  · rw [toNat_statusWord_div]
    cases s.code <;> rfl
  · rw [getLsbD_statusWord, if_neg (by omega), if_neg (by omega), if_neg (by omega)]
    exact BitVec.getLsbD_of_ge _ _ (by omega)

/-! ## The outputs are read-only (R22, R50) -/

/-- Settles O24: no case of a write to an output register or an output buffer changes the state. -/
theorem outputsAreReadOnly : Obligations.OutputsAreReadOnly := by
  intro s rest hidle
  refine ⟨fun off v hoff hh => ?_, fun j v hh => ?_, fun i x hh => ?_⟩
  · rcases hoff with rfl | rfl
    · exact step_wr_idle hidle (r := .outBlen) rfl hh
    · exact step_wr_idle hidle (r := .outSlen) rfl hh
  · rw [step_idle hidle hh, perform_wb, State.doWb, ite_self]
  · rw [step_idle hidle hh, perform_ws, State.doWs, ite_self]

/-! ## The pseudo-access `mvs` (R80) -/

/-- The two accesses that copy sample `i`. -/
def copySample (i : Nat) : List Access := [.rs .outSamp i, .wsLast .inSamp i]

/-- Under the invariant an output sample below OUT_SLEN has a value and lies below the capacity. -/
theorem outSamp_held_within {s : State} (hs : Invariant s) {i : Nat} (hi : i < s.outSlen.toNat) :
    ∃ x, s.outSamp.read i = some x ∧ i < s.params.maxSamples := by
  obtain ⟨x, hx⟩ := Option.isSome_iff_exists.mp (hs.outSamp_held i hi)
  exact ⟨x, hx, Buf.lt_of_read hs.outSamp_within hx⟩

/-- A write of the sample read last, as a whole turn. -/
theorem step_wsLast_idle {s : State} {i : Nat} {x : Sample} {past : List HostData} {rest : List Access}
    (h : s.inflight = none) (hh : s.host = .wsLast .inSamp i :: rest) (hrx : s.rx = .sample x :: past)
    (hcap : i < s.params.maxSamples) :
    step s = .next { s with host := rest, inSamp := s.inSamp.write i x } := by
  have hlast : ({ s with host := rest } : State).doWsLast .inSamp i =
      ({ s with host := rest } : State).doWs .inSamp i x := by
    unfold State.doWsLast
    rw [hrx]
  rw [step_idle h hh, perform_wsLast, hlast, doWs_inSamp_idle (s := { s with host := rest }) h, if_pos hcap]

/-- The copy of one sample, as two turns. -/
theorem run_copySample {s : State} {i : Nat} {rest : List Access} (hs : Invariant s)
    (h : s.inflight = none) (hi : i < s.outSlen.toNat) (hh : s.host = copySample i ++ rest) :
    ∃ x, s.outSamp.read i = some x ∧ ∀ m, Sys2Proof.core.run (m + 2) s =
      Sys2Proof.core.run m { s with
        host := rest, inSamp := s.inSamp.write i x, rx := .sample x :: s.rx, tick := s.tick + 1 } := by
  obtain ⟨x, hx, hcap⟩ := outSamp_held_within hs hi
  have hread := step_rs_idle h hh
  rw [sampOf_outSamp hcap hi hx, Option.getD_some] at hread
  refine ⟨x, hx, fun m => ?_⟩
  rw [run_next hread]
  exact run_next (step_wsLast_idle h rfl rfl hcap)

/-- `t` is `s` after the output samples at the indices `is` have been copied and the accesses `rest` are left:
what the host holds of its reads aside, nothing else has changed. -/
def SamplesMoved (is : List Nat) (rest : List Access) (s t : State) : Prop :=
  t = { s with host := rest, inSamp := t.inSamp, rx := t.rx, tick := t.tick } ∧
  ∀ i, t.inSamp.read i = if i ∈ is then s.outSamp.read i else s.inSamp.read i

/-- The copies of a list of samples, one after the other. -/
theorem run_copySamples {is : List Nat} {s : State} {rest : List Access} (hs : Invariant s)
    (h : s.inflight = none) (his : ∀ i ∈ is, i < s.outSlen.toNat)
    (hh : s.host = is.flatMap copySample ++ rest) :
    ∃ t : State, (∀ m, Sys2Proof.core.run (m + 2 * is.length) s = Sys2Proof.core.run m t) ∧
      SamplesMoved is rest s t := by
  induction is generalizing s with
  | nil =>
    refine ⟨s, fun _ => rfl, ?_, fun i => by simp⟩
    rw [← show s.host = rest from hh]
  | cons i is ih =>
    rw [List.flatMap_cons, List.append_assoc] at hh
    have hi := his i List.mem_cons_self
    obtain ⟨x, hx, hrun⟩ := run_copySample hs h hi hh
    obtain ⟨-, -, hcap⟩ := outSamp_held_within hs hi
    have hs' : Invariant { s with
        host := is.flatMap copySample ++ rest, inSamp := s.inSamp.write i x, rx := .sample x :: s.rx
        tick := s.tick + 1 } :=
      { hs with
        inSamp_wf := Buf.wf_write hs.inSamp_wf i x
        inSamp_within := Buf.within_write hs.inSamp_within hcap x }
    obtain ⟨t, hrun', hframe, hread⟩ := ih hs' h (fun k hk => his k (List.mem_cons_of_mem _ hk)) rfl
    refine ⟨t, fun m => (hrun (m + 2 * is.length)).trans (hrun' m), hframe, fun k => ?_⟩
    rw [hread k]
    by_cases hk : k ∈ is
    · simp [hk]
    · by_cases hki : k = i
      · subst hki
        simp [hk, hx, Buf.read_write hs.inSamp_wf]
      · simp [hk, hki, Buf.read_write hs.inSamp_wf]

/-- `t` is `s` after `mvs`, with the accesses `rest` left. -/
def OutputMoved (rest : List Access) (s t : State) : Prop :=
  t = { s with host := rest, inSamp := t.inSamp, inSlen := s.outSlen, rx := t.rx, tick := t.tick } ∧
  ∀ i, t.inSamp.read i = if i < s.outSlen.toNat then s.outSamp.read i else s.inSamp.read i

/-- What `mvs` expands into once the host has read OUT_SLEN: the copies, two turns each, and the write of the
length to IN_SLEN. -/
theorem run_mvsBody {s : State} {rest : List Access} (hs : Invariant s) (h : s.inflight = none)
    (hh : s.host = mvsBody s.outSlen ++ rest) :
    ∃ t : State, Sys2Proof.core.run (2 * s.outSlen.toNat + 1) s = .next t ∧ OutputMoved rest s t := by
  rw [mvsBody, List.append_assoc] at hh
  obtain ⟨t, hrun, hframe, hread⟩ := run_copySamples hs h (fun _ => List.mem_range.mp) hh
  have hidle : t.inflight = none := by rw [hframe]; exact h
  have hhost : t.host = .wr 3 (.word s.outSlen) :: rest := by rw [hframe]; rfl
  have hlast : step t = .next { t with host := rest, inSlen := s.outSlen } :=
    step_wr_idle hidle (r := .inSlen) rfl hhost
  refine ⟨{ t with host := rest, inSlen := s.outSlen }, ?_, ?_, fun i => ?_⟩
  · have hcopies := hrun 1
    rw [List.length_range, Nat.add_comm] at hcopies
    exact hcopies.trans (run_next hlast)
  · rw [hframe]
  · simpa only [List.mem_range] using hread i

/-- The turn of `mvs` while the block is idle: the host reads OUT_SLEN and takes up the copies. -/
theorem step_mvs_idle {s : State} {rest : List Access} (h : s.inflight = none) (hh : s.host = .mvs :: rest) :
    step s = .next { s with
      host := mvsBody s.outSlen ++ rest, rx := .word s.outSlen :: s.rx, tick := s.tick + 1 } := by
  have hread : ({ s with host := rest } : State).rdData 5 = .word s.outSlen :=
    rdData_idle (s := { s with host := rest }) h (r := .outSlen) rfl
  rw [step_idle h hh, perform_mvs, State.doMvs, State.doRd, hread]
  rfl

/-- Settles O27: the turn that reads the length keeps the invariant, by which every sample below the length
is there to be copied. -/
theorem mvsCopiesTheOutput : Obligations.MvsCopiesTheOutput := by
  intro s rest hs hidle hh
  have hstart := step_mvs_idle hidle hh
  obtain ⟨hs', -⟩ := stepKeepsInvariant _ _ hs hstart
  obtain ⟨t, hrun, hframe, hread⟩ := run_mvsBody hs' hidle rfl
  exact ⟨t, (run_next hstart).trans hrun, hframe, hread⟩

end Sys2Proof.Machine
end

section
/-! Command words that are run (R73, R77). -/

namespace Sys2Proof.Machine

/-- Settles O2: the words are the encodings of their commands. -/
theorem writtenWordsDecode : Obligations.WrittenWordsDecode :=
  ⟨decode_encode .amiEnc, decode_encode .qam16Dem, decode_encode .bstDec, decode_encode .crcChk,
    decode_encode .hamEnc⟩

/-- Settles O4: the word in progress is the one fetched, and the command decoded from it is run. -/
theorem stepRunsTheDecodedCommand : Obligations.StepRunsTheDecodedCommand :=
  fun _ _ _ h hd => step_decoded h hd

end Sys2Proof.Machine
end

section
/-! A transmission split over two AMI_ENC commands (R105, R264): marks and levels of a sequence `a ++ b`, those
of `b` from the polarity that `a` leaves. -/

namespace Sys2Proof.Machine

/-- The polarity after one more bit, a 1 being a mark. -/
theorem polarityAfter_count_cons (p x : Bool) (b : List Bit) :
    polarityAfter p ((x :: b).count true) = polarityAfter (Bool.xor p x) (b.count true) := by
  cases x <;> simp [polarityAfter_succ]

/-- The polarity that the whole leaves is the one `b` leaves from the polarity after `a`. -/
theorem polarityAfter_count_append (p : Bool) (a b : List Bit) :
    polarityAfter p ((a ++ b).count true) =
      polarityAfter (polarityAfter p (a.count true)) (b.count true) := by
  induction a generalizing p with
  | nil => rfl
  | cons x a ih => rw [List.cons_append, polarityAfter_count_cons, polarityAfter_count_cons, ih]

/-- The level of an interval does not depend on the bits after it. -/
theorem amiLevel_append_left (v : ℝ) (p : Bool) (a b : List Bit) {i : Nat} (hi : i < a.length) :
    amiLevel v p (a ++ b) i = amiLevel v p a i := by
  have hmarks : marksBefore (a ++ b) i = marksBefore a i := by
    rw [marksBefore, marksBefore, List.take_append_of_le_length hi.le]
  rw [amiLevel, amiLevel, bitAt_append_left b hi, hmarks]

/-- The levels after `a` are those of `b` from the polarity that `a` leaves. -/
theorem amiLevel_append_right (v : ℝ) (p : Bool) (a b : List Bit) (i : Nat) :
    amiLevel v p (a ++ b) (a.length + i) = amiLevel v (polarityAfter p (a.count true)) b i := by
  induction a generalizing p with
  | nil => rw [List.nil_append, List.length_nil, Nat.zero_add]; rfl
  | cons x a ih =>
    rw [List.cons_append, List.length_cons, Nat.add_right_comm, amiLevel_cons_succ, ih,
      polarityAfter_count_cons]

/-- What an AMI_ENC that is accepted on the bits `b` leaves: the polarity after them, and in OUT_SAMP the
level of each interval. -/
theorem amiEnc_of_code_ok {s t : State} {b : List Bit} (hb : BitsLoaded s b) (ht : exec .amiEnc s = .next t)
    (hok : t.code = .ok) :
    0 < s.spb.toNat ∧ t.amiPol = polarityAfter s.amiPol (b.count true) ∧
      ∀ j, j < b.length * s.spb.toNat → ∃ x, t.outSamp.read j = some x ∧
        x.toReal = amiLevel s.vpeak.toReal s.amiPol b (j / s.spb.toNat) := by
  obtain ⟨hc, -, hframe, -, hread, -⟩ := (amiEncCycle s).of_code_ok hb ht hok
  rw [← hb.1] at hread
  exact ⟨spbN_pos hc, by rw [hframe], hread⟩

/-- Settles O35: the levels of the whole are those of `a`, and then those of `b` from the polarity `a` leaves. -/
theorem amiSplitTransmission : Obligations.AmiSplitTransmission := by
  intro s s₁ s₂ t t₁ t₂ a b hab ha hb hspb₁ hspb₂ hv₁ hv₂ ht hok hpol₁ ht₁ hok₁ hpol₂ ht₂ hok₂
  obtain ⟨hpos, hpol, hread⟩ := amiEnc_of_code_ok hab ht hok
  obtain ⟨-, hpolA, hreadA⟩ := amiEnc_of_code_ok ha ht₁ hok₁
  obtain ⟨-, hpolB, hreadB⟩ := amiEnc_of_code_ok hb ht₂ hok₂
  rw [hspb₁, hv₁, hpol₁] at hreadA
  rw [hpol₁] at hpolA
  rw [hspb₂, hv₂, hpol₂, hpolA] at hreadB
  rw [List.length_append, Nat.add_mul] at hread
  refine ⟨?_, fun j hj => ?_, fun j hj => ?_⟩
  · rw [hpolB, hpol₂, hpolA, hpol, polarityAfter_count_append]
  · obtain ⟨x, hx, hxv⟩ := hread j (by omega)
    obtain ⟨y, hy, hyv⟩ := hreadA j hj
    have hi : j / s.spb.toNat < a.length := (Nat.div_lt_iff_lt_mul hpos).mpr hj
    exact ⟨x, y, hx, hy, by rw [hxv, hyv, amiLevel_append_left _ _ _ _ hi]⟩
  · obtain ⟨x, hx, hxv⟩ := hread (a.length * s.spb.toNat + j) (by omega)
    obtain ⟨y, hy, hyv⟩ := hreadB j hj
    have hi : (a.length * s.spb.toNat + j) / s.spb.toNat = a.length + j / s.spb.toNat := by
      rw [Nat.mul_comm, Nat.mul_add_div hpos]
    exact ⟨x, y, hx, hy, by rw [hxv, hyv, hi, amiLevel_append_right]⟩

end Sys2Proof.Machine
end

section
/-! The payload of a stuffed frame (R78, R171): how long the frame is, and that no six consecutive bits between
the flags are all 1. -/

namespace Sys2Proof.Machine

/-- After a run of 1 bits, a 0 stands before the run reaches six. -/
theorem exists_zero_stuff_of_run {run : Nat} (hrun : run < 5) {b : List Bit}
    (hlen : 6 ≤ run + (stuff run b).length) : ∃ k, run + k < 6 ∧ bitAt (stuff run b) k = false := by
  induction b generalizing run with
  | nil => simp only [stuff, List.length_nil] at hlen; omega
  | cons x b ih =>
    cases x with
    | false => exact ⟨0, by omega, rfl⟩
    | true =>
      by_cases h : run + 1 = 5
      · rw [stuff_true_fifth h]
        exact ⟨1, by omega, rfl⟩
      · rw [stuff_true_of_ne h] at hlen ⊢
        rw [List.length_cons] at hlen
        obtain ⟨k, hk, hzero⟩ := ih (run := run + 1) (by omega) (by omega)
        exact ⟨k + 1, by omega, hzero⟩

/-- Any six consecutive bits of a stuffed payload hold a 0. -/
theorem exists_zero_stuff {run : Nat} (hrun : run < 5) {b : List Bit} {i : Nat}
    (hlen : i + 6 ≤ (stuff run b).length) : ∃ k, k < 6 ∧ bitAt (stuff run b) (i + k) = false := by
  induction b generalizing run i with
  | nil => simp [stuff] at hlen
  | cons x b ih =>
    cases i with
    | zero =>
      obtain ⟨k, hk, hzero⟩ := exists_zero_stuff_of_run hrun (b := x :: b) (by omega)
      exact ⟨k, by omega, by rwa [Nat.zero_add]⟩
    | succ i =>
      cases x with
      | false =>
        rw [stuff_false] at hlen ⊢
        obtain ⟨k, hk, hzero⟩ := ih (run := 0) (i := i) (by decide) (Nat.le_of_succ_le_succ hlen)
        exact ⟨k, hk, by rwa [Nat.add_right_comm]⟩
      | true =>
        by_cases h : run + 1 = 5
        · rw [stuff_true_fifth h] at hlen ⊢
          cases i with
          | zero => exact ⟨0, by decide, rfl⟩
          | succ i =>
            obtain ⟨k, hk, hzero⟩ := ih (run := 0) (i := i) (by decide)
              (Nat.le_of_succ_le_succ (Nat.le_of_succ_le_succ hlen))
            exact ⟨k, hk, by rwa [Nat.add_right_comm, Nat.add_right_comm i]⟩
        · rw [stuff_true_of_ne h] at hlen ⊢
          obtain ⟨k, hk, hzero⟩ := ih (run := run + 1) (i := i) (by omega) (Nat.le_of_succ_le_succ hlen)
          exact ⟨k, hk, by rwa [Nat.add_right_comm]⟩

/-- Behind the first flag of a frame stands the stuffed payload. -/
theorem bitAt_bstEncode (b : List Bit) {j : Nat} (hj : j < (stuff 0 b).length) :
    bitAt (bstEncode b) (8 + j) = bitAt (stuff 0 b) j := by
  have hflag : stuffFlag.length = 8 := rfl
  rw [bstEncode, List.append_assoc, ← hflag, bitAt_append_right, bitAt_append_left _ hj]

/-- Settles O51: the frame is what OUT_BITS holds, and its bits between the flags are the stuffed payload. -/
theorem stuffedPayloadBounds : Obligations.StuffedPayloadBounds := by
  intro s t b hb hmax ht hok
  obtain ⟨-, hout⟩ := (bstEnc_bitCycle s).of_code_ok hb ht hok
  have hle := length_bstEncode_le b
  have hstuff := length_bstEncode b
  have ⟨_, hblen, _, _⟩ := hout
  rw [hblen (hle.trans_lt hmax)]
  refine ⟨le_length_bstEncode b, hle, fun i h8 hi => ?_⟩
  obtain ⟨j, rfl⟩ := Nat.exists_eq_add_of_le h8
  obtain ⟨k, hk, hzero⟩ := exists_zero_stuff (b := b) (i := j) (by decide : 0 < 5) (by omega)
  refine ⟨k, hk, ?_⟩
  rw [hout.read_eq (by omega), Nat.add_assoc, bitAt_bstEncode b (by omega), hzero]

end Sys2Proof.Machine
end
